-- ==== Sys2Proof/Word.lean ====
section
/-! DEFINITION. The words of the block: bytes on the wire, 16-bit cells, floating-point encodings (00_scope.md R10, R15). -/

namespace Sys2Proof

/-- One byte of a frame (R60). -/
abbrev Byte := BitVec 8

/-- One cell of the register store, and every 16-bit field of a frame (R10, R23). -/
abbrev Word := BitVec 16

/-- The 32-bit encoding of a binary32 value (R15, `bits32`). -/
abbrev Bits32 := BitVec 32

/-- The 64-bit encoding of a binary64 value (R15). -/
abbrev Bits64 := BitVec 64

end Sys2Proof
end

