-- ==== Sys2Proof/Config.lean ====
section
/-! DEFINITION. The configuration of the block (00_scope.md R9), the entity descriptors (43_entities.md R170), the spec's
example configurations EX-A to EX-D (95_test_vectors.md part 1), and the one free value (93 I19). -/

namespace Sys2Proof

/-- The four entity variants (R170; there is no synchronized variant, R190). -/
inductive Variant where
  | int
  | bool
  | float
  | array
  deriving DecidableEq, Repr

/-- A value handed to the block at the local port or as an entity's initial value. Which forms an entity accepts is
the representation check of R173: a natural number, a Boolean, a binary32 encoding, a list of natural numbers. -/
inductive Value where
  | nat (n : Nat)
  | bool (b : Bool)
  | float (u : Bits32)
  | list (ns : List Nat)
  deriving DecidableEq, Repr

/-- The default snapshot `INIT[k]` of a class and its mutability `MUTABLE[k]` (R9). The words are natural numbers here,
because a configuration whose words exceed 16 bits is something the check of R243 must be able to see. -/
structure ClassCfg where
  snapshot : List (Nat × Nat)
  growable : Bool
  deriving DecidableEq, Repr

/-- One entry of `EXTRA`: a class added by `register` at configuration (42_store_port.md R158). -/
structure ExtraClass where
  /-- the function code the entry binds; it gives that code no meaning on the bus port (R71) -/
  code : Nat
  /-- the class the entry names; 0 to 3 name the four standard classes -/
  label : Nat
  cls : ClassCfg
  deriving DecidableEq, Repr

/-- An entity descriptor `(variant, k, a, N, p, init)` (R170). -/
structure EntityDesc where
  variant : Variant
  /-- the class identifier `k` -/
  cls : Nat
  /-- the external base address `a` -/
  addr : Nat
  /-- the array length `N`; for ARRAY only -/
  len : Nat := 1
  /-- the rounding precision `p`; for FLOAT only, 4 by default -/
  precision : Int := 4
  initial : Value
  deriving DecidableEq, Repr

/-- `ENTITY_INIT` (R9, D17): whether building an entity writes its initial value to the store. -/
inductive EntityInit where
  | writeThrough
  | cacheOnly
  deriving DecidableEq, Repr

/-- `COIL_ECHO` (R9, D10): the two data bytes of the function-code-5 echo. -/
inductive CoilEcho where
  | std
  | raw
  | word
  deriving DecidableEq, Repr

/-- The configuration `cfg` (R9). It is a parameter of the block and no operation changes it (R29). -/
structure Config where
  /-- `DEV_ADDR` -/
  devAddr : Byte
  /-- `ADDR_OFFSET`: 0 or 1 in a well-formed configuration -/
  addrOffset : Nat
  co : ClassCfg
  di : ClassCfg
  hr : ClassCfg
  ir : ClassCfg
  /-- `EXTRA` -/
  extra : List ExtraClass
  /-- `ENTITIES` -/
  entities : List EntityDesc
  /-- `ENTITY_INIT` -/
  entityInit : EntityInit
  /-- `COIL_ECHO` -/
  coilEcho : CoilEcho
  deriving DecidableEq, Repr

/-- The free value of the model (93 I19, log 10): the sign bit (bit 52) and the payload (bits 51 to 0) of the `n`-th
NaN that widening a binary32 NaN gives. It has no body, so no proof can learn it. -/
opaque Config.freeNaN : Nat → BitVec 53

/-- EX-A of 95_test_vectors.md, without entities. `ENTITY_INIT` is without effect there. -/
def Config.exA : Config where
  devAddr := 0x01#8
  addrOffset := 0
  co := { snapshot := (List.range 16).map fun i => (i, 0), growable := false }
  di := { snapshot := [(0, 1), (1, 0), (2, 1), (3, 1), (4, 0), (5, 0), (6, 1), (7, 1)], growable := false }
  hr := { snapshot := [(0, 0x1234), (1, 0), (2, 0x00FF), (3, 0xABCD), (4, 0), (5, 0), (6, 0), (7, 0), (8, 0), (9, 9)],
          growable := false }
  ir := { snapshot := [(0, 0x0001), (1, 0x0002), (2, 0x8000), (3, 0xFFFF)], growable := false }
  extra := []
  entities := []
  entityInit := .writeThrough
  coilEcho := .std

/-- EX-B of 95_test_vectors.md: EX-A with write-through construction and the entities e0 to e3. -/
def Config.exB : Config :=
  { Config.exA with
    entities := [
      { variant := .int, cls := 2, addr := 9, initial := .nat 9 },
      { variant := .bool, cls := 0, addr := 0, initial := .bool false },
      { variant := .float, cls := 2, addr := 4, precision := 4, initial := .float 0#32 },
      { variant := .array, cls := 2, addr := 6, len := 3, initial := .list [0, 0, 0] }] }

/-- EX-C of 95_test_vectors.md: EX-A with a growable HR class. -/
def Config.exC : Config := { Config.exA with hr := { Config.exA.hr with growable := true } }

/-- EX-D of 95_test_vectors.md: EX-A in one-based mode. -/
def Config.exD : Config := { Config.exA with addrOffset := 1 }

end Sys2Proof
end

