-- ==== Sys2Proof/Syntax.lean ====
section
/-! DEFINITION. The instructions of the block: the eight request frames of the bus port (30_encoding.md R61, R62, R70) and
the nineteen operations of the local port (R75), one constructor for each row of the opcode table; and the form in which
each port receives them. -/

namespace Sys2Proof

/-- One constructor for each row of spec/opcode_table.json. A request frame carries every field of its format, the
received CRC included, because whether the frame is answered depends on it (R120); the byte count `N` of format FM is
the length of its payload (R62). An operand of a local operation is a class identifier, external address, count or
entity index, each a natural number (R76), a list of words, or a value to write. -/
inductive Instr where
  | readCoils (dev : Byte) (addr q crc : Word)
  | readDiscreteInputs (dev : Byte) (addr q crc : Word)
  | readHoldingRegisters (dev : Byte) (addr q crc : Word)
  | readInputRegisters (dev : Byte) (addr q crc : Word)
  | writeSingleCoil (dev : Byte) (addr q crc : Word)
  | writeSingleRegister (dev : Byte) (addr q crc : Word)
  | writeMultipleCoils (dev : Byte) (addr q : Word) (payload : List Byte) (crc : Word)
  | writeMultipleRegisters (dev : Byte) (addr q : Word) (payload : List Byte) (crc : Word)
  | lValidate (k a n : Nat)
  | lGet (k a n : Nat)
  | lSet (k a : Nat) (vals : List Word)
  | lReset
  | lReadChanged
  | lClearChanged
  | lTakeChanged
  | eIntRead (e : Nat)
  | eIntCached (e : Nat)
  | eIntWrite (e : Nat) (v : Value)
  | eBoolRead (e : Nat)
  | eBoolCached (e : Nat)
  | eBoolWrite (e : Nat) (v : Value)
  | eFloatRead (e : Nat)
  | eFloatCached (e : Nat)
  | eFloatWrite (e : Nat) (v : Value)
  | eArrayRead (e : Nat)
  | eArrayCached (e : Nat)
  | eArrayWrite (e : Nat) (v : Value)
  deriving DecidableEq, Repr

/-- A command record `(sel, operands)` of the local port (R75). The operands are a record, not bits. -/
structure Command where
  sel : Byte
  operands : List Value
  deriving DecidableEq, Repr

/-- What a port receives: the byte list of a request frame (R60) or a command record (R75). -/
inductive Encoded where
  | frame (bytes : List Byte)
  | command (c : Command)
  deriving DecidableEq, Repr

end Sys2Proof
end

