-- ==== Sys2Proof/WellFormed.lean ====
section
/-! DEFINITION. Which instructions have an encoding: the payload of a multi-write request has at most 255 bytes, because
its byte count is one byte (30_encoding.md R62). Every other operand has an encoding at every value (R63, R76). -/

namespace Sys2Proof

/-- `N` is the one byte at offset 6 of format FM (R62). -/
def payloadFits (payload : List Byte) : Bool := payload.length ≤ 255

/-- The instruction has an encoding. -/
def Instr.wellFormed : Instr → Bool
  | .readCoils _ _ _ _ => true
  | .readDiscreteInputs _ _ _ _ => true
  | .readHoldingRegisters _ _ _ _ => true
  | .readInputRegisters _ _ _ _ => true
  | .writeSingleCoil _ _ _ _ => true
  | .writeSingleRegister _ _ _ _ => true
  | .writeMultipleCoils _ _ _ payload _ => payloadFits payload
  | .writeMultipleRegisters _ _ _ payload _ => payloadFits payload
  | .lValidate _ _ _ => true
  | .lGet _ _ _ => true
  | .lSet _ _ _ => true
  | .lReset => true
  | .lReadChanged => true
  | .lClearChanged => true
  | .lTakeChanged => true
  | .eIntRead _ => true
  | .eIntCached _ => true
  | .eIntWrite _ _ => true
  | .eBoolRead _ => true
  | .eBoolCached _ => true
  | .eBoolWrite _ _ => true
  | .eFloatRead _ => true
  | .eFloatCached _ => true
  | .eFloatWrite _ _ => true
  | .eArrayRead _ => true
  | .eArrayCached _ => true
  | .eArrayWrite _ _ => true

end Sys2Proof
end

