-- ==== Sys2Proof/Decode.lean ====
section
/-! DEFINITION. Decoding of request frames and local commands, total and rejecting by name, the encoder written from the
same tables (30_encoding.md R60 to R64, R70, R75), and the host's numbering of the opcode table's words (log 20). -/

namespace Sys2Proof

/-- `w[15:8]` (R12). -/
def hiByte (w : Word) : Byte := w.extractLsb' 8 8

/-- `w[7:0]` (R12). -/
def loByte (w : Word) : Byte := w.extractLsb' 0 8

/-- `{h, l}`: the 16-bit value with `h` in the high bits (R11). -/
def joinBytes (h l : Byte) : Word := h ++ l

/-- `be16(w)` (R12). -/
def be16 (w : Word) : List Byte := [hiByte w, loByte w]

/-- `le16(w)` (R12). -/
def le16 (w : Word) : List Byte := [loByte w, hiByte w]

/-- Why a frame or a command record is no instruction. A rejected frame is dropped or answered with code 0x01 by the bus
port (R120, R121); a rejected command is refused by the local port (R75). -/
inductive Reject where
  /-- the frame has fewer than 8 bytes (R103) -/
  | frameTooShort
  /-- the frame has not the length its function code asks for (R64) -/
  | frameWrongLength
  /-- byte 1 is not 1, 2, 3, 4, 5, 6, 15 or 16 (R71) -/
  | unsupportedFunction (fc : Byte)
  /-- the selector is reserved (R75) -/
  | reservedSelector (sel : Byte)
  /-- the operands are not those the selector's row of R75 lists -/
  | operandShape (sel : Byte)
  deriving DecidableEq, Repr

/-- The rows of format FR in the function-code map (R70). -/
def fixedRequest (fc : Byte) (dev : Byte) (addr q crc : Word) : Option Instr :=
  match fc.toNat with
  | 1 => some (.readCoils dev addr q crc)
  | 2 => some (.readDiscreteInputs dev addr q crc)
  | 3 => some (.readHoldingRegisters dev addr q crc)
  | 4 => some (.readInputRegisters dev addr q crc)
  | 5 => some (.writeSingleCoil dev addr q crc)
  | 6 => some (.writeSingleRegister dev addr q crc)
  | _ => none

/-- The rows of format FM in the function-code map (R70). -/
def multiRequest (fc : Byte) (dev : Byte) (addr q : Word) (payload : List Byte) (crc : Word) : Option Instr :=
  match fc.toNat with
  | 15 => some (.writeMultipleCoils dev addr q payload crc)
  | 16 => some (.writeMultipleRegisters dev addr q payload crc)
  | _ => none

/-- Function codes 15 and 16 have format FM (R62). -/
def isMultiCode (fc : Byte) : Bool := fc == 15#8 || fc == 16#8

/-- The function codes of the map of R70. -/
def isSupportedCode (fc : Byte) : Bool :=
  (1 ≤ fc.toNat && fc.toNat ≤ 6) || isMultiCode fc

/-- Decoding of a request frame (R61 to R64, R70): the row is selected by byte 1 alone, and the length the row asks for
is required. The received CRC is a field; whether it is right is an acceptance check, not a matter of decoding
(R103, R120; log 23). -/
def decodeFrame (f : List Byte) : Except Reject Instr :=
  match f with
  | dev :: fc :: a1 :: a0 :: q1 :: q0 :: b6 :: b7 :: rest =>
    if isMultiCode fc then
      let tail := b7 :: rest
      let payload := tail.take b6.toNat
      match tail.drop b6.toNat with
      | [c0, c1] =>
        match multiRequest fc dev (joinBytes a1 a0) (joinBytes q1 q0) payload (joinBytes c1 c0) with
        | some i => .ok i
        | none => .error (.unsupportedFunction fc)
      | _ => .error .frameWrongLength
    else
      match fixedRequest fc dev (joinBytes a1 a0) (joinBytes q1 q0) (joinBytes b7 b6) with
      | some i => if rest = [] then .ok i else .error .frameWrongLength
      | none => .error (.unsupportedFunction fc)
  | _ => .error .frameTooShort

/-- A list of naturals as 16-bit words, where each is one (R76). -/
def wordsOfNats (ns : List Nat) : Option (List Word) :=
  if ns.all (· < 0x10000) then some (ns.map (BitVec.ofNat 16)) else none

/-- Decoding of a command record (R75, R76). -/
def decodeCommand (c : Command) : Except Reject Instr :=
  match c.sel.toNat with
  | 0x01 => match c.operands with
    | [.nat k, .nat a, .nat n] => .ok (.lValidate k a n)
    | _ => .error (.operandShape c.sel)
  | 0x02 => match c.operands with
    | [.nat k, .nat a, .nat n] => .ok (.lGet k a n)
    | _ => .error (.operandShape c.sel)
  | 0x03 => match c.operands with
    | [.nat k, .nat a, .list ns] =>
      match wordsOfNats ns with
      | some ws => .ok (.lSet k a ws)
      | none => .error (.operandShape c.sel)
    | _ => .error (.operandShape c.sel)
  | 0x04 => match c.operands with
    | [] => .ok .lReset
    | _ => .error (.operandShape c.sel)
  | 0x05 => match c.operands with
    | [] => .ok .lReadChanged
    | _ => .error (.operandShape c.sel)
  | 0x06 => match c.operands with
    | [] => .ok .lClearChanged
    | _ => .error (.operandShape c.sel)
  | 0x07 => match c.operands with
    | [] => .ok .lTakeChanged
    | _ => .error (.operandShape c.sel)
  | 0x10 => match c.operands with
    | [.nat e] => .ok (.eIntRead e)
    | _ => .error (.operandShape c.sel)
  | 0x11 => match c.operands with
    | [.nat e] => .ok (.eIntCached e)
    | _ => .error (.operandShape c.sel)
  | 0x12 => match c.operands with
    | [.nat e, v] => .ok (.eIntWrite e v)
    | _ => .error (.operandShape c.sel)
  | 0x14 => match c.operands with
    | [.nat e] => .ok (.eBoolRead e)
    | _ => .error (.operandShape c.sel)
  | 0x15 => match c.operands with
    | [.nat e] => .ok (.eBoolCached e)
    | _ => .error (.operandShape c.sel)
  | 0x16 => match c.operands with
    | [.nat e, v] => .ok (.eBoolWrite e v)
    | _ => .error (.operandShape c.sel)
  | 0x18 => match c.operands with
    | [.nat e] => .ok (.eFloatRead e)
    | _ => .error (.operandShape c.sel)
  | 0x19 => match c.operands with
    | [.nat e] => .ok (.eFloatCached e)
    | _ => .error (.operandShape c.sel)
  | 0x1A => match c.operands with
    | [.nat e, v] => .ok (.eFloatWrite e v)
    | _ => .error (.operandShape c.sel)
  | 0x1C => match c.operands with
    | [.nat e] => .ok (.eArrayRead e)
    | _ => .error (.operandShape c.sel)
  | 0x1D => match c.operands with
    | [.nat e] => .ok (.eArrayCached e)
    | _ => .error (.operandShape c.sel)
  | 0x1E => match c.operands with
    | [.nat e, v] => .ok (.eArrayWrite e v)
    | _ => .error (.operandShape c.sel)
  | _ => .error (.reservedSelector c.sel)

/-- Decoding of what a port receives. -/
def decode : Encoded → Except Reject Instr
  | .frame f => decodeFrame f
  | .command c => decodeCommand c

/-- The six header bytes all request formats share (R61, R62). -/
def headerBytes (dev fc : Byte) (addr q : Word) : List Byte :=
  [dev, fc, hiByte addr, loByte addr, hiByte q, loByte q]

/-- Format FR (R61). -/
def fixedFrame (dev fc : Byte) (addr q crc : Word) : List Byte :=
  headerBytes dev fc addr q ++ le16 crc

/-- Format FM (R62); byte 6 is the payload's length. -/
def multiFrame (dev fc : Byte) (addr q : Word) (payload : List Byte) (crc : Word) : List Byte :=
  headerBytes dev fc addr q ++ [BitVec.ofNat 8 payload.length] ++ payload ++ le16 crc

/-- The encoder: the frame or command record of an instruction (R61, R62, R70, R75). -/
def encode : Instr → Encoded
  | .readCoils dev addr q crc => .frame (fixedFrame dev 1#8 addr q crc)
  | .readDiscreteInputs dev addr q crc => .frame (fixedFrame dev 2#8 addr q crc)
  | .readHoldingRegisters dev addr q crc => .frame (fixedFrame dev 3#8 addr q crc)
  | .readInputRegisters dev addr q crc => .frame (fixedFrame dev 4#8 addr q crc)
  | .writeSingleCoil dev addr q crc => .frame (fixedFrame dev 5#8 addr q crc)
  | .writeSingleRegister dev addr q crc => .frame (fixedFrame dev 6#8 addr q crc)
  | .writeMultipleCoils dev addr q payload crc => .frame (multiFrame dev 15#8 addr q payload crc)
  | .writeMultipleRegisters dev addr q payload crc => .frame (multiFrame dev 16#8 addr q payload crc)
  | .lValidate k a n => .command ⟨0x01#8, [.nat k, .nat a, .nat n]⟩
  | .lGet k a n => .command ⟨0x02#8, [.nat k, .nat a, .nat n]⟩
  | .lSet k a vals => .command ⟨0x03#8, [.nat k, .nat a, .list (vals.map BitVec.toNat)]⟩
  | .lReset => .command ⟨0x04#8, []⟩
  | .lReadChanged => .command ⟨0x05#8, []⟩
  | .lClearChanged => .command ⟨0x06#8, []⟩
  | .lTakeChanged => .command ⟨0x07#8, []⟩
  | .eIntRead e => .command ⟨0x10#8, [.nat e]⟩
  | .eIntCached e => .command ⟨0x11#8, [.nat e]⟩
  | .eIntWrite e v => .command ⟨0x12#8, [.nat e, v]⟩
  | .eBoolRead e => .command ⟨0x14#8, [.nat e]⟩
  | .eBoolCached e => .command ⟨0x15#8, [.nat e]⟩
  | .eBoolWrite e v => .command ⟨0x16#8, [.nat e, v]⟩
  | .eFloatRead e => .command ⟨0x18#8, [.nat e]⟩
  | .eFloatCached e => .command ⟨0x19#8, [.nat e]⟩
  | .eFloatWrite e v => .command ⟨0x1A#8, [.nat e, v]⟩
  | .eArrayRead e => .command ⟨0x1C#8, [.nat e]⟩
  | .eArrayCached e => .command ⟨0x1D#8, [.nat e]⟩
  | .eArrayWrite e v => .command ⟨0x1E#8, [.nat e, v]⟩

/-- The bytes of an instruction's request frame; a local operation has none. -/
def frameBytes (i : Instr) : List Byte :=
  match encode i with
  | .frame f => f
  | .command _ => []

/-! ### The opcode table's words (log 20) -/

/-- The `n` bytes of a number, least significant first: the order in which the table numbers an instruction's bits. -/
def bytesOfNat : Nat → Nat → List Byte
  | 0, _ => []
  | n + 1, w => BitVec.ofNat 8 w :: bytesOfNat n (w / 256)

/-- A frame laid out from its first bytes, the bytes the table gives no bits to being zero, up to the length its
function code and byte count ask for (R64). -/
def padFrame (bytes : List Byte) : List Byte :=
  let len := if isMultiCode (bytes.getD 1 0#8) then 9 + (bytes.getD 6 0#8).toNat else 8
  bytes ++ List.replicate (len - bytes.length) 0#8

/-- The operand record of a selector with every operand zero (R75). -/
def zeroOperands (sel : Byte) : List Value :=
  match sel.toNat with
  | 0x01 => [.nat 0, .nat 0, .nat 0]
  | 0x02 => [.nat 0, .nat 0, .nat 0]
  | 0x03 => [.nat 0, .nat 0, .list []]
  | 0x10 => [.nat 0]
  | 0x11 => [.nat 0]
  | 0x12 => [.nat 0, .nat 0]
  | 0x14 => [.nat 0]
  | 0x15 => [.nat 0]
  | 0x16 => [.nat 0, .bool false]
  | 0x18 => [.nat 0]
  | 0x19 => [.nat 0]
  | 0x1A => [.nat 0, .float 0#32]
  | 0x1C => [.nat 0]
  | 0x1D => [.nat 0]
  | 0x1E => [.nat 0, .list []]
  | _ => []

/-- The selectors of R75. -/
def localSelectors : List Nat :=
  [0x01, 0x02, 0x03, 0x04, 0x05, 0x06, 0x07, 0x10, 0x11, 0x12, 0x14, 0x15, 0x16, 0x18, 0x19, 0x1A, 0x1C, 0x1D, 0x1E]

/-- What the port receives for a word of the opcode table (log 20). A row of one byte is a local selector with zero
operands, or, where no local row has that byte, a function code with zero fields. A longer row is a frame, its first
byte in bits 7 to 0; a word with no bit above bit 7 names its function code there, as the table's own "fixed" entries do
when byte 1 of the word is no function code of R70. -/
def tableEncoded (nbits w : Nat) : Encoded :=
  let b0 : Byte := BitVec.ofNat 8 w
  let b1 : Byte := BitVec.ofNat 8 (w / 256)
  if nbits ≤ 8 then
    if localSelectors.contains b0.toNat || !isSupportedCode b0 then .command ⟨b0, zeroOperands b0⟩
    else .frame (padFrame [0#8, b0])
  else if !isSupportedCode b1 && isSupportedCode b0 && w < 256 then .frame (padFrame [0#8, b0])
  else .frame (padFrame (bytesOfNat ((nbits + 7) / 8) w))

/-- The instruction the decoder reads from a word of the opcode table. -/
def decodeTableWord (nbits w : Nat) : Option Instr :=
  match decode (tableEncoded nbits w) with
  | .ok i => some i
  | .error _ => none

end Sys2Proof
end

