-- ==== Sys2Proof/Machine/Codec.lean ====
section
/-! DEFINITION. The CRC-16 generator and wire codec (40_crc_codec.md R100 to R110) and the response serializers
(30_encoding.md R66 to R69, 41_frame_requests.md R132). All are pure functions. -/

namespace Sys2Proof.Machine

/-! ### CRC-16 -/

/-- One of the eight rounds of R100. -/
def crcRound (c : Word) : Word :=
  if c.getLsbD 0 then (c >>> 1) ^^^ 0xA001#16 else c >>> 1

/-- `n` rounds (R100). -/
def crcRounds : Nat → Word → Word
  | 0, c => c
  | n + 1, c => crcRounds n (crcRound c)

/-- The update of the CRC by one byte (R100). -/
def crcByte (c : Word) (b : Byte) : Word := crcRounds 8 (c ^^^ b.setWidth 16)

/-- `CRC16(L)` (R100). -/
def crc16 (bytes : List Byte) : Word := bytes.foldl crcByte 0xFFFF#16

/-- `AppendCrc(body)` (R102). -/
def appendCrc (body : List Byte) : List Byte := body ++ le16 (crc16 body)

/-- The CRC of all bytes but the last two equals the little-endian value of those two (R65). -/
def crcMatches (f : List Byte) : Bool :=
  match f.drop (f.length - 2) with
  | [c0, c1] => crc16 (f.take (f.length - 2)) == joinBytes c1 c0
  | _ => false

/-- `FrameCheck(f)` for a request frame (R103). -/
def frameCheck (f : List Byte) : Bool := decide (8 ≤ f.length) && crcMatches f

/-- `ResponseCrcOk(f)` for a response (R104); the 8-byte minimum of R103 does not apply (C5). -/
def responseCrcOk (f : List Byte) : Bool := decide (2 ≤ f.length) && crcMatches f

/-! ### Register and bit packing -/

/-- `PackWords` (R105). -/
def packWords : List Word → List Byte
  | [] => []
  | w :: ws => be16 w ++ packWords ws

/-- `UnpackWords` (R105); it is used on even lengths only. -/
def unpackWords : List Byte → List Word
  | h :: l :: rest => joinBytes h l :: unpackWords rest
  | _ => []

/-- The number whose bit `j` is element `j` of the list. -/
def natOfBits : List Bool → Nat
  | [] => 0
  | b :: bs => b.toNat + 2 * natOfBits bs

/-- `ceil(n / 8)` (R11). -/
def ceilDiv8 (n : Nat) : Nat := (n + 7) / 8

/-- `PackBits` (R106): eight bits a byte, the first in bit 0, unused high bits 0. -/
def packBits (bs : List Bool) : List Byte :=
  (List.range (ceilDiv8 bs.length)).map fun i => BitVec.ofNat 8 (natOfBits ((bs.drop (8 * i)).take 8))

/-- `UnpackBits(L, q)` (R107). -/
def unpackBits (bytes : List Byte) (q : Nat) : List Bool :=
  (List.range q).map fun k => (bytes.getD (k / 8) 0#8).getLsbD (k % 8)

/-! ### Float and Boolean views -/

/-- `FloatToWords` (R108): the high word first. -/
def floatToWords (u : Bits32) : List Word := [u.extractLsb' 16 16, u.extractLsb' 0 16]

/-- `WordsToFloat` (R109), as an encoding. -/
def wordsToFloat (w0 w1 : Word) : Bits32 := w0 ++ w1

/-- `Truth(w)` (R110). -/
def truth (w : Word) : Bool := w != 0#16

/-- `FromBool(b)` (R110). -/
def fromBool (b : Bool) : Word := if b then 1#16 else 0#16

/-! ### Exception codes and responses -/

/-- The exception codes the document lists (R72, with 0x09 as found, C9). The block emits the first three only (R223). -/
inductive ExceptionCode where
  | illegalFunction
  | illegalDataAddress
  | illegalDataValue
  | slaveDeviceFailure
  | acknowledge
  | slaveDeviceBusy
  | negativeAcknowledge
  | memoryParityError
  | gatewayPathUnavailable
  | gatewayTargetFailedToRespond
  deriving DecidableEq, Repr

/-- The code byte (R72). -/
def exceptionByte : ExceptionCode → Byte
  | .illegalFunction => 0x01#8
  | .illegalDataAddress => 0x02#8
  | .illegalDataValue => 0x03#8
  | .slaveDeviceFailure => 0x04#8
  | .acknowledge => 0x05#8
  | .slaveDeviceBusy => 0x06#8
  | .negativeAcknowledge => 0x07#8
  | .memoryParityError => 0x09#8
  | .gatewayPathUnavailable => 0x0A#8
  | .gatewayTargetFailedToRespond => 0x0B#8

/-- `ErrorFrame(dev, fc, code)` (R68, R132). -/
def errorFrame (dev fc : Byte) (code : ExceptionCode) : List Byte :=
  appendCrc [dev, fc ||| 0x80#8, exceptionByte code]

/-- The response of a successful read (R66). -/
def readResponse (dev fc : Byte) (data : List Byte) : List Byte :=
  appendCrc ([dev, fc, BitVec.ofNat 8 data.length] ++ data)

/-- The response of a successful write: the address and one more word, the echo (R67) or the count (R69). -/
def writeResponse (dev fc : Byte) (addr e : Word) : List Byte :=
  appendCrc ([dev, fc] ++ be16 addr ++ be16 e)

/-- `Echo5` (R128): the data word of the function-code-5 response, from the read-back word and the request's data. -/
def echo5 (form : CoilEcho) (w q : Word) : Word :=
  match form with
  | .std => if truth w then 0xFF00#16 else 0x0000#16
  | .raw => q
  | .word => w

end Sys2Proof.Machine
end

