-- ==== Sys2Proof/Machine/Store.lean ====
section
/-! DEFINITION. The register store: class maps in one canonical form, and the store primitives (20_memory.md R40 to R48).
Each primitive is one atomic store operation (R49). -/

namespace Sys2Proof.Machine

/-- A class map `st[k]` (R23): the keys it holds, strictly rising, each with its word. A key not listed holds nothing. -/
abbrev ClassMap := List (Nat × Word)

/-- All class maps, indexed by class identifier: CO 0, DI 1, HR 2, IR 3, then the extra classes (R22, D25). -/
abbrev Memory := List ClassMap

/-- The register store: its class maps and the store-wide changed flag (R22, R24). -/
structure Store where
  mem : Memory
  changed : Bool
  deriving DecidableEq, Repr

/-- The word at a key, if the map holds the key (R23). -/
def ClassMap.find (m : ClassMap) (key : Nat) : Option Word :=
  match m with
  | [] => none
  | (k, w) :: rest => if k = key then some w else ClassMap.find rest key

/-- The map with a word at a key, the key added in its place if it was absent (R45). -/
def ClassMap.insert (m : ClassMap) (key : Nat) (w : Word) : ClassMap :=
  match m with
  | [] => [(key, w)]
  | (k, v) :: rest =>
    if key < k then (key, w) :: (k, v) :: rest
    else if k = key then (key, w) :: rest
    else (k, v) :: ClassMap.insert rest key w

/-- Every key of the map lies above `low`, and the keys rise strictly. -/
def ClassMap.risesFrom (m : ClassMap) (low : Nat) : Bool :=
  match m with
  | [] => true
  | (k, _) :: rest => decide (low ≤ k) && ClassMap.risesFrom rest (k + 1)

/-- The canonical form: strictly rising keys, so that equal maps are equal data. -/
def ClassMap.wf (m : ClassMap) : Bool := ClassMap.risesFrom m 0

/-- The canonical form of every class map. -/
def Memory.wf (mem : Memory) : Bool := mem.all ClassMap.wf

/-- The map a snapshot of the configuration describes (R9). Two words for one key do not occur in a finite map; the later
one stands (log 13). -/
def ClassMap.ofSnapshot (pairs : List (Nat × Nat)) : ClassMap :=
  pairs.foldl (fun m p => ClassMap.insert m p.1 (BitVec.ofNat 16 p.2)) []

/-- The words from `key` on, `n` of them in ascending key order, if the map holds every one of the keys. -/
def ClassMap.readCells (m : ClassMap) (key : Nat) : Nat → Option (List Word)
  | 0 => some []
  | n + 1 =>
    match ClassMap.find m key, ClassMap.readCells m (key + 1) n with
    | some w, some ws => some (w :: ws)
    | _, _ => none

/-- The map with the words of a list from `key` on. -/
def ClassMap.writeCells (m : ClassMap) (key : Nat) : List Word → ClassMap
  | [] => m
  | w :: ws => ClassMap.writeCells (ClassMap.insert m key w) (key + 1) ws

/-- The map holds each of the `n` keys from `key` on. -/
def ClassMap.holds (m : ClassMap) (key n : Nat) : Bool :=
  (List.range n).all fun i => (ClassMap.find m (key + i)).isSome

/-- The classes of a configuration, in the order of their identifiers (R22). -/
def classesOf (cfg : Config) : List ClassCfg :=
  [cfg.co, cfg.di, cfg.hr, cfg.ir] ++ cfg.extra.map ExtraClass.cls

/-- The class map `st[k]`; a class that does not exist holds no key. -/
def Store.map (st : Store) (k : Nat) : ClassMap := st.mem.getD k []

/-- `MUTABLE[k]` (R9). -/
def growable (cfg : Config) (k : Nat) : Bool :=
  match (classesOf cfg)[k]? with
  | some c => c.growable
  | none => false

/-- `key(a)`: the key of an external address (R41, R42). -/
def keyOf (cfg : Config) (a : Nat) : Nat := a + cfg.addrOffset

/-- The snapshots of every class: `INIT` (R9, R29). -/
def snapshotMemory (cfg : Config) : Memory :=
  (classesOf cfg).map fun c => ClassMap.ofSnapshot c.snapshot

/-- `StoreValidate(k, a, n)` (R43). -/
def storeValidate (cfg : Config) (st : Store) (k a n : Nat) : Bool :=
  n != 0 && ClassMap.holds (st.map k) (keyOf cfg a) n

/-- `StoreGet(k, a, n)` (R44); `none` is `INVALID`. -/
def storeGet (cfg : Config) (st : Store) (k a n : Nat) : Option (List Word) :=
  if storeValidate cfg st k a n then ClassMap.readCells (st.map k) (keyOf cfg a) n else none

/-- Some key of the write is new and the class may not grow: the check `StoreSet` makes first (R45). -/
def setRefused (cfg : Config) (st : Store) (k a m : Nat) : Bool :=
  !(ClassMap.holds (st.map k) (keyOf cfg a) m || growable cfg k)

/-- `StoreSet(k, a, vals)` (R45); `none` is the fault PARAM_ERROR, with nothing written. -/
def storeSet (cfg : Config) (st : Store) (k a : Nat) (vals : List Word) : Option Store :=
  if setRefused cfg st k a vals.length then none
  else some
    { mem := st.mem.set k (ClassMap.writeCells (st.map k) (keyOf cfg a) vals)
      changed := st.changed || !vals.isEmpty }

/-- `StoreReset()` (R46): every class back to its snapshot, `changed` left as it was. -/
def storeReset (cfg : Config) (st : Store) : Store := { st with mem := snapshotMemory cfg }

/-- `StoreIsEmpty(k)` (R47). -/
def storeIsEmpty (st : Store) (k : Nat) : Bool := (st.map k).isEmpty

end Sys2Proof.Machine
end

