-- ==== Sys2Proof/Machine/Flags.lean ====
section
/-! DEFINITION. The block's only flag, `changed` (10_state.md R24), and its primitives (20_memory.md R48). `StoreSet` sets
it (R45); nothing but these three primitives reads or clears it. -/

namespace Sys2Proof.Machine

/-- `ChangedRead()` (R48). -/
def changedRead (st : Store) : Bool := st.changed

/-- `ChangedClear()` (R48). -/
def changedClear (st : Store) : Store := { st with changed := false }

/-- `ChangedTake()` (R48): the old value and the store with the flag cleared, in one operation. -/
def changedTake (st : Store) : Bool × Store := (st.changed, { st with changed := false })

end Sys2Proof.Machine
end

