-- ==== Sys2Proof/Machine/Float.lean ====
section
/-! DEFINITION. Widening of binary32 to binary64 and decimal rounding (43_entities.md R182, R188), in exact integer
arithmetic on the encodings. -/

namespace Sys2Proof.Machine

/-- The sign bit of a binary32 encoding. -/
def sign32 (u : Bits32) : Bool := u.getLsbD 31

/-- The biased exponent of a binary32 encoding. -/
def exp32 (u : Bits32) : Nat := (u.extractLsb' 23 8).toNat

/-- The fraction of a binary32 encoding. -/
def frac32 (u : Bits32) : Nat := (u.extractLsb' 0 23).toNat

/-- The encoding is of a NaN (R15). -/
def isNaN32 (u : Bits32) : Bool := exp32 u == 255 && frac32 u != 0

/-- The encoding is of an infinity (R15). -/
def isInf32 (u : Bits32) : Bool := exp32 u == 255 && frac32 u == 0

/-- The encoding is of a finite value. -/
def isFinite32 (u : Bits32) : Bool := exp32 u != 255

/-- The integer significand of a finite binary32 value: its magnitude is `significand32 u * 2 ^ (scale32 u - 149)`. -/
def significand32 (u : Bits32) : Nat := if exp32 u = 0 then frac32 u else frac32 u + 2 ^ 23

/-- The exponent of the significand, counted from the least one, -149. -/
def scale32 (u : Bits32) : Nat := exp32 u - 1

/-- A binary64 encoding from its sign and the 63 bits below it. -/
def withSign64 (neg : Bool) (magnitude : Nat) : Bits64 :=
  BitVec.ofNat 64 ((if neg then 2 ^ 63 else 0) + magnitude)

/-- The 63 bits of a binary64 infinity below its sign. -/
def infinity64 : Nat := 0x7FF * 2 ^ 52

/-- `RoundHalfEven(num / den)`: the nearest integer, ties to the even one (R188). -/
def roundHalfEven (num den : Nat) : Nat :=
  let q := num / den
  let r := num % den
  if 2 * r < den then q else if den < 2 * r then q + 1 else q + q % 2

/-- `floor(log2(num / den))` for positive numbers, offset by 2000 so that it is a natural number. -/
def log2Ratio (num den : Nat) : Nat :=
  let a := Nat.log2 num
  let b := Nat.log2 den
  if den * 2 ^ a ≤ num * 2 ^ b then 2000 + a - b else 2000 + a - b - 1

/-- The 63 low bits of the binary64 value nearest the rational `num / den`, ties to even, for `den` positive (R188).
The quantum is 2 ^ (t - 1074), where t is 52 below the exponent of the rational, and 0 for a subnormal result; a
significand that rounds up to 2 ^ 53 carries into the exponent field. A magnitude beyond the largest finite one rounds to
infinity. -/
def nearest64 (num den : Nat) : Nat :=
  if num = 0 then 0
  else
    let t := log2Ratio num den - (2000 - 1022)
    let mant := roundHalfEven (num * 2 ^ 1074) (den * 2 ^ t)
    min (t * 2 ^ 52 + mant) infinity64

/-- `widen64` of a binary32 value that is no NaN (R188): exact. -/
def widen64 (u : Bits32) : Bits64 :=
  if isInf32 u then withSign64 (sign32 u) infinity64
  else withSign64 (sign32 u) (nearest64 (significand32 u * 2 ^ scale32 u) (2 ^ 149))

/-- `RoundDec(x, p)` of a binary32 value that is no NaN, for `p >= 1` (R188). -/
def roundDec (u : Bits32) (p : Nat) : Bits64 :=
  if isInf32 u then withSign64 (sign32 u) infinity64
  else
    let n := roundHalfEven (significand32 u * 2 ^ scale32 u * 10 ^ p) (2 ^ 149)
    withSign64 (sign32 u) (nearest64 n (10 ^ p))

/-- `FloatOut(x, p)` of a binary32 value that is no NaN (R182). -/
def floatOut (u : Bits32) (p : Int) : Bits64 :=
  if 0 < p then roundDec u p.toNat else widen64 u

/-- A binary64 NaN whose sign is bit 52 and whose payload is bits 51 to 0 of `v`. A payload of 0 would encode an
infinity, so it is read as 1: every NaN is the image of some `v`. -/
def nan64 (v : BitVec 53) : Bits64 :=
  let payload := (v.extractLsb' 0 52).toNat
  withSign64 (v.getLsbD 52) (infinity64 + (if payload = 0 then 1 else payload))

end Sys2Proof.Machine
end

