-- ==== Sys2Proof/Machine/Operands.lean ====
section
/-! DEFINITION. The operand forms of the local port: classes, entities, and the representation of values
(30_encoding.md R76, 43_entities.md R171, R173, R175). -/

namespace Sys2Proof.Machine

/-- A cached last-known value (10_state.md R26): a word for INT and BOOL, a binary32 encoding for FLOAT, a list of words
for ARRAY. -/
inductive Cache where
  | word (w : Word)
  | float (u : Bits32)
  | words (ws : List Word)
  deriving DecidableEq, Repr

/-- The class identifier exists (R22, R76). -/
def classExists (cfg : Config) (k : Nat) : Bool := k < (classesOf cfg).length

/-- `W(e)` (R171). -/
def widthOf (d : EntityDesc) : Nat :=
  match d.variant with
  | .int => 1
  | .bool => 1
  | .float => 2
  | .array => d.len

/-- `Repr(e, v)` (R175), where `v` has the representation R173 asks of the variant; `none` where it has not. -/
def reprOf (d : EntityDesc) (v : Value) : Option Cache :=
  match d.variant, v with
  | .int, .nat n => if n < 0x10000 then some (.word (BitVec.ofNat 16 n)) else none
  | .bool, .bool b => some (.word (fromBool b))
  | .float, .float u => some (.float u)
  | .array, .list ns => if ns.length = d.len then (wordsOfNats ns).map .words else none
  | _, _ => none

/-- `Words(e, c)` (R175). -/
def cacheWords : Cache → List Word
  | .word w => [w]
  | .float u => floatToWords u
  | .words ws => ws

/-- The cache has the form its entity's variant gives it (R26). -/
def cacheFits (d : EntityDesc) (c : Cache) : Bool :=
  match d.variant, c with
  | .int, .word _ => true
  | .bool, .word _ => true
  | .float, .float _ => true
  | .array, .words ws => ws.length == d.len
  | _, _ => false

end Sys2Proof.Machine
end

