-- ==== Sys2Proof/Machine/Boot.lean ====
section
/-! DEFINITION. Power-on (70_reset_and_hazards.md R240 to R243): which configurations are well formed, the registration
of extra classes (42_store_port.md R158), and the construction of the entities (43_entities.md R172 to R174). -/

namespace Sys2Proof.Machine

/-- The reasons of a configuration fault (60_exceptions.md R226): the values of the fault register other than NONE. -/
inductive FaultReason where
  /-- a write to a new key of an immutable class (R45) -/
  | paramError
  /-- a local get of a range not wholly present (R152, R176 to R185) -/
  | getInvalid
  /-- an entity's range is not in the store at construction (R172) -/
  | addressError
  /-- a value lacks the variant's representation, or an operation is for another variant (R173, R175) -/
  | typeError
  deriving DecidableEq, Repr

/-- A snapshot is a finite map of 16-bit words (R9, R243): its keys rise strictly from `low` and no word exceeds
0xFFFF. -/
def snapshotOk (low : Nat) : List (Nat × Nat) → Bool
  | [] => true
  | (k, w) :: rest => decide (low ≤ k) && decide (w < 0x10000) && snapshotOk (k + 1) rest

/-- The check `Register` makes of one entry, with the labels of the classes that exist already (R158). -/
def extraOk (labels : List Nat) (x : ExtraClass) : Bool :=
  !isSupportedCode (BitVec.ofNat 8 x.code) && decide (x.code < 256) && !labels.contains x.label && snapshotOk 0 x.cls.snapshot

/-- `Register` for each entry of `EXTRA`, in order (R158). -/
def extrasOk (labels : List Nat) : List ExtraClass → Bool
  | [] => true
  | x :: rest => extraOk labels x && extrasOk (x.label :: labels) rest

/-- The configuration is one the block is built from (R243): the offset is 0 or 1, no word of a snapshot exceeds 16
bits, and every entry of `EXTRA` can be registered. -/
def configOk (cfg : Config) : Bool :=
  decide (cfg.addrOffset ≤ 1) && snapshotOk 0 cfg.co.snapshot && snapshotOk 0 cfg.di.snapshot &&
    snapshotOk 0 cfg.hr.snapshot && snapshotOk 0 cfg.ir.snapshot && extrasOk [0, 1, 2, 3] cfg.extra

/-- What power-on builds: the store, the caches of the entities constructed so far, and the fault register. -/
structure Boot where
  store : Store
  caches : List Cache
  fault : Option FaultReason
  deriving DecidableEq, Repr

/-- Steps 1 to 3 of R240: every class, the extra ones included, at its snapshot; `changed` 0; no fault; no entity yet. -/
def bootStart (cfg : Config) : Boot :=
  { store := { mem := snapshotMemory cfg, changed := false }, caches := [], fault := none }

/-- Step 4 of R240 for one entity: the address check (R172), the type check (R173), the cache and the initial write
(R174). The first failing check ends the construction (log 17). -/
def constructEntity (cfg : Config) (b : Boot) (d : EntityDesc) : Boot :=
  match b.fault with
  | some _ => b
  | none =>
    if !storeValidate cfg b.store d.cls d.addr (widthOf d) then { b with fault := some .addressError }
    else
      match reprOf d d.initial with
      | none => { b with fault := some .typeError }
      | some c =>
        match cfg.entityInit with
        | .cacheOnly => { b with caches := b.caches ++ [c] }
        | .writeThrough =>
          match storeSet cfg b.store d.cls d.addr (cacheWords c) with
          | none => { b with fault := some .paramError }
          | some st => { b with store := st, caches := b.caches ++ [c] }

/-- R240 steps 1 to 4. -/
def boot (cfg : Config) : Boot := cfg.entities.foldl (constructEntity cfg) (bootStart cfg)

end Sys2Proof.Machine
end

