-- ==== Sys2Proof/Machine/State.lean ====
section
/-! DEFINITION. The state of the block (10_state.md R31), the ports and environment the model adds to it (INVENTORY.md
'## State'), the reasons a step can stop, and the state after power-on (70_reset_and_hazards.md R240). -/

namespace Sys2Proof.Machine

/-- The atomic store operations a request is made of (10_state.md R27, 41_frame_requests.md R135): `BUSY(req, stage)`
names the next one. -/
inductive Stage where
  /-- `StoreIsEmpty`, the class guard (R122) -/
  | guard
  /-- `StoreValidate` (R124 to R131) -/
  | validate
  /-- `StoreSet` (R128 to R131) -/
  | set
  /-- `StoreGet` (R124 to R129) -/
  | get
  deriving DecidableEq, Repr

/-- `bus_state` (R27). The request is held as the instruction its frame encodes; `encode` gives the frame back. -/
inductive BusState where
  | idle
  | busy (req : Instr) (stage : Stage)
  deriving DecidableEq, Repr

/-- The two agents that use the block (R28, R232). -/
inductive Agent where
  | busAgent
  | localAgent
  deriving DecidableEq, Repr

/-- What a local operation returns to the local agent (R150). -/
inductive LocalResult where
  /-- a Boolean: L_VALIDATE, L_READ_CHANGED, L_TAKE_CHANGED, E_BOOL_READ, E_BOOL_CACHED -/
  | bool (b : Bool)
  /-- a word: E_INT_READ, E_INT_CACHED -/
  | word (w : Word)
  /-- a word list: L_GET, E_ARRAY_READ, E_ARRAY_CACHED -/
  | words (ws : List Word)
  /-- a binary64 value: E_FLOAT_READ, E_FLOAT_CACHED -/
  | float (y : Bits64)
  /-- L_SET's `OK` -/
  | ok
  /-- an entity write's `CHANGED` -/
  | changed
  /-- an entity write's `UNCHANGED` -/
  | unchanged
  /-- the operation has no result: L_RESET, L_CLEAR_CHANGED (log 21) -/
  | done
  deriving DecidableEq, Repr

/-- Why the machine stops. -/
inductive Fault where
  /-- The block was stopped for good by a configuration fault and performs no further operation (R226, 93 I13). Raised by
  every step and by every meaning in a state whose fault register is not NONE; stuck, as the spec says; safe. -/
  | stopped (r : FaultReason)
  deriving DecidableEq, Repr

/-- Why an operation has no meaning. -/
inductive Refusal where
  /-- The instruction of this mnemonic has no meaning in the model yet. Raised by exec's arms only; safe. -/
  | notModelled (mnemonic : String)
  /-- A reserved selector (R75, 93 I15). Raised by the local agent's turn; the spec refuses it; safe. -/
  | reservedSelector (sel : Byte)
  /-- The operand record is not one the selector's row lists (R75, log 9). Raised by the local agent's turn; safe. -/
  | operandShape (sel : Byte)
  /-- The class identifier does not exist (R76, 93 I15). Raised by L_VALIDATE, L_GET, L_SET; the spec refuses it; safe. -/
  | absentClass (k : Nat)
  /-- The entity index does not exist (R76, 93 I15). Raised by the entity operations; the spec refuses it; safe. -/
  | absentEntity (e : Nat)
  /-- The bus state names a stage that the request in flight does not have. Raised by the meanings of the requests, in
  states no run reaches (log 7); safe. -/
  | stageOutsideRequest
  deriving DecidableEq, Repr

/-- The state of the block and of its ports. -/
structure State where
  /-- the configuration, a parameter that no step changes (R29; log 1) -/
  cfg : Config
  /-- the register store: `st` and `changed` (R22 to R24) -/
  store : Store
  /-- the fault register; `none` is NONE (R25) -/
  fault : Option FaultReason
  /-- `cache[e]`, by entity index (R26) -/
  caches : List Cache
  /-- `bus_state` (R27) -/
  bus : BusState
  /-- frames handed to the bus port and not taken yet, oldest first (log 4) -/
  busIn : List (List Byte)
  /-- frames emitted, oldest first (log 4) -/
  busOut : List (List Byte)
  /-- command records handed to the local port and not performed yet, oldest first (log 4) -/
  localIn : List Command
  /-- results returned to the local agent, oldest first (log 4) -/
  localOut : List LocalResult
  /-- chunks of bytes waiting on the serial link, oldest first (R201, R209; log 18) -/
  lineIn : List (List Byte)
  /-- the transport's pending byte buffer (R200; log 18) -/
  lineBuf : List Byte
  /-- which agent takes the next turns (R50; log 3) -/
  sched : List Agent
  /-- how many NaNs have been drawn: the free value of the next is `Config.freeNaN` of it (93 I19; log 10) -/
  nanDraws : Nat
  deriving DecidableEq, Repr

/-- The state power-on leaves for a configuration (R240), with the ports empty (log 4). -/
def State.powerOn (cfg : Config) : State :=
  { cfg := cfg
    store := (boot cfg).store
    fault := (boot cfg).fault
    caches := (boot cfg).caches
    bus := .idle
    busIn := []
    busOut := []
    localIn := []
    localOut := []
    lineIn := []
    lineBuf := []
    sched := []
    nanDraws := 0 }

/-- No block is built from an ill-formed configuration (R243, log 14). -/
def State.build (cfg : Config) : Option State := if configOk cfg then some (State.powerOn cfg) else none

/-- A power cycle: every part of the state is lost and the block is built again from the same configuration (R244). -/
def State.powerCycle (s : State) : State := State.powerOn s.cfg

/-- The state after reset: power-on from the spec's configuration EX-B (log 2). -/
def State.reset : State := State.powerOn Config.exB

end Sys2Proof.Machine
end

