-- ==== Sys2Proof/Machine/Ops.lean ====
section
/-! DEFINITION. The named operations the meanings are written over: running only without a fault, raising a configuration
fault, delivering a local result, the operand lookups of the local port, emitting a response, and the acceptance and the
stages of a request frame (41_frame_requests.md R120 to R136, 60_exceptions.md R226). -/

namespace Sys2Proof.Machine

/-- The outcome of a step. -/
abbrev Result := Host.Outcome State Fault Refusal

/-! ### Updates of the state -/

/-- `fault <- reason` (R226). -/
def State.withFault (s : State) (r : FaultReason) : State := { s with fault := some r }

/-- The store after a primitive of the agent that moves (R49). -/
def State.withStore (s : State) (st : Store) : State := { s with store := st }

/-- `bus_state <- b` (R27). -/
def State.withBus (s : State) (b : BusState) : State := { s with bus := b }

/-- A frame is emitted and the bus agent returns to IDLE (R13 `respond`, R135). -/
def State.emit (s : State) (f : List Byte) : State := { s with busOut := s.busOut ++ [f], bus := .idle }

/-- A frame arrives at the bus port behind those that wait there (R225). -/
def State.arrive (s : State) (f : List Byte) : State := { s with busIn := s.busIn ++ [f] }

/-- A result is returned to the local agent (R150). -/
def State.result (s : State) (r : LocalResult) : State := { s with localOut := s.localOut ++ [r] }

/-- `cache[e] <- c` (R26). -/
def State.setCache (s : State) (e : Nat) (c : Cache) : State := { s with caches := s.caches.set e c }

/-- One more free NaN is drawn (93 I19, log 10). -/
def State.drawNaN (s : State) : State := { s with nanDraws := s.nanDraws + 1 }

/-! ### Faults -/

/-- Neither port performs any operation once `fault` is not NONE (R226, R150). -/
def running (s : State) (next : Result) : Result :=
  match s.fault with
  | none => next
  | some r => .fault (.stopped r)

/-- `raise Fault(reason)` (R13, R226): the fault register takes the reason, and nothing else changes. There is no saved
state, no handler and no return (R224, R225). -/
def raiseFault (r : FaultReason) (s : State) : Result := .next (s.withFault r)

/-! ### The local port -/

/-- The operation returns a result to the local agent (R150). -/
def deliver (r : LocalResult) (s : State) : Result := .next (s.result r)

/-- A class operand: an absent class identifier is refused (R76). -/
def withClass (k : Nat) (s : State) (next : Result) : Result :=
  if classExists s.cfg k then next else .refused (.absentClass k)

/-- An entity operand: an absent index is refused (R76), and an operation for another variant raises TYPE_ERROR (R175). -/
def withEntity (v : Variant) (e : Nat) (s : State) (next : EntityDesc → Result) : Result :=
  match s.cfg.entities[e]? with
  | none => .refused (.absentEntity e)
  | some d => if d.variant = v then next d else raiseFault .typeError s

/-- The read of an entity's cells (R176, R179, R182, R185): one `StoreGet` of `W(e)` words; `INVALID` raises
GET_INVALID. -/
def entityFetch (v : Variant) (e : Nat) (s : State) (next : EntityDesc → List Word → Result) : Result :=
  running s <| withEntity v e s fun d =>
    match storeGet s.cfg s.store d.cls d.addr (widthOf d) with
    | none => raiseFault .getInvalid s
    | some ws => next d ws

/-- The cached value of an entity (R177, R180, R183, R186); no store access. -/
def entityCached (v : Variant) (e : Nat) (s : State) (next : EntityDesc → Cache → Result) : Result :=
  running s <| withEntity v e s fun d =>
    match s.caches[e]? with
    | none => .refused (.absentEntity e)
    | some c => next d c

/-- The write of an entity (R178, R181, R184, R187): a value without the variant's representation raises TYPE_ERROR
(R175), a value equal to the cache is suppressed (R189), any other is stored and cached. -/
def entityWrite (v : Variant) (e : Nat) (val : Value) (s : State) : Result :=
  running s <| withEntity v e s fun d =>
    match reprOf d val with
    | none => raiseFault .typeError s
    | some c =>
      if s.caches[e]? = some c then deliver .unchanged s
      else
        match storeSet s.cfg s.store d.cls d.addr (cacheWords c) with
        | none => raiseFault .paramError s
        | some st => deliver .changed ((s.withStore st).setCache e c)

/-- A float result (R182, R183): `FloatOut(f32(u), p)`, and for a NaN a binary64 NaN whose sign and payload are the free
value of 93 I19 (log 10). -/
def deliverFloat (u : Bits32) (p : Int) (s : State) : Result :=
  if isNaN32 u then
    deliver (.float (nan64 (Config.freeNaN s.nanDraws))) s.drawNaN
  else deliver (.float (floatOut u p)) s

/-! ### The bus port -/

/-- `respond(L)` (R13): the frame is emitted and the bus agent returns to IDLE (R135). -/
def respond (f : List Byte) (s : State) : Result := .next (s.emit f)

/-- `drop` (R13): the request ends with no output (R120, R138). -/
def dropRequest (s : State) : Result := .next (s.withBus .idle)

/-- `bus_state <- BUSY(req, stage)` (R135). -/
def enterStage (i : Instr) (stage : Stage) (s : State) : Result := .next (s.withBus (.busy i stage))

/-- The length a request frame must have (R64). -/
def expectedLength (f : List Byte) : Nat :=
  if isMultiCode (f.getD 1 0#8) then 9 + (f.getD 6 0#8).toNat else 8

/-- The acceptance checks of `Process(f)` (R120). -/
def accepts (cfg : Config) (f : List Byte) : Bool :=
  decide (8 ≤ f.length) && f.head? == some cfg.devAddr && f.length == expectedLength f && frameCheck f

/-- What the bus agent does with a frame that encodes no instruction of R70: it is dropped, or, when it passes the
acceptance checks, answered with code 0x01 (R120, R121). -/
def processUnsupported (f : List Byte) (s : State) : Result :=
  running s <|
    if accepts s.cfg f then respond (errorFrame (f.getD 0 0#8) (f.getD 1 0#8) .illegalFunction) s
    else dropRequest s

/-- One step of a request (R135). From IDLE the bus agent takes the frame: it is dropped, or the request is in flight with
the class guard as its next store operation (log 5). In flight, the next store operation is performed. A frame that
arrives while another request is in flight waits until that one ends (R225, log 6). -/
def onBus (i : Instr) (s : State) (perform : Stage → Result) : Result :=
  running s <|
    match s.bus with
    | .idle => if accepts s.cfg (frameBytes i) then enterStage i .guard s else dropRequest s
    | .busy req stage => if req = i then perform stage else .next (s.arrive (frameBytes i))

/-- The class guard (R122), then the quantity or byte-count check, which is pure work (R135, R136): 0x02 for an empty
class, then 0x03 for a bad quantity. -/
def guardStage (i : Instr) (k : Nat) (dev fc : Byte) (quantityOk : Bool) (s : State) : Result :=
  if storeIsEmpty s.store k then respond (errorFrame dev fc .illegalDataAddress) s
  else if quantityOk then enterStage i .validate s
  else respond (errorFrame dev fc .illegalDataValue) s

/-- Range validation (R124 to R131): 0x02 when it fails. -/
def validateStage (i : Instr) (k : Nat) (dev fc : Byte) (addr : Word) (n : Nat) (following : Stage) (s : State) :
    Result :=
  if storeValidate s.cfg s.store k addr.toNat n then enterStage i following s
  else respond (errorFrame dev fc .illegalDataAddress) s

/-- The request's `StoreSet` (R128 to R131). -/
def setStage (k : Nat) (addr : Word) (vals : List Word) (s : State) (next : State → Result) : Result :=
  match storeSet s.cfg s.store k addr.toNat vals with
  | none => raiseFault .paramError s
  | some st => next (s.withStore st)

/-- The request's `StoreGet` (R124 to R129): `INVALID` is answered with 0x02 (R134). -/
def getStage (k : Nat) (dev fc : Byte) (addr : Word) (n : Nat) (s : State) (answer : List Word → List Byte) : Result :=
  match storeGet s.cfg s.store k addr.toNat n with
  | none => respond (errorFrame dev fc .illegalDataAddress) s
  | some ws => respond (answer ws) s

/-- The three stages of a read request of `n` cells (R124 to R127). -/
def readRequest (i : Instr) (k : Nat) (dev fc : Byte) (addr : Word) (n : Nat) (quantityOk : Bool)
    (answer : List Word → List Byte) (s : State) : Result :=
  onBus i s fun stage =>
    match stage with
    | .guard => guardStage i k dev fc quantityOk s
    | .validate => validateStage i k dev fc addr n .get s
    | .get => getStage k dev fc addr n s answer
    | .set => .refused .stageOutsideRequest

/-- The four stages of a single-write request (R128, R129): the echo comes from a `StoreGet` of its own (R246). -/
def singleWriteRequest (i : Instr) (k : Nat) (dev fc : Byte) (addr w : Word) (echo : Word → Word) (s : State) : Result :=
  onBus i s fun stage =>
    match stage with
    | .guard => guardStage i k dev fc true s
    | .validate => validateStage i k dev fc addr 1 .set s
    | .set => setStage k addr [w] s (enterStage i .get)
    | .get => getStage k dev fc addr 1 s fun ws =>
      match ws with
      | w0 :: _ => writeResponse dev fc addr (echo w0)
      | [] => errorFrame dev fc .illegalDataAddress

/-- The three stages of a multi-write request (R130, R131). -/
def multiWriteRequest (i : Instr) (k : Nat) (dev fc : Byte) (addr q : Word) (byteCountOk : Bool) (vals : List Word)
    (s : State) : Result :=
  onBus i s fun stage =>
    match stage with
    | .guard => guardStage i k dev fc byteCountOk s
    | .validate => validateStage i k dev fc addr q.toNat .set s
    | .set => setStage k addr vals s (respond (writeResponse dev fc addr q))
    | .get => .refused .stageOutsideRequest

end Sys2Proof.Machine
end

