-- ==== Sys2Proof/Machine/Entities.lean ====
section
/-! DEFINITION. The entity operations (43_entities.md R176 to R187). A read refreshes the cache (D18); a list of words or
a cache of another form than the variant's raises TYPE_ERROR, in states no run reaches (log 22). -/

namespace Sys2Proof.Machine

/-- E_INT_READ (R176). -/
def execEIntRead (e : Nat) (s : State) : Result :=
  entityFetch .int e s fun _ ws =>
    match ws with
    | [w] => deliver (.word w) (s.setCache e (.word w))
    | _ => raiseFault .typeError s

/-- E_INT_CACHED (R177). -/
def execEIntCached (e : Nat) (s : State) : Result :=
  entityCached .int e s fun _ c =>
    match c with
    | .word w => deliver (.word w) s
    | _ => raiseFault .typeError s

/-- E_INT_WRITE (R178). -/
def execEIntWrite (e : Nat) (v : Value) (s : State) : Result := entityWrite .int e v s

/-- E_BOOL_READ (R179): the cache takes the word itself, the result its truth. -/
def execEBoolRead (e : Nat) (s : State) : Result :=
  entityFetch .bool e s fun _ ws =>
    match ws with
    | [w] => deliver (.bool (truth w)) (s.setCache e (.word w))
    | _ => raiseFault .typeError s

/-- E_BOOL_CACHED (R180). -/
def execEBoolCached (e : Nat) (s : State) : Result :=
  entityCached .bool e s fun _ c =>
    match c with
    | .word w => deliver (.bool (truth w)) s
    | _ => raiseFault .typeError s

/-- E_BOOL_WRITE (R181). -/
def execEBoolWrite (e : Nat) (v : Value) (s : State) : Result := entityWrite .bool e v s

/-- E_FLOAT_READ (R182): the cache keeps the unrounded encoding. -/
def execEFloatRead (e : Nat) (s : State) : Result :=
  entityFetch .float e s fun d ws =>
    match ws with
    | [w0, w1] => deliverFloat (wordsToFloat w0 w1) d.precision (s.setCache e (.float (wordsToFloat w0 w1)))
    | _ => raiseFault .typeError s

/-- E_FLOAT_CACHED (R183): the same rounding as a read. -/
def execEFloatCached (e : Nat) (s : State) : Result :=
  entityCached .float e s fun d c =>
    match c with
    | .float u => deliverFloat u d.precision s
    | _ => raiseFault .typeError s

/-- E_FLOAT_WRITE (R184): the comparison with the cache is on the encodings (D19). -/
def execEFloatWrite (e : Nat) (v : Value) (s : State) : Result := entityWrite .float e v s

/-- E_ARRAY_READ (R185). -/
def execEArrayRead (e : Nat) (s : State) : Result :=
  entityFetch .array e s fun _ ws => deliver (.words ws) (s.setCache e (.words ws))

/-- E_ARRAY_CACHED (R186). -/
def execEArrayCached (e : Nat) (s : State) : Result :=
  entityCached .array e s fun _ c =>
    match c with
    | .words ws => deliver (.words ws) s
    | _ => raiseFault .typeError s

/-- E_ARRAY_WRITE (R187). -/
def execEArrayWrite (e : Nat) (v : Value) (s : State) : Result := entityWrite .array e v s

end Sys2Proof.Machine
end

