-- ==== Sys2Proof/Machine/FrameReads.lean ====
section
/-! DEFINITION. The four read requests (41_frame_requests.md R124 to R127). -/

namespace Sys2Proof.Machine

/-- The data bytes of a bit read: `PackBits` of `Truth` of each word (R124). -/
def bitData (ws : List Word) : List Byte := packBits (ws.map truth)

/-- READ_COILS (R124); 0x03 when the byte count would exceed 255 (D6). -/
def execReadCoils (dev : Byte) (addr q crc : Word) (s : State) : Result :=
  readRequest (.readCoils dev addr q crc) 0 dev 1#8 addr q.toNat (decide (ceilDiv8 q.toNat ≤ 255))
    (fun ws => readResponse dev 1#8 (bitData ws)) s

/-- READ_DISCRETE_INPUTS (R125). -/
def execReadDiscreteInputs (dev : Byte) (addr q crc : Word) (s : State) : Result :=
  readRequest (.readDiscreteInputs dev addr q crc) 1 dev 2#8 addr q.toNat (decide (ceilDiv8 q.toNat ≤ 255))
    (fun ws => readResponse dev 2#8 (bitData ws)) s

/-- READ_HOLDING_REGISTERS (R126); 0x03 when the byte count would exceed 255 (D6). -/
def execReadHoldingRegisters (dev : Byte) (addr q crc : Word) (s : State) : Result :=
  readRequest (.readHoldingRegisters dev addr q crc) 2 dev 3#8 addr q.toNat (decide (2 * q.toNat ≤ 255))
    (fun ws => readResponse dev 3#8 (packWords ws)) s

/-- READ_INPUT_REGISTERS (R127). -/
def execReadInputRegisters (dev : Byte) (addr q crc : Word) (s : State) : Result :=
  readRequest (.readInputRegisters dev addr q crc) 3 dev 4#8 addr q.toNat (decide (2 * q.toNat ≤ 255))
    (fun ws => readResponse dev 4#8 (packWords ws)) s

end Sys2Proof.Machine
end

