-- ==== Sys2Proof/Machine/FrameWrites.lean ====
section
/-! DEFINITION. The four write requests (41_frame_requests.md R128 to R131). -/

namespace Sys2Proof.Machine

/-- WRITE_SINGLE_COIL (R128): any nonzero data word stores 1; the echo has the form `COIL_ECHO` asks for. -/
def execWriteSingleCoil (dev : Byte) (addr q crc : Word) (s : State) : Result :=
  singleWriteRequest (.writeSingleCoil dev addr q crc) 0 dev 5#8 addr (fromBool (truth q))
    (fun w => echo5 s.cfg.coilEcho w q) s

/-- WRITE_SINGLE_REGISTER (R129). -/
def execWriteSingleRegister (dev : Byte) (addr q crc : Word) (s : State) : Result :=
  singleWriteRequest (.writeSingleRegister dev addr q crc) 2 dev 6#8 addr q (fun w => w) s

/-- The words a multi-coil write stores (R130). -/
def coilWords (payload : List Byte) (q : Word) : List Word := (unpackBits payload q.toNat).map fromBool

/-- WRITE_MULTIPLE_COILS (R130); 0x03 when the byte count is not `ceil(q / 8)` (D7). -/
def execWriteMultipleCoils (dev : Byte) (addr q : Word) (payload : List Byte) (crc : Word) (s : State) : Result :=
  multiWriteRequest (.writeMultipleCoils dev addr q payload crc) 0 dev 15#8 addr q
    (decide (payload.length = ceilDiv8 q.toNat)) (coilWords payload q) s

/-- WRITE_MULTIPLE_REGISTERS (R131); 0x03 when the byte count is not `2q` (D7). -/
def execWriteMultipleRegisters (dev : Byte) (addr q : Word) (payload : List Byte) (crc : Word) (s : State) : Result :=
  multiWriteRequest (.writeMultipleRegisters dev addr q payload crc) 2 dev 16#8 addr q
    (decide (payload.length = 2 * q.toNat)) (unpackWords payload) s

end Sys2Proof.Machine
end

