-- ==== Sys2Proof/Machine/StorePort.lean ====
section
/-! DEFINITION. The local-port store operations (42_store_port.md R151 to R157), each one atomic store primitive. -/

namespace Sys2Proof.Machine

/-- L_VALIDATE (R151). -/
def execLValidate (k a n : Nat) (s : State) : Result :=
  running s <| withClass k s <| deliver (.bool (storeValidate s.cfg s.store k a n)) s

/-- L_GET (R152): a range not wholly present, or a count of 0, raises GET_INVALID. -/
def execLGet (k a n : Nat) (s : State) : Result :=
  running s <| withClass k s <|
    match storeGet s.cfg s.store k a n with
    | none => raiseFault .getInvalid s
    | some ws => deliver (.words ws) s

/-- L_SET (R153): a new key of an immutable class raises PARAM_ERROR, with nothing written. -/
def execLSet (k a : Nat) (vals : List Word) (s : State) : Result :=
  running s <| withClass k s <|
    match storeSet s.cfg s.store k a vals with
    | none => raiseFault .paramError s
    | some st => deliver .ok (s.withStore st)

/-- L_RESET (R154, R241). -/
def execLReset (s : State) : Result :=
  running s <| deliver .done (s.withStore (storeReset s.cfg s.store))

/-- L_READ_CHANGED (R155). -/
def execLReadChanged (s : State) : Result :=
  running s <| deliver (.bool (changedRead s.store)) s

/-- L_CLEAR_CHANGED (R156). -/
def execLClearChanged (s : State) : Result :=
  running s <| deliver .done (s.withStore (changedClear s.store))

/-- L_TAKE_CHANGED (R157). -/
def execLTakeChanged (s : State) : Result :=
  running s <| deliver (.bool (changedTake s.store).1) (s.withStore (changedTake s.store).2)

end Sys2Proof.Machine
end

