-- ==== Sys2Proof/Machine/Dispatch.lean ====
section
/-! DEFINITION. One arm for each constructor of Instr, each a direct call of its meaning. -/

namespace Sys2Proof.Machine

def exec (i : Instr) (s : State) : Host.Outcome State Fault Refusal :=
  match i with
  | .readCoils dev addr q crc => Sys2Proof.Machine.execReadCoils dev addr q crc s
  | .readDiscreteInputs dev addr q crc => Sys2Proof.Machine.execReadDiscreteInputs dev addr q crc s
  | .readHoldingRegisters dev addr q crc => Sys2Proof.Machine.execReadHoldingRegisters dev addr q crc s
  | .readInputRegisters dev addr q crc => Sys2Proof.Machine.execReadInputRegisters dev addr q crc s
  | .writeSingleCoil dev addr q crc => Sys2Proof.Machine.execWriteSingleCoil dev addr q crc s
  | .writeSingleRegister dev addr q crc => Sys2Proof.Machine.execWriteSingleRegister dev addr q crc s
  | .writeMultipleCoils dev addr q payload crc => Sys2Proof.Machine.execWriteMultipleCoils dev addr q payload crc s
  | .writeMultipleRegisters dev addr q payload crc => Sys2Proof.Machine.execWriteMultipleRegisters dev addr q payload crc s
  | .lValidate k a n => Sys2Proof.Machine.execLValidate k a n s
  | .lGet k a n => Sys2Proof.Machine.execLGet k a n s
  | .lSet k a vals => Sys2Proof.Machine.execLSet k a vals s
  | .lReset => Sys2Proof.Machine.execLReset s
  | .lReadChanged => Sys2Proof.Machine.execLReadChanged s
  | .lClearChanged => Sys2Proof.Machine.execLClearChanged s
  | .lTakeChanged => Sys2Proof.Machine.execLTakeChanged s
  | .eIntRead e => Sys2Proof.Machine.execEIntRead e s
  | .eIntCached e => Sys2Proof.Machine.execEIntCached e s
  | .eIntWrite e v => Sys2Proof.Machine.execEIntWrite e v s
  | .eBoolRead e => Sys2Proof.Machine.execEBoolRead e s
  | .eBoolCached e => Sys2Proof.Machine.execEBoolCached e s
  | .eBoolWrite e v => Sys2Proof.Machine.execEBoolWrite e v s
  | .eFloatRead e => Sys2Proof.Machine.execEFloatRead e s
  | .eFloatCached e => Sys2Proof.Machine.execEFloatCached e s
  | .eFloatWrite e v => Sys2Proof.Machine.execEFloatWrite e v s
  | .eArrayRead e => Sys2Proof.Machine.execEArrayRead e s
  | .eArrayCached e => Sys2Proof.Machine.execEArrayCached e s
  | .eArrayWrite e v => Sys2Proof.Machine.execEArrayWrite e v s

end Sys2Proof.Machine
end

