-- ==== Sys2Proof/Machine/Transport.lean ====
section
/-! DEFINITION. The framing of the RTU transport (45_framer_contract.md R200 to R206). It is environment: it lies outside
the block and is modelled so that claims about byte streams can be stated (log 18). -/

namespace Sys2Proof.Machine

/-- What the transport does with its buffer once a chunk has been appended (R202 to R206): the frame it hands over, if
any, and the buffer it keeps. -/
def frameBuffer (cfg : Config) (buf : List Byte) : Option (List Byte) × List Byte :=
  match buf with
  | [] => (none, [])
  | b :: _ =>
    if b ≠ cfg.devAddr then (none, [])
    else if buf.length < 8 then (none, buf)
    else if buf.length < expectedLength buf then (none, buf)
    else if frameCheck (buf.take (expectedLength buf)) then (some (buf.take (expectedLength buf)), [])
    else (none, [])

/-- The transport's buffer (R200). -/
def State.withBuffer (s : State) (buf : List Byte) : State := { s with lineBuf := buf }

/-- A chunk arrives (R201): it is appended to the pending buffer, and a complete frame is handed to the bus port. -/
def receiveChunk (chunk : List Byte) (s : State) : Result :=
  running s <|
    match frameBuffer s.cfg (s.lineBuf ++ chunk) with
    | (some f, rest) => .next ((s.withBuffer rest).arrive f)
    | (none, rest) => .next (s.withBuffer rest)

end Sys2Proof.Machine
end

