-- ==== Sys2Proof/Machine/Agents.lean ====
section
/-! DEFINITION. One turn of each agent (10_state.md R28, 41_frame_requests.md R135) and who takes the next turn
(20_memory.md R50, log 3). -/

namespace Sys2Proof.Machine

/-- The bus agent has something to do. -/
def busHasWork (s : State) : Bool := s.bus != .idle || !s.busIn.isEmpty || !s.lineIn.isEmpty

/-- Who takes the next turn: the head of the schedule; when the schedule is empty, the bus agent while it has work, else
the local agent (log 3). -/
def nextAgent (s : State) : Agent :=
  match s.sched with
  | a :: _ => a
  | [] => if busHasWork s then .busAgent else .localAgent

/-- The turn is taken from the schedule. -/
def State.turnTaken (s : State) : State := { s with sched := s.sched.tail }

/-- The frame at the head of the bus port is taken from it. -/
def State.frameTaken (s : State) : State := { s with busIn := s.busIn.tail }

/-- The chunk at the head of the serial link is read from it. -/
def State.chunkTaken (s : State) : State := { s with lineIn := s.lineIn.tail }

/-- The command at the head of the local port is taken from it. -/
def State.commandTaken (s : State) : State := { s with localIn := s.localIn.tail }

/-- The bus agent takes a frame from its port (R135): the instruction the frame encodes is executed; a frame that encodes
none is dropped or answered with code 0x01 (R120, R121). -/
def takeFrame (f : List Byte) (s : State) : Result :=
  match decodeFrame f with
  | .ok i => exec i s
  | .error _ => processUnsupported f s

/-- One turn of the bus agent: the next store operation of the request in flight; else the next frame; else the next chunk
on the serial link; else nothing (R135, R208). -/
def busTurn (s : State) : Result :=
  match s.bus with
  | .busy req _ => exec req s
  | .idle =>
    match s.busIn with
    | f :: _ => takeFrame f s.frameTaken
    | [] =>
      match s.lineIn with
      | chunk :: _ => receiveChunk chunk s.chunkTaken
      | [] => .next s

/-- A rejected command is refused (R75, log 9). -/
def refusalOf (c : Command) : Reject → Refusal
  | .operandShape sel => .operandShape sel
  | _ => .reservedSelector c.sel

/-- The local agent performs a command (R150). -/
def takeCommand (c : Command) (s : State) : Result :=
  match decodeCommand c with
  | .ok i => exec i s
  | .error r => .refused (refusalOf c r)

/-- One turn of the local agent: its next command; else nothing. -/
def localTurn (s : State) : Result :=
  match s.localIn with
  | c :: _ => takeCommand c s.commandTaken
  | [] => .next s

/-- The turn of an agent. -/
def turnOf : Agent → State → Result
  | .busAgent, s => busTurn s
  | .localAgent, s => localTurn s

end Sys2Proof.Machine
end

