-- ==== Sys2Proof/Machine/Step.lean ====
section
/-! DEFINITION. One step of the machine: one turn of one agent, that is, at most one atomic store primitive
(20_memory.md R50). A stopped block makes no step (60_exceptions.md R226). -/

namespace Sys2Proof.Machine

/-- One step. -/
def step (s : State) : Host.Outcome State Fault Refusal :=
  running s (turnOf (nextAgent s) s.turnTaken)

/-- The state with one more request or command handed to the block, first in its port, and the next turn its agent's; a
frame is taken only from IDLE, so the bus agent is put there (log 20). -/
def State.withEncoded (s : State) : Encoded → State
  | .frame f => { s with busIn := f :: s.busIn, bus := .idle, sched := .busAgent :: s.sched }
  | .command c => { s with localIn := c :: s.localIn, sched := .localAgent :: s.sched }

/-- The state whose next step fetches and runs the instruction a word of the opcode table encodes (log 20). -/
def State.withFetchWord (s : State) (nbits w : Nat) : State := s.withEncoded (tableEncoded nbits w)

end Sys2Proof.Machine
end

