-- ==== Sys2Proof/Safety.lean ====
section
/-! DEFINITION. What the claims are stated with: the cell a key names, the shape of a request, the invariant of the block,
and the exact values of floating-point encodings. -/

namespace Sys2Proof.Machine

/-! ### Cells -/

/-- The word class `k` holds at a key, if it holds the key (R23). -/
def readCell (s : State) (k key : Nat) : Option Word := ClassMap.find (s.store.map k) key

/-- Class `k` holds every key of the range `[a, a + n)` of external addresses (R42). -/
def rangePresent (s : State) (k a n : Nat) : Prop :=
  ∀ i < n, (readCell s k (a + s.cfg.addrOffset + i)).isSome = true

/-- The range `[a, a + vals.length)` of class `k` holds the words of the list (R42). -/
def rangeHolds (s : State) (k a : Nat) (vals : List Word) : Prop :=
  ∀ i < vals.length, readCell s k (a + s.cfg.addrOffset + i) = vals[i]?

/-- Every cell of every class outside the range `[a, a + n)` of class `k` is the same in both states. -/
def sameCellsOutside (s t : State) (k a n : Nat) : Prop :=
  ∀ j key, ¬ (j = k ∧ a + s.cfg.addrOffset ≤ key ∧ key < a + s.cfg.addrOffset + n) → readCell t j key = readCell s j key

/-- Every cell of every class is the same in both states. -/
def sameCells (s t : State) : Prop := ∀ j key, readCell t j key = readCell s j key

/-- The store has one class map for each class of the configuration (R22). -/
def storeShaped (s : State) : Prop := s.store.mem.length = (classesOf s.cfg).length

/-! ### Requests -/

/-- The instruction is a request frame of the bus port. -/
def isRequest : Instr → Bool
  | .readCoils _ _ _ _ => true
  | .readDiscreteInputs _ _ _ _ => true
  | .readHoldingRegisters _ _ _ _ => true
  | .readInputRegisters _ _ _ _ => true
  | .writeSingleCoil _ _ _ _ => true
  | .writeSingleRegister _ _ _ _ => true
  | .writeMultipleCoils _ _ _ _ _ => true
  | .writeMultipleRegisters _ _ _ _ _ => true
  | .lValidate _ _ _ => false
  | .lGet _ _ _ => false
  | .lSet _ _ _ => false
  | .lReset => false
  | .lReadChanged => false
  | .lClearChanged => false
  | .lTakeChanged => false
  | .eIntRead _ => false
  | .eIntCached _ => false
  | .eIntWrite _ _ => false
  | .eBoolRead _ => false
  | .eBoolCached _ => false
  | .eBoolWrite _ _ => false
  | .eFloatRead _ => false
  | .eFloatCached _ => false
  | .eFloatWrite _ _ => false
  | .eArrayRead _ => false
  | .eArrayCached _ => false
  | .eArrayWrite _ _ => false

/-- What a request is about: its device address, function code, class, address and number of cells (R70, R123), the check
of its quantity or byte count (D6, D7), and the words it writes. -/
structure RequestShape where
  dev : Byte
  fc : Byte
  cls : Nat
  addr : Word
  count : Nat
  quantityOk : Bool
  stages : List Stage
  writes : List Word

/-- The shape of each of the eight requests (R124 to R131); a local operation has none. -/
def requestShape : Instr → Option RequestShape
  | .readCoils dev addr q _ => some ⟨dev, 1#8, 0, addr, q.toNat, decide (q.toNat ≤ 2040), [.guard, .validate, .get], []⟩
  | .readDiscreteInputs dev addr q _ =>
    some ⟨dev, 2#8, 1, addr, q.toNat, decide (q.toNat ≤ 2040), [.guard, .validate, .get], []⟩
  | .readHoldingRegisters dev addr q _ =>
    some ⟨dev, 3#8, 2, addr, q.toNat, decide (q.toNat ≤ 127), [.guard, .validate, .get], []⟩
  | .readInputRegisters dev addr q _ =>
    some ⟨dev, 4#8, 3, addr, q.toNat, decide (q.toNat ≤ 127), [.guard, .validate, .get], []⟩
  | .writeSingleCoil dev addr q _ =>
    some ⟨dev, 5#8, 0, addr, 1, true, [.guard, .validate, .set, .get], [if q = 0#16 then 0#16 else 1#16]⟩
  | .writeSingleRegister dev addr q _ => some ⟨dev, 6#8, 2, addr, 1, true, [.guard, .validate, .set, .get], [q]⟩
  | .writeMultipleCoils dev addr q payload _ =>
    some ⟨dev, 15#8, 0, addr, q.toNat, decide (payload.length = (q.toNat + 7) / 8), [.guard, .validate, .set],
      coilWords payload q⟩
  | .writeMultipleRegisters dev addr q payload _ =>
    some ⟨dev, 16#8, 2, addr, q.toNat, decide (payload.length = 2 * q.toNat), [.guard, .validate, .set],
      unpackWords payload⟩
  | .lValidate _ _ _ => none
  | .lGet _ _ _ => none
  | .lSet _ _ _ => none
  | .lReset => none
  | .lReadChanged => none
  | .lClearChanged => none
  | .lTakeChanged => none
  | .eIntRead _ => none
  | .eIntCached _ => none
  | .eIntWrite _ _ => none
  | .eBoolRead _ => none
  | .eBoolCached _ => none
  | .eBoolWrite _ _ => none
  | .eFloatRead _ => none
  | .eFloatCached _ => none
  | .eFloatWrite _ _ => none
  | .eArrayRead _ => none
  | .eArrayCached _ => none
  | .eArrayWrite _ _ => none

/-- The bus agent can take the request: no fault, no request in flight, and the frame passes the acceptance checks
(R120, R135). -/
def takes (i : Instr) (s : State) : Prop :=
  s.fault = none ∧ s.bus = .idle ∧ accepts s.cfg (frameBytes i) = true

/-! ### The invariant -/

/-- The store power-on starts from (R240 step 1). -/
def snapshotStore (cfg : Config) : Store := { mem := snapshotMemory cfg, changed := false }

/-- The class holds the key in the snapshot of the configuration. -/
def keyInSnapshot (cfg : Config) (k key : Nat) : Prop := (ClassMap.find ((snapshotStore cfg).map k) key).isSome = true

/-- A request in flight passed the acceptance checks, is at one of its own stages, has passed the check of its quantity
once it is past the guard, and, once it is past validation in a class that cannot grow, has all its cells. -/
def busConsistent (s : State) : Prop :=
  ∀ i stage, s.bus = .busy i stage →
    ∃ r, requestShape i = some r ∧ accepts s.cfg (frameBytes i) = true ∧ stage ∈ r.stages ∧
      (stage ≠ .guard → r.quantityOk = true) ∧
      (stage = .set ∨ stage = .get → growable s.cfg r.cls = false →
        storeValidate s.cfg s.store r.cls r.addr.toNat r.count = true)

/-- The invariant of the block: the class maps are canonical (R23), there is one for each class (R22), no key of a
snapshot is ever lost (R45, R46), a class that cannot grow has the keys of its snapshot and no others (R248), and, while
there is no fault, every entity has a cache of its variant's form (R26) and a range within the snapshot (R172), and the
request in flight is consistent. -/
structure Inv (s : State) : Prop where
  canonical : Memory.wf s.store.mem = true
  shaped : storeShaped s
  keepsKeys : ∀ k key, keyInSnapshot s.cfg k key → (readCell s k key).isSome = true
  immutableKeys : ∀ k, growable s.cfg k = false → ∀ key, (readCell s k key).isSome = true → keyInSnapshot s.cfg k key
  caches : s.fault = none → s.caches.length = s.cfg.entities.length ∧
    ∀ (e : Nat) d c, s.cfg.entities[e]? = some d → s.caches[e]? = some c → cacheFits d c = true
  entities : s.fault = none → ∀ d ∈ s.cfg.entities,
    storeValidate s.cfg (snapshotStore s.cfg) d.cls d.addr (widthOf d) = true
  bus : busConsistent s

/-! ### Floating-point values (R15) -/

/-- The exact value of a finite binary32 encoding. -/
def value32 (u : Bits32) : ℚ :=
  (if sign32 u then -1 else 1) * (significand32 u * 2 ^ scale32 u / 2 ^ 149)

/-- The sign bit of a binary64 encoding. -/
def sign64 (y : Bits64) : Bool := y.getLsbD 63

/-- The biased exponent of a binary64 encoding. -/
def exp64 (y : Bits64) : Nat := (y.extractLsb' 52 11).toNat

/-- The fraction of a binary64 encoding. -/
def frac64 (y : Bits64) : Nat := (y.extractLsb' 0 52).toNat

/-- The encoding is of a finite binary64 value. -/
def isFinite64 (y : Bits64) : Bool := exp64 y != 2047

/-- The encoding is of a binary64 NaN. -/
def isNaN64 (y : Bits64) : Bool := exp64 y == 2047 && frac64 y != 0

/-- The exact value of a finite binary64 encoding. -/
def value64 (y : Bits64) : ℚ :=
  (if sign64 y then -1 else 1) *
    ((if exp64 y = 0 then frac64 y else frac64 y + 2 ^ 52 : ℕ) * 2 ^ (exp64 y - 1) / 2 ^ 1074)

end Sys2Proof.Machine
end

