-- ==== Sys2Proof/Certificates/Slice0/Obligations.lean ====
section
/-! DEFINITION. The statements for the provers. Each docstring names the rules of spec/ the statement is about; where a
clause rests on a decision of 92_eei_decisions.md (D) or of the model (log), it says so. -/

open Sys2Proof Sys2Proof.Machine

/-! ### Encoding -/

/-- 30_encoding.md R60 to R65, R70, R75: decoding and encoding agree. The decoder gives every well-formed instruction back
from its encoding, every operand at every value; and every frame or command record that decodes is the encoding of what it
decodes to, so no bit of it is ignored. -/
def Obligations.DecodeAndEncodeAgree : Prop :=
  ∀ (x : Encoded) (i : Instr), decode x = .ok i ↔ i.wellFormed = true ∧ encode i = x

/-- R61, R62, R63: each field of a request frame stands at its bytes, big-endian, the CRC little-endian. -/
def Obligations.RequestFieldsStandAtTheirBytes : Prop :=
  (∀ dev a1 a0 q1 q0 c0 c1 : Byte,
    decodeFrame [dev, 1#8, a1, a0, q1, q0, c0, c1] = .ok (.readCoils dev (a1 ++ a0) (q1 ++ q0) (c1 ++ c0)) ∧
    decodeFrame [dev, 2#8, a1, a0, q1, q0, c0, c1] = .ok (.readDiscreteInputs dev (a1 ++ a0) (q1 ++ q0) (c1 ++ c0)) ∧
    decodeFrame [dev, 3#8, a1, a0, q1, q0, c0, c1] = .ok (.readHoldingRegisters dev (a1 ++ a0) (q1 ++ q0) (c1 ++ c0)) ∧
    decodeFrame [dev, 4#8, a1, a0, q1, q0, c0, c1] = .ok (.readInputRegisters dev (a1 ++ a0) (q1 ++ q0) (c1 ++ c0)) ∧
    decodeFrame [dev, 5#8, a1, a0, q1, q0, c0, c1] = .ok (.writeSingleCoil dev (a1 ++ a0) (q1 ++ q0) (c1 ++ c0)) ∧
    decodeFrame [dev, 6#8, a1, a0, q1, q0, c0, c1] = .ok (.writeSingleRegister dev (a1 ++ a0) (q1 ++ q0) (c1 ++ c0))) ∧
  (∀ (dev a1 a0 q1 q0 n c0 c1 : Byte) (payload : List Byte), payload.length = n.toNat →
    decodeFrame ([dev, 15#8, a1, a0, q1, q0, n] ++ payload ++ [c0, c1]) =
      .ok (.writeMultipleCoils dev (a1 ++ a0) (q1 ++ q0) payload (c1 ++ c0)) ∧
    decodeFrame ([dev, 16#8, a1, a0, q1, q0, n] ++ payload ++ [c0, c1]) =
      .ok (.writeMultipleRegisters dev (a1 ++ a0) (q1 ++ q0) payload (c1 ++ c0)))

/-- R64, R70: byte 1 of a frame that decodes is one of the eight function codes, the request is on the class the map gives
that code, and the frame has the length the code and its byte count ask for, between 8 and 264 bytes. -/
def Obligations.DecodedFramesFollowTheFunctionCodeMap : Prop :=
  ∀ (f : List Byte) (i : Instr), decodeFrame f = .ok i →
    (∃ r, requestShape i = some r ∧ f[1]? = some r.fc ∧
      (r.fc, r.cls) ∈ [(1#8, 0), (2#8, 1), (3#8, 2), (4#8, 3), (5#8, 0), (6#8, 2), (15#8, 0), (16#8, 2)]) ∧
    8 ≤ f.length ∧ f.length ≤ 264 ∧
    (f[1]? = some 15#8 ∨ f[1]? = some 16#8 → ∃ n : Byte, f[6]? = some n ∧ f.length = 9 + n.toNat) ∧
    (¬ (f[1]? = some 15#8 ∨ f[1]? = some 16#8) → f.length = 8)

/-- 30_encoding.md R78 and 95_test_vectors.md: a few words written out from the spec decode to what they stand for. -/
def Obligations.WrittenOutWordsDecode : Prop :=
  decodeFrame [0x01#8, 0x03#8, 0x00#8, 0x00#8, 0x00#8, 0x0A#8, 0xC5#8, 0xCD#8] =
    .ok (.readHoldingRegisters 0x01#8 0#16 10#16 0xCDC5#16) ∧
  decodeFrame [0x01#8, 0x10#8, 0x00#8, 0x04#8, 0x00#8, 0x02#8, 0x04#8, 0x3F#8, 0xC0#8, 0x00#8, 0x00#8, 0xFE#8, 0x74#8] =
    .ok (.writeMultipleRegisters 0x01#8 4#16 2#16 [0x3F#8, 0xC0#8, 0x00#8, 0x00#8] 0x74FE#16) ∧
  decodeCommand ⟨0x03#8, [.nat 2, .nat 0, .list [0x1234]]⟩ = .ok (.lSet 2 0 [0x1234#16]) ∧
  decodeCommand ⟨0x1A#8, [.nat 2, .float 0x3FC00000#32]⟩ = .ok (.eFloatWrite 2 (.float 0x3FC00000#32)) ∧
  decodeCommand ⟨0x08#8, []⟩ = .error (.reservedSelector 0x08#8)

/-- R75 (D24): a command with a selector outside the table is refused, whatever its operands.
Whose turn it is comes from the schedule (log 3). -/
def Obligations.ReservedSelectorsAreRefused : Prop :=
  ∀ (s : State) (c : Command) (rest : List Command), s.fault = none → nextAgent s = .localAgent → s.localIn = c :: rest →
    c.sel.toNat ∉ [0x01, 0x02, 0x03, 0x04, 0x05, 0x06, 0x07, 0x10, 0x11, 0x12, 0x14, 0x15, 0x16, 0x18, 0x19, 0x1A,
      0x1C, 0x1D, 0x1E] →
    step s = .refused (.reservedSelector c.sel)

/-! ### CRC and codec -/

/-- R102 (a derived sentence of the spec): appending its CRC to any list makes the CRC of the whole zero. -/
def Obligations.CrcResidueIsZero : Prop := ∀ body : List Byte, crc16 (appendCrc body) = 0x0000#16

/-- R103: a request passes the frame check exactly when it has 8 bytes or more and the CRC of all but the last two is the
little-endian value of those two. -/
def Obligations.FrameCheckComparesTheTrailingCrc : Prop :=
  ∀ f : List Byte, frameCheck f = true ↔
    8 ≤ f.length ∧ ∃ (body : List Byte) (c0 c1 : Byte), f = body ++ [c0, c1] ∧ crc16 body = c1 ++ c0

/-- R106: a bit list takes `ceil(q / 8)` bytes, bit `8i + j` at bit `j` of byte `i`, unused bits zero. -/
def Obligations.BitsPackLeastSignificantFirst : Prop :=
  ∀ bs : List Bool, (packBits bs).length = (bs.length + 7) / 8 ∧
    ∀ i < (packBits bs).length, ∀ j < 8, ((packBits bs).getD i 0#8).getLsbD j = bs.getD (8 * i + j) false

/-- R107 (a derived rule of the spec): unpacking inverts packing; element `n` of the bits unpacked is bit `n mod 8` of byte
`n / 8`; and what lies beyond the bits asked for is ignored: whole bytes, and the other bits of a partial last byte. -/
def Obligations.UnpackingInvertsBitPacking : Prop :=
  (∀ bs : List Bool, unpackBits (packBits bs) bs.length = bs) ∧
  (∀ (bytes : List Byte) (q : Nat), q ≤ 8 * bytes.length → (unpackBits bytes q).length = q ∧
    ∀ n < q, (unpackBits bytes q)[n]? = bytes[n / 8]?.map (fun b => b.getLsbD (n % 8))) ∧
  (∀ (bytes extra : List Byte) (q : Nat), q ≤ 8 * bytes.length → unpackBits (bytes ++ extra) q = unpackBits bytes q) ∧
  (∀ (bytes : List Byte) (b c : Byte) (q : Nat), 8 * bytes.length ≤ q → q ≤ 8 * bytes.length + 8 →
    (∀ j < q - 8 * bytes.length, b.getLsbD j = c.getLsbD j) → unpackBits (bytes ++ [b]) q = unpackBits (bytes ++ [c]) q)

/-- R105: words pack big-endian, two bytes each, and unpacking inverts packing. -/
def Obligations.WordsPackBigEndian : Prop :=
  (∀ ws : List Word, (packWords ws).length = 2 * ws.length ∧ unpackWords (packWords ws) = ws ∧
    ∀ (i : Nat) (w : Word), ws[i]? = some w →
      (packWords ws)[2 * i]? = some (w.extractLsb' 8 8) ∧ (packWords ws)[2 * i + 1]? = some (w.extractLsb' 0 8)) ∧
  (∀ bytes : List Byte, bytes.length % 2 = 0 → packWords (unpackWords bytes) = bytes)

/-- R108, R109: the high half of a binary32 encoding is the first word, and the two directions are inverse. -/
def Obligations.FloatCodecIsExact : Prop :=
  (∀ u : Bits32, floatToWords u = [u.extractLsb' 16 16, u.extractLsb' 0 16]) ∧
  (∀ (u : Bits32) (w0 w1 : Word), floatToWords u = [w0, w1] ↔ wordsToFloat w0 w1 = u)

/-- 43_entities.md section 3 (R188): widening a finite binary32 value gives a finite binary64 value equal to it, with its
sign; an infinity stays one. -/
def Obligations.WideningIsExact : Prop :=
  ∀ u : Bits32,
    (isFinite32 u = true → isFinite64 (widen64 u) = true ∧ value64 (widen64 u) = value32 u ∧
      sign64 (widen64 u) = sign32 u) ∧
    (isInf32 u = true → widen64 u = if sign32 u then 0xFFF0000000000000#64 else 0x7FF0000000000000#64)

/-- 43_entities.md section 3 (R188, D35): decimal rounding of a finite value gives the binary64 value nearest
`n / 10 ^ p`, ties to even, where `n` is the integer nearest `value * 10 ^ p`, ties to even, with the sign of the
operand; an infinity gives what widening gives for it. -/
def Obligations.DecimalRoundingIsNearestEven : Prop :=
  ∀ (u : Bits32) (p : Nat), 1 ≤ p →
    (isFinite32 u = true →
      ∃ n : ℤ, |value32 u * 10 ^ p - n| ≤ 1 / 2 ∧ (|value32 u * 10 ^ p - n| = 1 / 2 → Even n) ∧
        isFinite64 (roundDec u p) = true ∧ sign64 (roundDec u p) = sign32 u ∧
        (∀ z : Bits64, isFinite64 z = true →
          |value64 (roundDec u p) - n / 10 ^ p| ≤ |value64 z - n / 10 ^ p| ∧
          (|value64 (roundDec u p) - n / 10 ^ p| = |value64 z - n / 10 ^ p| → value64 z ≠ value64 (roundDec u p) →
            (roundDec u p).getLsbD 0 = false))) ∧
    (isInf32 u = true → roundDec u p = widen64 u)

/-! ### Power-on -/

/-- 70_reset_and_hazards.md section 1 (R240, D12), 43_entities.md section 1 (R174, R175, D17): what power-on leaves when no
check fails: `changed`, IDLE, every cache at its initial representation, with CACHE_ONLY the snapshot, with WRITE_THROUGH
each entity's initial words at its own cells, a later entity standing where two cover one cell, and every cell of no entity
as in the snapshot. -/
def Obligations.PowerOnLeavesWhatTheConfigurationSays : Prop :=
  ∀ cfg : Config, (State.powerOn cfg).fault = none →
    ((State.powerOn cfg).store.changed = true ↔ cfg.entityInit = .writeThrough ∧ cfg.entities ≠ []) ∧
    (State.powerOn cfg).bus = .idle ∧
    (State.powerOn cfg).caches.map some = cfg.entities.map (fun d => reprOf d d.initial) ∧
    (cfg.entityInit = .cacheOnly → (State.powerOn cfg).store = snapshotStore cfg) ∧
    (cfg.entityInit = .writeThrough → ∀ (before after : List EntityDesc) (d : EntityDesc) (c : Cache),
      cfg.entities = before ++ d :: after → reprOf d d.initial = some c →
      let words : List Word := match c with
        | .word w => [w]
        | .float u => [u.extractLsb' 16 16, u.extractLsb' 0 16]
        | .words ws => ws
      words.length = widthOf d ∧
      ∀ j < widthOf d, (∀ d' ∈ after, ¬ (d'.cls = d.cls ∧ d'.addr + cfg.addrOffset ≤ d.addr + cfg.addrOffset + j ∧
          d.addr + cfg.addrOffset + j < d'.addr + cfg.addrOffset + widthOf d')) →
        readCell (State.powerOn cfg) d.cls (d.addr + cfg.addrOffset + j) = words[j]?) ∧
    (∀ k key, (∀ d ∈ cfg.entities, ¬ (d.cls = k ∧ d.addr + cfg.addrOffset ≤ key ∧
        key < d.addr + cfg.addrOffset + widthOf d)) →
      readCell (State.powerOn cfg) k key = ClassMap.find ((snapshotStore cfg).map k) key)

/-- R9, R240, R243: in a well-formed configuration the snapshot of each class holds exactly the words configured for
it. -/
def Obligations.SnapshotHoldsTheConfiguredWords : Prop :=
  ∀ (cfg : Config) (k : Nat) (c : ClassCfg) (key : Nat), configOk cfg = true → (classesOf cfg)[k]? = some c →
    ClassMap.find ((snapshotStore cfg).map k) key = (c.snapshot.lookup key).map (BitVec.ofNat 16)

/-- 43_entities.md section 1 (R172, R173, D22): the first entity whose range is not in the store stops the block with
ADDRESS_ERROR; one whose range is there and whose initial value lacks the variant's representation, with TYPE_ERROR.
That a missing class fails the address check is log 16, that the first failing check ends construction log 17, that an
ARRAY with N = 0 fails the address check log 27. -/
def Obligations.ConstructionChecksStopTheBlock : Prop :=
  ∀ (cfg : Config) (before after : List EntityDesc) (d : EntityDesc), cfg.entities = before ++ d :: after →
    (State.powerOn { cfg with entities := before }).fault = none →
    (¬ (widthOf d ≠ 0 ∧ rangePresent (State.powerOn { cfg with entities := before }) d.cls d.addr (widthOf d)) →
      (State.powerOn cfg).fault = some .addressError) ∧
    (widthOf d ≠ 0 → rangePresent (State.powerOn { cfg with entities := before }) d.cls d.addr (widthOf d) →
      reprOf d d.initial = none → (State.powerOn cfg).fault = some .typeError)

/-! ### The invariant and the step -/

/-- The state after reset meets the invariant.
That reset is power-on of the example EX-B is the model's choice (log 2). -/
def Obligations.ResetMeetsTheInvariant : Prop := Inv State.reset

/-- Power-on from any configuration meets the invariant. -/
def Obligations.PowerOnMeetsTheInvariant : Prop := ∀ cfg : Config, Inv (State.powerOn cfg)

/-- Every step keeps the invariant: canonical class maps, one for each class, no snapshot key lost, no key gained by a
class that cannot grow, caches of their variants' forms, entity ranges within the snapshot, a consistent request in
flight (R22, R23, R26, R172, R248). -/
def Obligations.EveryStepKeepsTheInvariant : Prop :=
  ∀ s t : State, Inv s → step s = .next t → Inv t

/-- 41_frame_requests.md section 4, 42_store_port.md (R135, R150), 45_framer_contract.md (R201, R208): a step runs the
instruction of the request in flight, of the frame or of the command its agent takes, with that frame or command and the
turn taken; an idle bus agent with no frame waiting reads the next chunk of the serial link, and an agent with nothing to do
only takes its turn.
The schedule, the queues and the step that takes a frame are the model's (logs 3 to 6), and so are the turn that reads a
chunk (log 18) and the idle turn (log 28). -/
def Obligations.StepRunsTheDecodedInstruction : Prop :=
  ∀ (s : State) (i : Instr), s.fault = none →
    (∀ stage, nextAgent s = .busAgent → s.bus = .busy i stage → step s = exec i { s with sched := s.sched.tail }) ∧
    (∀ f rest, nextAgent s = .busAgent → s.bus = .idle → s.busIn = f :: rest → decodeFrame f = .ok i →
      step s = exec i { s with sched := s.sched.tail, busIn := rest }) ∧
    (∀ c rest, nextAgent s = .localAgent → s.localIn = c :: rest → decodeCommand c = .ok i →
      step s = exec i { s with sched := s.sched.tail, localIn := rest }) ∧
    (∀ chunk rest, nextAgent s = .busAgent → s.bus = .idle → s.busIn = [] → s.lineIn = chunk :: rest →
      step s = receiveChunk chunk { s with sched := s.sched.tail, lineIn := rest }) ∧
    (nextAgent s = .busAgent → s.bus = .idle → s.busIn = [] → s.lineIn = [] →
      step s = .next { s with sched := s.sched.tail }) ∧
    (nextAgent s = .localAgent → s.localIn = [] → step s = .next { s with sched := s.sched.tail })

/-- 60_exceptions.md section 3 (R226, D33): once the fault register is not NONE the block makes no step and performs no
operation.
That a later step is the fault `stopped` is the model's reading (log 8). -/
def Obligations.StoppedBlockPerformsNothing : Prop :=
  ∀ (s : State) (r : FaultReason), s.fault = some r →
    step s = .fault (.stopped r) ∧ ∀ i : Instr, exec i s = .fault (.stopped r)

/-- 10_state.md section 7 (R29, R30): no step changes the configuration. -/
def Obligations.NoStepChangesTheConfiguration : Prop :=
  ∀ s t : State, step s = .next t → t.cfg = s.cfg

/-! ### The bus port as a whole -/

/-- 41_frame_requests.md section 1 (R120, D23): a frame that is too short, for another device, of the wrong length or with
a bad CRC is dropped: no response, and nothing changes but that the frame is gone from the port.
The schedule and the queue are the model's (logs 3 and 4). -/
def Obligations.UnacceptedFramesAreDropped : Prop :=
  ∀ (s : State) (f : List Byte) (rest : List (List Byte)), s.fault = none → nextAgent s = .busAgent → s.bus = .idle →
    s.busIn = f :: rest →
    (f.length < 8 ∨ f[0]? ≠ some s.cfg.devAddr ∨
      f.length ≠ (if f[1]? = some 15#8 ∨ f[1]? = some 16#8 then 9 + (f.getD 6 0#8).toNat else 8) ∨
      ¬ ∃ (body : List Byte) (c0 c1 : Byte), f = body ++ [c0, c1] ∧ crc16 body = c1 ++ c0) →
    step s = .next { s with sched := s.sched.tail, busIn := rest }

/-- 41_frame_requests.md section 1 (R121, R71): a frame with any other function code that passes the acceptance checks is
answered with error code 0x01 at once.
The schedule and the queue are the model's (logs 3 and 4). -/
def Obligations.UnsupportedCodesGetIllegalFunction : Prop :=
  ∀ (s : State) (fc a1 a0 q1 q0 : Byte) (rest : List (List Byte)), s.fault = none → nextAgent s = .busAgent →
    s.bus = .idle → s.busIn = appendCrc [s.cfg.devAddr, fc, a1, a0, q1, q0] :: rest →
    fc.toNat ∉ [1, 2, 3, 4, 5, 6, 15, 16] →
    step s = .next { s with
      sched := s.sched.tail, busIn := rest,
      busOut := s.busOut ++ [appendCrc [s.cfg.devAddr, fc ||| 0x80#8, 0x01#8]] }

/-- 41_frame_requests.md section 4 (R136, D6 to D9): the checks of a request in flight, in their order, and the error
frame each failing check gives.
One store operation of a request is one step (R135, logs 5 and 6). -/
def Obligations.RequestChecksFailInOrder : Prop :=
  ∀ (s : State) (i : Instr) (r : RequestShape), requestShape i = some r → s.fault = none →
    let answer (code : Byte) : Host.Outcome State Fault Refusal :=
      .next { s with bus := .idle, busOut := s.busOut ++ [appendCrc [r.dev, r.fc ||| 0x80#8, code]] }
    (s.bus = .busy i .guard → (∀ key, readCell s r.cls key = none) → exec i s = answer 0x02#8) ∧
    (s.bus = .busy i .guard → (∃ key, readCell s r.cls key ≠ none) → r.quantityOk = false → exec i s = answer 0x03#8) ∧
    (s.bus = .busy i .guard → (∃ key, readCell s r.cls key ≠ none) → r.quantityOk = true →
      exec i s = .next { s with bus := .busy i .validate }) ∧
    (s.bus = .busy i .validate → ¬ (r.count ≠ 0 ∧ rangePresent s r.cls r.addr.toNat r.count) →
      exec i s = answer 0x02#8) ∧
    (s.bus = .busy i .get → Stage.get ∈ r.stages → ¬ (r.count ≠ 0 ∧ rangePresent s r.cls r.addr.toNat r.count) →
      exec i s = answer 0x02#8)

/-- 60_exceptions.md section 3, 41_frame_requests.md section 3 (R134, R226): in a state that meets the invariant the bus
agent's turn always has a next state, and never raises a configuration fault.
That a turn reads a chunk is the model's (log 18), and so is the next state of a turn with nothing to do (log 28). -/
def Obligations.BusTurnsNeverFault : Prop :=
  ∀ s : State, Inv s → s.fault = none → nextAgent s = .busAgent → ∃ t, step s = .next t ∧ t.fault = none

/-- 41_frame_requests.md section 3, 60_exceptions.md section 2 (R66 to R69, R133, R222, R223): a step emits at most one
frame; its CRC is right; if bit 7 of its function code is set it is a 5-byte error frame with code 1, 2 or 3; and in a
state that meets the invariant any other frame is a read response of `5 + BC` bytes or a write response of 8. -/
def Obligations.EveryEmittedFrameIsAWellFormedResponse : Prop :=
  ∀ s t : State, step s = .next t →
    t.busOut = s.busOut ∨
    ∃ f, t.busOut = s.busOut ++ [f] ∧ responseCrcOk f = true ∧
      ((f.getD 1 0#8).getLsbD 7 = true → f.length = 5 ∧ (f.getD 2 0#8) ∈ [0x01#8, 0x02#8, 0x03#8]) ∧
      (Inv s → (f.getD 1 0#8).getLsbD 7 = false →
        ((f.getD 1 0#8) ∈ [1#8, 2#8, 3#8, 4#8] ∧ 1 ≤ (f.getD 2 0#8).toNat ∧ f.length = 5 + (f.getD 2 0#8).toNat) ∨
        ((f.getD 1 0#8) ∈ [5#8, 6#8, 15#8, 16#8] ∧ f.length = 8))

/-- 20_memory.md section 4, 60_exceptions.md section 4 (R58, R230, R26): the bus agent writes no cell of a class other
than CO and HR, no cache, nothing of the local port, and never clears `changed`.
The premise says that what the bus agent holds in flight is a request; every step keeps it. -/
def Obligations.BusTurnsReachCoilsAndHoldingRegistersOnly : Prop :=
  ∀ s t : State, busConsistent s → nextAgent s = .busAgent → step s = .next t →
    (∀ k key, k ≠ 0 → k ≠ 2 → readCell t k key = readCell s k key) ∧
    t.caches = s.caches ∧ t.localIn = s.localIn ∧ t.localOut = s.localOut ∧ t.nanDraws = s.nanDraws ∧
    (s.store.changed = true → t.store.changed = true)

/-- 10_state.md section 5 (R26, D44): the bus agent cannot learn anything of the entity caches: with other caches its turn
has the same outcome.
The premise says that what the bus agent holds in flight is a request; every step keeps it. -/
def Obligations.BusTurnsDoNotSeeTheCaches : Prop :=
  ∀ (s : State) (cs : List Cache), busConsistent s → nextAgent s = .busAgent →
    step { s with caches := cs } =
      match step s with
      | .next t => .next { t with caches := cs }
      | .fault r => .fault r
      | .refused r => .refused r

/-- 10_state.md section 3 (R24): `changed` falls only by L_CLEAR_CHANGED or L_TAKE_CHANGED.
The premise says that what the bus agent holds in flight is a request; every step keeps it. -/
def Obligations.ChangedFallsOnlyWhenCleared : Prop :=
  ∀ s t : State, busConsistent s → step s = .next t → s.store.changed = true → t.store.changed = false →
    nextAgent s = .localAgent ∧ ∃ c rest, s.localIn = c :: rest ∧
      (decodeCommand c = .ok .lClearChanged ∨ decodeCommand c = .ok .lTakeChanged)

/-- 20_memory.md section 2, 90_conflicts.md C2 (R45, R46, D11): a step after which some cell differs leaves `changed` set,
unless it performed L_RESET.
The premise says that what the bus agent holds in flight is a request; every step keeps it. -/
def Obligations.EveryWriteLatchesChanged : Prop :=
  ∀ (s t : State) (k key : Nat), busConsistent s → step s = .next t → readCell t k key ≠ readCell s k key →
    t.store.changed = true ∨
    (nextAgent s = .localAgent ∧ ∃ c rest, s.localIn = c :: rest ∧ decodeCommand c = .ok .lReset)

/-! ### The request frames -/

/-- 41_frame_requests.md section 2 (R124, R125, D6): a bit read of 1 to 2040 present cells runs to its response, one store
operation a step, and the response carries the truth of each cell.
Taking the frame is a step of its own (log 5). -/
def Obligations.BitReadsAnswerTheStoredBits : Prop :=
  ∀ (s : State) (i : Instr) (dev fc : Byte) (k : Nat) (addr q crc : Word) (bits : List Bool),
    (i = .readCoils dev addr q crc ∧ fc = 1#8 ∧ k = 0 ∨ i = .readDiscreteInputs dev addr q crc ∧ fc = 2#8 ∧ k = 1) →
    takes i s → 1 ≤ q.toNat → q.toNat ≤ 2040 → bits.length = q.toNat →
    (∀ j < q.toNat, ∃ w, readCell s k (addr.toNat + s.cfg.addrOffset + j) = some w ∧ bits[j]? = some (w != 0#16)) →
    exec i s = .next { s with bus := .busy i .guard } ∧
    exec i { s with bus := .busy i .guard } = .next { s with bus := .busy i .validate } ∧
    exec i { s with bus := .busy i .validate } = .next { s with bus := .busy i .get } ∧
    exec i { s with bus := .busy i .get } =
      .next { s with busOut := s.busOut ++ [appendCrc ([dev, fc, BitVec.ofNat 8 ((q.toNat + 7) / 8)] ++ packBits bits)] }

/-- 41_frame_requests.md section 2 (R126, R127, D6): a register read of 1 to 127 present cells runs to its response, which
carries the words big-endian.
Taking the frame is a step of its own (log 5). -/
def Obligations.RegisterReadsAnswerTheStoredWords : Prop :=
  ∀ (s : State) (i : Instr) (dev fc : Byte) (k : Nat) (addr q crc : Word) (ws : List Word),
    (i = .readHoldingRegisters dev addr q crc ∧ fc = 3#8 ∧ k = 2 ∨
      i = .readInputRegisters dev addr q crc ∧ fc = 4#8 ∧ k = 3) →
    takes i s → 1 ≤ q.toNat → q.toNat ≤ 127 → ws.length = q.toNat → rangeHolds s k addr.toNat ws →
    exec i s = .next { s with bus := .busy i .guard } ∧
    exec i { s with bus := .busy i .guard } = .next { s with bus := .busy i .validate } ∧
    exec i { s with bus := .busy i .validate } = .next { s with bus := .busy i .get } ∧
    exec i { s with bus := .busy i .get } =
      .next { s with busOut := s.busOut ++ [appendCrc ([dev, fc, BitVec.ofNat 8 (2 * q.toNat)] ++ packWords ws)] }

/-- 41_frame_requests.md section 2 (R128, D10, D11): a single-coil write to a present coil stores 1 for any nonzero data
word and 0 for 0, sets `changed`, and echoes what it reads back in the form COIL_ECHO asks for.
Taking the frame is a step of its own (log 5). -/
def Obligations.SingleCoilWriteStoresAndEchoes : Prop :=
  ∀ (s : State) (dev : Byte) (addr q crc : Word),
    let i : Instr := .writeSingleCoil dev addr q crc
    let stored : Word := if q = 0#16 then 0#16 else 1#16
    let echo : Word := match s.cfg.coilEcho with
      | .std => if q = 0#16 then 0x0000#16 else 0xFF00#16
      | .raw => q
      | .word => stored
    takes i s → storeShaped s → rangePresent s 0 addr.toNat 1 →
    ∃ t, exec i s = .next { s with bus := .busy i .guard } ∧
      exec i { s with bus := .busy i .guard } = .next { s with bus := .busy i .validate } ∧
      exec i { s with bus := .busy i .validate } = .next { s with bus := .busy i .set } ∧
      exec i { s with bus := .busy i .set } = .next t ∧
      t = { s with store := t.store, bus := .busy i .get } ∧
      rangeHolds t 0 addr.toNat [stored] ∧ sameCellsOutside s t 0 addr.toNat 1 ∧ t.store.changed = true ∧
      exec i t = .next { t with
        bus := .idle
        busOut := s.busOut ++ [appendCrc [dev, 5#8, addr.extractLsb' 8 8, addr.extractLsb' 0 8,
          echo.extractLsb' 8 8, echo.extractLsb' 0 8]] }

/-- 41_frame_requests.md section 2 (R129): a single-register write to a present register stores the data word, sets
`changed`, and, with nothing in between, answers with the request itself.
Taking the frame is a step of its own (log 5). -/
def Obligations.SingleRegisterWriteStoresAndEchoesTheRequest : Prop :=
  ∀ (s : State) (dev : Byte) (addr q crc : Word),
    let i : Instr := .writeSingleRegister dev addr q crc
    takes i s → storeShaped s → rangePresent s 2 addr.toNat 1 →
    ∃ t, exec i s = .next { s with bus := .busy i .guard } ∧
      exec i { s with bus := .busy i .guard } = .next { s with bus := .busy i .validate } ∧
      exec i { s with bus := .busy i .validate } = .next { s with bus := .busy i .set } ∧
      exec i { s with bus := .busy i .set } = .next t ∧
      t = { s with store := t.store, bus := .busy i .get } ∧
      rangeHolds t 2 addr.toNat [q] ∧ sameCellsOutside s t 2 addr.toNat 1 ∧ t.store.changed = true ∧
      exec i t = .next { t with bus := .idle, busOut := s.busOut ++ [frameBytes i] }

/-- 41_frame_requests.md section 2 (R130, R73, D7, D11): a multiple-coil write with the right byte count to present coils
stores bit `8i + j` of the payload at coil `addr + 8i + j` in one store operation, sets `changed` and answers with the
address and count.
Taking the frame is a step of its own (log 5). -/
def Obligations.MultipleCoilWriteStoresItsBits : Prop :=
  ∀ (s : State) (dev : Byte) (addr q crc : Word) (payload : List Byte),
    let i : Instr := .writeMultipleCoils dev addr q payload crc
    takes i s → storeShaped s → 1 ≤ q.toNat → payload.length = (q.toNat + 7) / 8 →
    rangePresent s 0 addr.toNat q.toNat →
    ∃ t, exec i s = .next { s with bus := .busy i .guard } ∧
      exec i { s with bus := .busy i .guard } = .next { s with bus := .busy i .validate } ∧
      exec i { s with bus := .busy i .validate } = .next { s with bus := .busy i .set } ∧
      exec i { s with bus := .busy i .set } = .next t ∧
      t = { s with store := t.store, busOut := s.busOut ++ [appendCrc [dev, 15#8, addr.extractLsb' 8 8,
        addr.extractLsb' 0 8, q.extractLsb' 8 8, q.extractLsb' 0 8]] } ∧
      (∀ n m, m < 8 → 8 * n + m < q.toNat → readCell t 0 (addr.toNat + s.cfg.addrOffset + (8 * n + m)) =
        some (if (payload.getD n 0#8).getLsbD m then 1#16 else 0#16)) ∧
      sameCellsOutside s t 0 addr.toNat q.toNat ∧ t.store.changed = true

/-- 41_frame_requests.md section 2 (R131, R73, D7): a multiple-register write with the right byte count to present
registers stores payload bytes `2j` and `2j + 1` as the word at register `addr + j` in one store operation, sets `changed`
and answers with the address and count.
Taking the frame is a step of its own (log 5). -/
def Obligations.MultipleRegisterWriteStoresItsWords : Prop :=
  ∀ (s : State) (dev : Byte) (addr q crc : Word) (payload : List Byte),
    let i : Instr := .writeMultipleRegisters dev addr q payload crc
    takes i s → storeShaped s → 1 ≤ q.toNat → payload.length = 2 * q.toNat →
    rangePresent s 2 addr.toNat q.toNat →
    ∃ t, exec i s = .next { s with bus := .busy i .guard } ∧
      exec i { s with bus := .busy i .guard } = .next { s with bus := .busy i .validate } ∧
      exec i { s with bus := .busy i .validate } = .next { s with bus := .busy i .set } ∧
      exec i { s with bus := .busy i .set } = .next t ∧
      t = { s with store := t.store, busOut := s.busOut ++ [appendCrc [dev, 16#8, addr.extractLsb' 8 8,
        addr.extractLsb' 0 8, q.extractLsb' 8 8, q.extractLsb' 0 8]] } ∧
      (∀ j < q.toNat, ∃ h l, payload[2 * j]? = some h ∧ payload[2 * j + 1]? = some l ∧
        readCell t 2 (addr.toNat + s.cfg.addrOffset + j) = some (h ++ l)) ∧
      sameCellsOutside s t 2 addr.toNat q.toNat ∧ t.store.changed = true

/-- The frame of the four read requests (R124 to R127, "Flags written: none"): a step of one changes nothing but the bus
port. -/
def Obligations.ReadRequestsChangeOnlyTheBusPort : Prop :=
  ∀ (s t : State) (i : Instr) (dev : Byte) (addr q crc : Word),
    (i = .readCoils dev addr q crc ∨ i = .readDiscreteInputs dev addr q crc ∨
      i = .readHoldingRegisters dev addr q crc ∨ i = .readInputRegisters dev addr q crc) →
    exec i s = .next t → t = { s with bus := t.bus, busIn := t.busIn, busOut := t.busOut }

/-- The frame of the four write requests (R128 to R131, R45): a step of one changes nothing but the bus port, `changed` and the
cells of its own range; only where the set would have to write a new key of a class that cannot grow does it change the fault
register, to PARAM_ERROR, and then nothing else; `changed` is never cleared. -/
def Obligations.WriteRequestsChangeOnlyTheirRange : Prop :=
  ∀ (s t : State) (i : Instr) (r : RequestShape), requestShape i = some r → Stage.set ∈ r.stages → exec i s = .next t →
    let setFails : Prop := s.bus = .busy i .set ∧ growable s.cfg r.cls = false ∧
      ¬ rangePresent s r.cls r.addr.toNat r.writes.length
    t = { s with store := t.store, fault := t.fault, bus := t.bus, busIn := t.busIn, busOut := t.busOut } ∧
    sameCellsOutside s t r.cls r.addr.toNat r.writes.length ∧
    (s.store.changed = true → t.store.changed = true) ∧
    (s.bus ≠ .busy i .set → t.store = s.store) ∧
    (setFails → t = { s with fault := some .paramError }) ∧ (¬ setFails → t.fault = s.fault)

/-! ### The local store port -/

/-- 42_store_port.md (R151, D5): L_VALIDATE returns true exactly when the count is not 0 and the class holds every key of the
range, and changes nothing else. -/
def Obligations.ValidateAnswersWhetherTheRangeIsPresent : Prop :=
  ∀ (s : State) (k a n : Nat), s.fault = none → k < (classesOf s.cfg).length →
    ∃ b, exec (.lValidate k a n) s = .next { s with localOut := s.localOut ++ [.bool b] } ∧
      (b = true ↔ n ≠ 0 ∧ rangePresent s k a n)

/-- 42_store_port.md (R152, D5, D15): a range wholly present is returned in ascending key order and nothing changes; any
other range, or a count of 0, raises GET_INVALID. -/
def Obligations.GetReturnsTheRangeOrFaults : Prop :=
  ∀ (s : State) (k a n : Nat), s.fault = none → k < (classesOf s.cfg).length →
    (n ≠ 0 → rangePresent s k a n → ∃ ws, ws.length = n ∧ rangeHolds s k a ws ∧
      exec (.lGet k a n) s = .next { s with localOut := s.localOut ++ [.words ws] }) ∧
    (¬ (n ≠ 0 ∧ rangePresent s k a n) → exec (.lGet k a n) s = .next { s with fault := some .getInvalid })

/-- 42_store_port.md (R153, D11, D16): a set whose keys are all present, or in a class that can grow, stores its words,
leaves every other cell, and sets `changed` unless the list is empty; any other set raises PARAM_ERROR and writes
nothing. -/
def Obligations.SetStoresItsWordsOrFaults : Prop :=
  ∀ (s : State) (k a : Nat) (vals : List Word), s.fault = none → storeShaped s → k < (classesOf s.cfg).length →
    (rangePresent s k a vals.length ∨ growable s.cfg k = true →
      ∃ t, exec (.lSet k a vals) s = .next t ∧
        t = { s with store := t.store, localOut := s.localOut ++ [.ok] } ∧ rangeHolds t k a vals ∧
        sameCellsOutside s t k a vals.length ∧ (t.store.changed = true ↔ s.store.changed = true ∨ vals ≠ [])) ∧
    (¬ rangePresent s k a vals.length → growable s.cfg k = false →
      exec (.lSet k a vals) s = .next { s with fault := some .paramError })

/-- 42_store_port.md, 70_reset_and_hazards.md section 1 (R154, R241, D12, D32): L_RESET restores every class to its
snapshot and leaves `changed`, the caches, the bus state and the fault register.
The result `done` is the model's (log 21). -/
def Obligations.ResetRestoresEverySnapshot : Prop :=
  ∀ s : State, s.fault = none → ∃ t, exec .lReset s = .next t ∧
    t = { s with store := t.store, localOut := s.localOut ++ [.done] } ∧ t.store.changed = s.store.changed ∧
    t.store.mem.length = (classesOf s.cfg).length ∧
    ∀ k key, readCell t k key = ClassMap.find ((snapshotStore s.cfg).map k) key

/-- 42_store_port.md, 20_memory.md section 2 (R48, R155, R156, R157, D13): reading `changed` changes nothing but the results
returned; clearing it leaves everything else; taking it returns the old value and clears it in one operation.
The result `done` of a clear is the model's (log 21). -/
def Obligations.ChangedIsReadClearedAndTaken : Prop :=
  ∀ s : State, s.fault = none →
    exec .lReadChanged s = .next { s with localOut := s.localOut ++ [.bool s.store.changed] } ∧
    exec .lClearChanged s = .next { s with
      store := { mem := s.store.mem, changed := false }, localOut := s.localOut ++ [.done] } ∧
    exec .lTakeChanged s = .next { s with
      store := { mem := s.store.mem, changed := false }, localOut := s.localOut ++ [.bool s.store.changed] }

/-- 30_encoding.md section 5 (R76, D24): an absent class identifier or entity index is refused by every operation that
takes one. -/
def Obligations.AbsentOperandsAreRefused : Prop :=
  ∀ s : State, s.fault = none →
    (∀ k a n vals, (classesOf s.cfg).length ≤ k →
      exec (.lValidate k a n) s = .refused (.absentClass k) ∧ exec (.lGet k a n) s = .refused (.absentClass k) ∧
      exec (.lSet k a vals) s = .refused (.absentClass k)) ∧
    (∀ (e : Nat) (v : Value), s.cfg.entities.length ≤ e → ∀ i : Instr,
      i ∈ [.eIntRead e, .eIntCached e, .eIntWrite e v, .eBoolRead e, .eBoolCached e, .eBoolWrite e v, .eFloatRead e,
        .eFloatCached e, .eFloatWrite e v, .eArrayRead e, .eArrayCached e, .eArrayWrite e v] →
      exec i s = .refused (.absentEntity e))

/-! ### Entities -/

/-- 43_entities.md section 2 (R176, R179, R185, D18): a read of an INT, BOOL or ARRAY entity returns what the store holds
and the cache takes it; nothing else changes. -/
def Obligations.EntityReadsReturnTheStoreAndRefreshTheCache : Prop :=
  ∀ (s : State) (e : Nat) (d : EntityDesc) (ws : List Word), s.fault = none → s.cfg.entities[e]? = some d →
    ws.length = widthOf d → ws ≠ [] → rangeHolds s d.cls d.addr ws →
    (∀ w, d.variant = .int → ws = [w] → exec (.eIntRead e) s =
      .next { s with caches := s.caches.set e (.word w), localOut := s.localOut ++ [.word w] }) ∧
    (∀ w, d.variant = .bool → ws = [w] → exec (.eBoolRead e) s =
      .next { s with caches := s.caches.set e (.word w), localOut := s.localOut ++ [.bool (w != 0#16)] }) ∧
    (d.variant = .array → exec (.eArrayRead e) s =
      .next { s with caches := s.caches.set e (.words ws), localOut := s.localOut ++ [.words ws] })

/-- 43_entities.md section 2 (R182, D18, D20): a read of a FLOAT entity caches the 32-bit encoding at its two cells, high
word first, and returns it rounded or widened as the precision asks; for a NaN the result is some NaN (93 I19, log 10). -/
def Obligations.FloatReadsReturnTheRoundedStore : Prop :=
  ∀ (s : State) (e : Nat) (d : EntityDesc) (w0 w1 : Word), s.fault = none → s.cfg.entities[e]? = some d →
    d.variant = .float → rangeHolds s d.cls d.addr [w0, w1] →
    ∃ (t : State) (y : Bits64), exec (.eFloatRead e) s = .next t ∧
      t = { s with caches := s.caches.set e (.float (w0 ++ w1)), localOut := s.localOut ++ [.float y],
                   nanDraws := t.nanDraws } ∧
      (isNaN32 (w0 ++ w1) = true → isNaN64 y = true) ∧
      (isNaN32 (w0 ++ w1) = false → t.nanDraws = s.nanDraws ∧
        (0 < d.precision → y = roundDec (w0 ++ w1) d.precision.toNat) ∧
        (d.precision ≤ 0 → y = widen64 (w0 ++ w1)))

/-- 43_entities.md section 2 (R177, R180, R183, R186, D20): the cached value of an entity is returned without a store access
and only the results change; a FLOAT one is rounded or widened as a read is, and for a NaN the result is some NaN (93 I19,
log 10). -/
def Obligations.CachedValuesAreReturnedWithoutStoreAccess : Prop :=
  ∀ (s : State) (e : Nat) (d : EntityDesc), s.fault = none → s.cfg.entities[e]? = some d →
    (∀ w, d.variant = .int → s.caches[e]? = some (.word w) →
      exec (.eIntCached e) s = .next { s with localOut := s.localOut ++ [.word w] }) ∧
    (∀ w, d.variant = .bool → s.caches[e]? = some (.word w) →
      exec (.eBoolCached e) s = .next { s with localOut := s.localOut ++ [.bool (w != 0#16)] }) ∧
    (∀ ws, d.variant = .array → s.caches[e]? = some (.words ws) →
      exec (.eArrayCached e) s = .next { s with localOut := s.localOut ++ [.words ws] }) ∧
    (∀ u, d.variant = .float → s.caches[e]? = some (.float u) →
      ∃ (t : State) (y : Bits64), exec (.eFloatCached e) s = .next t ∧
        t = { s with localOut := s.localOut ++ [.float y], nanDraws := t.nanDraws } ∧
        (isNaN32 u = true → isNaN64 y = true) ∧
        (isNaN32 u = false → t.nanDraws = s.nanDraws ∧
          (0 < d.precision → y = roundDec u d.precision.toNat) ∧ (d.precision ≤ 0 → y = widen64 u)))

/-- 43_entities.md section 2 and R189 (R178, R181, R184, R187): a write whose representation equals the cache returns
UNCHANGED and touches neither the store nor `changed`, whatever the store holds. -/
def Obligations.WritesOfTheCachedValueAreSuppressed : Prop :=
  ∀ (s : State) (e : Nat) (d : EntityDesc), s.fault = none → s.cfg.entities[e]? = some d →
    (∀ n < 0x10000, d.variant = .int → s.caches[e]? = some (.word (BitVec.ofNat 16 n)) →
      exec (.eIntWrite e (.nat n)) s = .next { s with localOut := s.localOut ++ [.unchanged] }) ∧
    (∀ b, d.variant = .bool → s.caches[e]? = some (.word (if b then 1#16 else 0#16)) →
      exec (.eBoolWrite e (.bool b)) s = .next { s with localOut := s.localOut ++ [.unchanged] }) ∧
    (∀ u, d.variant = .float → s.caches[e]? = some (.float u) →
      exec (.eFloatWrite e (.float u)) s = .next { s with localOut := s.localOut ++ [.unchanged] }) ∧
    (∀ ws : List Word, d.variant = .array → ws.length = d.len → s.caches[e]? = some (.words ws) →
      exec (.eArrayWrite e (.list (ws.map BitVec.toNat))) s = .next { s with localOut := s.localOut ++ [.unchanged] })

/-- 43_entities.md section 2 (R175, R178, R181, R184, R187, D11, D19): a write of another representation than the cached
one to cells that are present stores the words of the representation in one store operation, caches it, sets `changed`
and returns CHANGED; no other cell changes. -/
def Obligations.OtherWritesAreStoredAndCached : Prop :=
  ∀ (s : State) (e : Nat) (d : EntityDesc) (i : Instr) (c : Cache) (ws : List Word), s.fault = none → storeShaped s →
    s.cfg.entities[e]? = some d →
    ((d.variant = .int ∧ ∃ n < 0x10000, i = .eIntWrite e (.nat n) ∧ c = .word (BitVec.ofNat 16 n) ∧
        ws = [BitVec.ofNat 16 n]) ∨
      (d.variant = .bool ∧ ∃ b : Bool, i = .eBoolWrite e (.bool b) ∧ c = .word (if b then 1#16 else 0#16) ∧
        ws = [if b then 1#16 else 0#16]) ∨
      (d.variant = .float ∧ ∃ u : Bits32, i = .eFloatWrite e (.float u) ∧ c = .float u ∧
        ws = [u.extractLsb' 16 16, u.extractLsb' 0 16]) ∨
      (d.variant = .array ∧ d.len ≠ 0 ∧ ws.length = d.len ∧ i = .eArrayWrite e (.list (ws.map BitVec.toNat)) ∧
        c = .words ws)) →
    s.caches[e]? ≠ some c → rangePresent s d.cls d.addr (widthOf d) →
    ∃ t, exec i s = .next t ∧
      t = { s with store := t.store, caches := s.caches.set e c, localOut := s.localOut ++ [.changed] } ∧
      rangeHolds t d.cls d.addr ws ∧ sameCellsOutside s t d.cls d.addr (widthOf d) ∧ t.store.changed = true

/-- 43_entities.md section 1 (R173, R175, D22): an operation for another variant, and a write of a value without the
variant's representation, raise TYPE_ERROR and change nothing else. -/
def Obligations.WrongVariantsAndValuesRaiseTypeError : Prop :=
  ∀ (s : State) (e : Nat) (d : EntityDesc) (v : Value), s.fault = none → s.cfg.entities[e]? = some d →
    let typeError : Host.Outcome State Fault Refusal := .next { s with fault := some .typeError }
    (d.variant ≠ .int →
      exec (.eIntRead e) s = typeError ∧ exec (.eIntCached e) s = typeError ∧ exec (.eIntWrite e v) s = typeError) ∧
    (d.variant ≠ .bool →
      exec (.eBoolRead e) s = typeError ∧ exec (.eBoolCached e) s = typeError ∧ exec (.eBoolWrite e v) s = typeError) ∧
    (d.variant ≠ .float →
      exec (.eFloatRead e) s = typeError ∧ exec (.eFloatCached e) s = typeError ∧ exec (.eFloatWrite e v) s = typeError) ∧
    (d.variant ≠ .array →
      exec (.eArrayRead e) s = typeError ∧ exec (.eArrayCached e) s = typeError ∧ exec (.eArrayWrite e v) s = typeError) ∧
    ((∀ n, v = .nat n → 0x10000 ≤ n) → exec (.eIntWrite e v) s = typeError) ∧
    ((∀ b, v ≠ .bool b) → exec (.eBoolWrite e v) s = typeError) ∧
    ((∀ u, v ≠ .float u) → exec (.eFloatWrite e v) s = typeError) ∧
    ((∀ ns, v = .list ns → ns.length ≠ d.len ∨ ∃ n ∈ ns, 0x10000 ≤ n) → exec (.eArrayWrite e v) s = typeError)

/-- 43_entities.md section 1 (R172), 70_reset_and_hazards.md section 1 (R240), 20_memory.md section 2 (R45, R46): the
cells of a constructed entity lie in the snapshot, and no set or reset takes a key of the snapshot away. So in a state
that meets the invariant an entity operation for the entity's own variant has a next state without a fault, a write
when its value has the variant's representation: GET_INVALID and PARAM_ERROR cannot arise. -/
def Obligations.EntityOperationsDoNotFaultOnConstructedEntities : Prop :=
  ∀ (s : State) (e : Nat) (d : EntityDesc) (v : Value) (i : Instr), Inv s → s.fault = none →
    s.cfg.entities[e]? = some d → reprOf d v ≠ none →
    ((d.variant = .int ∧ i ∈ [.eIntRead e, .eIntCached e, .eIntWrite e v]) ∨
      (d.variant = .bool ∧ i ∈ [.eBoolRead e, .eBoolCached e, .eBoolWrite e v]) ∨
      (d.variant = .float ∧ i ∈ [.eFloatRead e, .eFloatCached e, .eFloatWrite e v]) ∨
      (d.variant = .array ∧ i ∈ [.eArrayRead e, .eArrayCached e, .eArrayWrite e v])) →
    ∃ t, exec i s = .next t ∧ t.fault = none

/-- The frame of the local operations (42_store_port.md, 43_entities.md): none of them touches the configuration, the bus
port, the transport, the schedule or the commands waiting; only L_SET, L_RESET, L_CLEAR_CHANGED, L_TAKE_CHANGED and the
entity writes touch the store, and only an entity operation touches a cache, its own. -/
def Obligations.LocalOperationsKeepTheirFrame : Prop :=
  ∀ (s t : State) (i : Instr), isRequest i = false → exec i s = .next t →
    t = { s with store := t.store, fault := t.fault, caches := t.caches, localOut := t.localOut,
                 nanDraws := t.nanDraws } ∧
    ((∀ k a vals, i ≠ .lSet k a vals) → i ≠ .lReset → i ≠ .lClearChanged → i ≠ .lTakeChanged →
      (∀ e v, i ≠ .eIntWrite e v ∧ i ≠ .eBoolWrite e v ∧ i ≠ .eFloatWrite e v ∧ i ≠ .eArrayWrite e v) →
      t.store = s.store) ∧
    (∀ e' : Nat, (∀ e v, i ∈ [.eIntRead e, .eIntWrite e v, .eBoolRead e, .eBoolWrite e v, .eFloatRead e,
        .eFloatWrite e v, .eArrayRead e, .eArrayWrite e v] → e ≠ e') → t.caches[e']? = s.caches[e']?)

/-! ### Two agents -/

/-- 70_reset_and_hazards.md section 2 (R246, D10, D14): the echo of codes 5 and 6 comes from a read of its own: a local write
to the cell between the request's set and that read-back makes the echo show the local agent's word, for code 5 in the form
COIL_ECHO asks for (RAW repeats the request's data whatever the cell holds). -/
def Obligations.EchoShowsALocalWriteInBetween : Prop :=
  ∀ (s s1 s2 : State) (i : Instr) (dev fc : Byte) (k : Nat) (addr q crc w echo : Word),
    (i = .writeSingleRegister dev addr q crc ∧ fc = 6#8 ∧ k = 2 ∧ echo = w ∨
      i = .writeSingleCoil dev addr q crc ∧ fc = 5#8 ∧ k = 0 ∧ echo = (match s.cfg.coilEcho with
        | .std => if w = 0#16 then 0x0000#16 else 0xFF00#16
        | .raw => q
        | .word => w)) →
    s.fault = none → storeShaped s → s.bus = .busy i .set → rangePresent s k addr.toNat 1 →
    exec i s = .next s1 → exec (.lSet k addr.toNat [w]) s1 = .next s2 →
    exec i s2 = .next { s2 with
      bus := .idle
      busOut := s.busOut ++ [appendCrc [dev, fc, addr.extractLsb' 8 8, addr.extractLsb' 0 8,
        echo.extractLsb' 8 8, echo.extractLsb' 0 8]] }

/-- 70_reset_and_hazards.md section 2 (R247, D13): a bus write between L_READ_CHANGED and L_CLEAR_CHANGED is lost to the
flag, and is not lost to L_TAKE_CHANGED.
The result `done` of a clear is the model's (log 21). -/
def Obligations.ReadThenClearLosesABusWrite : Prop :=
  ∀ (s s1 s2 : State) (i : Instr) (r : RequestShape), s.fault = none → s.store.changed = false →
    requestShape i = some r → r.writes ≠ [] → s.bus = .busy i .set → Stage.set ∈ r.stages →
    rangePresent s r.cls r.addr.toNat r.writes.length →
    exec .lReadChanged s = .next s1 → exec i s1 = .next s2 →
    s1.localOut = s.localOut ++ [.bool false] ∧ s2.store.changed = true ∧
    (∃ s3, exec .lClearChanged s2 = .next s3 ∧ s3.store.changed = false ∧ s3.localOut = s1.localOut ++ [.done]) ∧
    (∃ s3, exec .lTakeChanged s2 = .next s3 ∧ s3.store.changed = false ∧ s3.localOut = s1.localOut ++ [.bool true])

/-- 41_frame_requests.md section 3, 70_reset_and_hazards.md section 2 (R134, R248, D15): an L_RESET that removes a key added by
growth just before a request's get, after the range was validated, makes the request answer 0x02 instead of faulting: for
the four reads that is between validation and get, for the two single writes between the set and the read-back. -/
def Obligations.ResetBetweenValidateAndGetAnswersAddressError : Prop :=
  ∀ (s s1 s2 : State) (i : Instr) (r : RequestShape) (key : Nat), requestShape i = some r →
    s.fault = none → exec i s = .next s1 → s1.bus = .busy i .get →
    exec .lReset s1 = .next s2 → r.addr.toNat + s.cfg.addrOffset ≤ key →
    key < r.addr.toNat + s.cfg.addrOffset + r.count → ¬ keyInSnapshot s.cfg r.cls key →
    exec i s2 = .next { s2 with
      bus := .idle, busOut := s.busOut ++ [appendCrc [r.dev, r.fc ||| 0x80#8, 0x02#8]] }

/-- 70_reset_and_hazards.md section 2 (R245): whatever the bus agent does in one turn, a local write of the value still in
an INT entity's cache is suppressed and leaves the bus agent's word in the store.
The premise says that what the bus agent holds in flight is a request; every step keeps it. -/
def Obligations.StaleCacheKeepsTheBusWord : Prop :=
  ∀ (s s1 : State) (e : Nat) (d : EntityDesc) (n : Nat), s.fault = none → busConsistent s → s.cfg.entities[e]? = some d →
    d.variant = .int → n < 0x10000 → s.caches[e]? = some (.word (BitVec.ofNat 16 n)) → nextAgent s = .busAgent →
    step s = .next s1 → s1.fault = none →
    exec (.eIntWrite e (.nat n)) s1 = .next { s1 with localOut := s1.localOut ++ [.unchanged] }

/-! ### The transport contract -/

/-- 45_framer_contract.md R202 to R206: what the transport does once a chunk has been appended. An empty buffer stays empty;
one that starts with another device's address is discarded whole; one for this device is kept while it has fewer than 8 bytes
or than the expected length; once that length is reached, the frame is handed over when it passes the frame check, and the
buffer is cleared either way.
That the transport is in the model, as environment, is log 18, and that it hands a frame over by an append to busIn log 4. -/
def Obligations.TransportFollowsItsFramingRules : Prop :=
  ∀ (s : State) (chunk buf : List Byte), s.fault = none → s.lineBuf ++ chunk = buf →
    let expected : Nat := if buf[1]? = some 15#8 ∨ buf[1]? = some 16#8 then 9 + (buf.getD 6 0#8).toNat else 8
    (buf = [] → receiveChunk chunk s = .next { s with lineBuf := [] }) ∧
    (buf ≠ [] → buf[0]? ≠ some s.cfg.devAddr → receiveChunk chunk s = .next { s with lineBuf := [] }) ∧
    (buf[0]? = some s.cfg.devAddr → buf.length < 8 → receiveChunk chunk s = .next { s with lineBuf := buf }) ∧
    (buf[0]? = some s.cfg.devAddr → 8 ≤ buf.length → buf.length < expected →
      receiveChunk chunk s = .next { s with lineBuf := buf }) ∧
    (buf[0]? = some s.cfg.devAddr → 8 ≤ buf.length → expected ≤ buf.length → frameCheck (buf.take expected) = true →
      receiveChunk chunk s = .next { s with lineBuf := [], busIn := s.busIn ++ [buf.take expected] }) ∧
    (buf[0]? = some s.cfg.devAddr → 8 ≤ buf.length → expected ≤ buf.length → frameCheck (buf.take expected) = false →
      receiveChunk chunk s = .next { s with lineBuf := [] })

/-- 45_framer_contract.md (R201, R204 to R206): a frame the bus port accepts is handed over whole, however it is split into
two chunks, and the buffer is then empty.
That the transport is in the model, as environment, is log 18, and that it hands a frame over by an append to busIn log 4. -/
def Obligations.TransportHandsOverASplitFrame : Prop :=
  ∀ (s : State) (f first second : List Byte), s.fault = none → s.lineBuf = [] → accepts s.cfg f = true →
    f = first ++ second → second ≠ [] →
    ∃ s1, receiveChunk first s = .next s1 ∧ s1 = { s with lineBuf := first } ∧
      receiveChunk second s1 = .next { s with busIn := s.busIn ++ [f] }
end

