-- ==== Sys2Proof/Laws/State.lean ====
section
/-! SUPPORT. One lemma for each field of State under each named update: what it becomes, or that it is unchanged. -/

namespace Sys2Proof.Machine

@[simp] theorem State.withFault_cfg (s : State) (r : FaultReason) : (s.withFault r).cfg = s.cfg := rfl
@[simp] theorem State.withFault_store (s : State) (r : FaultReason) : (s.withFault r).store = s.store := rfl
@[simp] theorem State.withFault_fault (s : State) (r : FaultReason) : (s.withFault r).fault = some r := rfl
@[simp] theorem State.withFault_caches (s : State) (r : FaultReason) : (s.withFault r).caches = s.caches := rfl
@[simp] theorem State.withFault_bus (s : State) (r : FaultReason) : (s.withFault r).bus = s.bus := rfl
@[simp] theorem State.withFault_busIn (s : State) (r : FaultReason) : (s.withFault r).busIn = s.busIn := rfl
@[simp] theorem State.withFault_busOut (s : State) (r : FaultReason) : (s.withFault r).busOut = s.busOut := rfl
@[simp] theorem State.withFault_localIn (s : State) (r : FaultReason) : (s.withFault r).localIn = s.localIn := rfl
@[simp] theorem State.withFault_localOut (s : State) (r : FaultReason) : (s.withFault r).localOut = s.localOut := rfl
@[simp] theorem State.withFault_lineIn (s : State) (r : FaultReason) : (s.withFault r).lineIn = s.lineIn := rfl
@[simp] theorem State.withFault_lineBuf (s : State) (r : FaultReason) : (s.withFault r).lineBuf = s.lineBuf := rfl
@[simp] theorem State.withFault_sched (s : State) (r : FaultReason) : (s.withFault r).sched = s.sched := rfl
@[simp] theorem State.withFault_nanDraws (s : State) (r : FaultReason) : (s.withFault r).nanDraws = s.nanDraws := rfl

@[simp] theorem State.withStore_cfg (s : State) (st : Store) : (s.withStore st).cfg = s.cfg := rfl
@[simp] theorem State.withStore_store (s : State) (st : Store) : (s.withStore st).store = st := rfl
@[simp] theorem State.withStore_fault (s : State) (st : Store) : (s.withStore st).fault = s.fault := rfl
@[simp] theorem State.withStore_caches (s : State) (st : Store) : (s.withStore st).caches = s.caches := rfl
@[simp] theorem State.withStore_bus (s : State) (st : Store) : (s.withStore st).bus = s.bus := rfl
@[simp] theorem State.withStore_busIn (s : State) (st : Store) : (s.withStore st).busIn = s.busIn := rfl
@[simp] theorem State.withStore_busOut (s : State) (st : Store) : (s.withStore st).busOut = s.busOut := rfl
@[simp] theorem State.withStore_localIn (s : State) (st : Store) : (s.withStore st).localIn = s.localIn := rfl
@[simp] theorem State.withStore_localOut (s : State) (st : Store) : (s.withStore st).localOut = s.localOut := rfl
@[simp] theorem State.withStore_lineIn (s : State) (st : Store) : (s.withStore st).lineIn = s.lineIn := rfl
@[simp] theorem State.withStore_lineBuf (s : State) (st : Store) : (s.withStore st).lineBuf = s.lineBuf := rfl
@[simp] theorem State.withStore_sched (s : State) (st : Store) : (s.withStore st).sched = s.sched := rfl
@[simp] theorem State.withStore_nanDraws (s : State) (st : Store) : (s.withStore st).nanDraws = s.nanDraws := rfl

@[simp] theorem State.withBus_cfg (s : State) (b : BusState) : (s.withBus b).cfg = s.cfg := rfl
@[simp] theorem State.withBus_store (s : State) (b : BusState) : (s.withBus b).store = s.store := rfl
@[simp] theorem State.withBus_fault (s : State) (b : BusState) : (s.withBus b).fault = s.fault := rfl
@[simp] theorem State.withBus_caches (s : State) (b : BusState) : (s.withBus b).caches = s.caches := rfl
@[simp] theorem State.withBus_bus (s : State) (b : BusState) : (s.withBus b).bus = b := rfl
@[simp] theorem State.withBus_busIn (s : State) (b : BusState) : (s.withBus b).busIn = s.busIn := rfl
@[simp] theorem State.withBus_busOut (s : State) (b : BusState) : (s.withBus b).busOut = s.busOut := rfl
@[simp] theorem State.withBus_localIn (s : State) (b : BusState) : (s.withBus b).localIn = s.localIn := rfl
@[simp] theorem State.withBus_localOut (s : State) (b : BusState) : (s.withBus b).localOut = s.localOut := rfl
@[simp] theorem State.withBus_lineIn (s : State) (b : BusState) : (s.withBus b).lineIn = s.lineIn := rfl
@[simp] theorem State.withBus_lineBuf (s : State) (b : BusState) : (s.withBus b).lineBuf = s.lineBuf := rfl
@[simp] theorem State.withBus_sched (s : State) (b : BusState) : (s.withBus b).sched = s.sched := rfl
@[simp] theorem State.withBus_nanDraws (s : State) (b : BusState) : (s.withBus b).nanDraws = s.nanDraws := rfl

@[simp] theorem State.emit_cfg (s : State) (f : List Byte) : (s.emit f).cfg = s.cfg := rfl
@[simp] theorem State.emit_store (s : State) (f : List Byte) : (s.emit f).store = s.store := rfl
@[simp] theorem State.emit_fault (s : State) (f : List Byte) : (s.emit f).fault = s.fault := rfl
@[simp] theorem State.emit_caches (s : State) (f : List Byte) : (s.emit f).caches = s.caches := rfl
@[simp] theorem State.emit_bus (s : State) (f : List Byte) : (s.emit f).bus = .idle := rfl
@[simp] theorem State.emit_busIn (s : State) (f : List Byte) : (s.emit f).busIn = s.busIn := rfl
@[simp] theorem State.emit_busOut (s : State) (f : List Byte) : (s.emit f).busOut = s.busOut ++ [f] := rfl
@[simp] theorem State.emit_localIn (s : State) (f : List Byte) : (s.emit f).localIn = s.localIn := rfl
@[simp] theorem State.emit_localOut (s : State) (f : List Byte) : (s.emit f).localOut = s.localOut := rfl
@[simp] theorem State.emit_lineIn (s : State) (f : List Byte) : (s.emit f).lineIn = s.lineIn := rfl
@[simp] theorem State.emit_lineBuf (s : State) (f : List Byte) : (s.emit f).lineBuf = s.lineBuf := rfl
@[simp] theorem State.emit_sched (s : State) (f : List Byte) : (s.emit f).sched = s.sched := rfl
@[simp] theorem State.emit_nanDraws (s : State) (f : List Byte) : (s.emit f).nanDraws = s.nanDraws := rfl

@[simp] theorem State.arrive_cfg (s : State) (f : List Byte) : (s.arrive f).cfg = s.cfg := rfl
@[simp] theorem State.arrive_store (s : State) (f : List Byte) : (s.arrive f).store = s.store := rfl
@[simp] theorem State.arrive_fault (s : State) (f : List Byte) : (s.arrive f).fault = s.fault := rfl
@[simp] theorem State.arrive_caches (s : State) (f : List Byte) : (s.arrive f).caches = s.caches := rfl
@[simp] theorem State.arrive_bus (s : State) (f : List Byte) : (s.arrive f).bus = s.bus := rfl
@[simp] theorem State.arrive_busIn (s : State) (f : List Byte) : (s.arrive f).busIn = s.busIn ++ [f] := rfl
@[simp] theorem State.arrive_busOut (s : State) (f : List Byte) : (s.arrive f).busOut = s.busOut := rfl
@[simp] theorem State.arrive_localIn (s : State) (f : List Byte) : (s.arrive f).localIn = s.localIn := rfl
@[simp] theorem State.arrive_localOut (s : State) (f : List Byte) : (s.arrive f).localOut = s.localOut := rfl
@[simp] theorem State.arrive_lineIn (s : State) (f : List Byte) : (s.arrive f).lineIn = s.lineIn := rfl
@[simp] theorem State.arrive_lineBuf (s : State) (f : List Byte) : (s.arrive f).lineBuf = s.lineBuf := rfl
@[simp] theorem State.arrive_sched (s : State) (f : List Byte) : (s.arrive f).sched = s.sched := rfl
@[simp] theorem State.arrive_nanDraws (s : State) (f : List Byte) : (s.arrive f).nanDraws = s.nanDraws := rfl

@[simp] theorem State.result_cfg (s : State) (r : LocalResult) : (s.result r).cfg = s.cfg := rfl
@[simp] theorem State.result_store (s : State) (r : LocalResult) : (s.result r).store = s.store := rfl
@[simp] theorem State.result_fault (s : State) (r : LocalResult) : (s.result r).fault = s.fault := rfl
@[simp] theorem State.result_caches (s : State) (r : LocalResult) : (s.result r).caches = s.caches := rfl
@[simp] theorem State.result_bus (s : State) (r : LocalResult) : (s.result r).bus = s.bus := rfl
@[simp] theorem State.result_busIn (s : State) (r : LocalResult) : (s.result r).busIn = s.busIn := rfl
@[simp] theorem State.result_busOut (s : State) (r : LocalResult) : (s.result r).busOut = s.busOut := rfl
@[simp] theorem State.result_localIn (s : State) (r : LocalResult) : (s.result r).localIn = s.localIn := rfl
@[simp] theorem State.result_localOut (s : State) (r : LocalResult) : (s.result r).localOut = s.localOut ++ [r] := rfl
@[simp] theorem State.result_lineIn (s : State) (r : LocalResult) : (s.result r).lineIn = s.lineIn := rfl
@[simp] theorem State.result_lineBuf (s : State) (r : LocalResult) : (s.result r).lineBuf = s.lineBuf := rfl
@[simp] theorem State.result_sched (s : State) (r : LocalResult) : (s.result r).sched = s.sched := rfl
@[simp] theorem State.result_nanDraws (s : State) (r : LocalResult) : (s.result r).nanDraws = s.nanDraws := rfl

@[simp] theorem State.setCache_cfg (s : State) (e : Nat) (c : Cache) : (s.setCache e c).cfg = s.cfg := rfl
@[simp] theorem State.setCache_store (s : State) (e : Nat) (c : Cache) : (s.setCache e c).store = s.store := rfl
@[simp] theorem State.setCache_fault (s : State) (e : Nat) (c : Cache) : (s.setCache e c).fault = s.fault := rfl
@[simp] theorem State.setCache_caches (s : State) (e : Nat) (c : Cache) : (s.setCache e c).caches = s.caches.set e c := rfl
@[simp] theorem State.setCache_bus (s : State) (e : Nat) (c : Cache) : (s.setCache e c).bus = s.bus := rfl
@[simp] theorem State.setCache_busIn (s : State) (e : Nat) (c : Cache) : (s.setCache e c).busIn = s.busIn := rfl
@[simp] theorem State.setCache_busOut (s : State) (e : Nat) (c : Cache) : (s.setCache e c).busOut = s.busOut := rfl
@[simp] theorem State.setCache_localIn (s : State) (e : Nat) (c : Cache) : (s.setCache e c).localIn = s.localIn := rfl
@[simp] theorem State.setCache_localOut (s : State) (e : Nat) (c : Cache) : (s.setCache e c).localOut = s.localOut := rfl
@[simp] theorem State.setCache_lineIn (s : State) (e : Nat) (c : Cache) : (s.setCache e c).lineIn = s.lineIn := rfl
@[simp] theorem State.setCache_lineBuf (s : State) (e : Nat) (c : Cache) : (s.setCache e c).lineBuf = s.lineBuf := rfl
@[simp] theorem State.setCache_sched (s : State) (e : Nat) (c : Cache) : (s.setCache e c).sched = s.sched := rfl
@[simp] theorem State.setCache_nanDraws (s : State) (e : Nat) (c : Cache) : (s.setCache e c).nanDraws = s.nanDraws := rfl

@[simp] theorem State.drawNaN_cfg (s : State) : (s.drawNaN).cfg = s.cfg := rfl
@[simp] theorem State.drawNaN_store (s : State) : (s.drawNaN).store = s.store := rfl
@[simp] theorem State.drawNaN_fault (s : State) : (s.drawNaN).fault = s.fault := rfl
@[simp] theorem State.drawNaN_caches (s : State) : (s.drawNaN).caches = s.caches := rfl
@[simp] theorem State.drawNaN_bus (s : State) : (s.drawNaN).bus = s.bus := rfl
@[simp] theorem State.drawNaN_busIn (s : State) : (s.drawNaN).busIn = s.busIn := rfl
@[simp] theorem State.drawNaN_busOut (s : State) : (s.drawNaN).busOut = s.busOut := rfl
@[simp] theorem State.drawNaN_localIn (s : State) : (s.drawNaN).localIn = s.localIn := rfl
@[simp] theorem State.drawNaN_localOut (s : State) : (s.drawNaN).localOut = s.localOut := rfl
@[simp] theorem State.drawNaN_lineIn (s : State) : (s.drawNaN).lineIn = s.lineIn := rfl
@[simp] theorem State.drawNaN_lineBuf (s : State) : (s.drawNaN).lineBuf = s.lineBuf := rfl
@[simp] theorem State.drawNaN_sched (s : State) : (s.drawNaN).sched = s.sched := rfl
@[simp] theorem State.drawNaN_nanDraws (s : State) : (s.drawNaN).nanDraws = s.nanDraws + 1 := rfl

@[simp] theorem State.withBuffer_cfg (s : State) (buf : List Byte) : (s.withBuffer buf).cfg = s.cfg := rfl
@[simp] theorem State.withBuffer_store (s : State) (buf : List Byte) : (s.withBuffer buf).store = s.store := rfl
@[simp] theorem State.withBuffer_fault (s : State) (buf : List Byte) : (s.withBuffer buf).fault = s.fault := rfl
@[simp] theorem State.withBuffer_caches (s : State) (buf : List Byte) : (s.withBuffer buf).caches = s.caches := rfl
@[simp] theorem State.withBuffer_bus (s : State) (buf : List Byte) : (s.withBuffer buf).bus = s.bus := rfl
@[simp] theorem State.withBuffer_busIn (s : State) (buf : List Byte) : (s.withBuffer buf).busIn = s.busIn := rfl
@[simp] theorem State.withBuffer_busOut (s : State) (buf : List Byte) : (s.withBuffer buf).busOut = s.busOut := rfl
@[simp] theorem State.withBuffer_localIn (s : State) (buf : List Byte) : (s.withBuffer buf).localIn = s.localIn := rfl
@[simp] theorem State.withBuffer_localOut (s : State) (buf : List Byte) : (s.withBuffer buf).localOut = s.localOut := rfl
@[simp] theorem State.withBuffer_lineIn (s : State) (buf : List Byte) : (s.withBuffer buf).lineIn = s.lineIn := rfl
@[simp] theorem State.withBuffer_lineBuf (s : State) (buf : List Byte) : (s.withBuffer buf).lineBuf = buf := rfl
@[simp] theorem State.withBuffer_sched (s : State) (buf : List Byte) : (s.withBuffer buf).sched = s.sched := rfl
@[simp] theorem State.withBuffer_nanDraws (s : State) (buf : List Byte) : (s.withBuffer buf).nanDraws = s.nanDraws := rfl

@[simp] theorem State.turnTaken_cfg (s : State) : (s.turnTaken).cfg = s.cfg := rfl
@[simp] theorem State.turnTaken_store (s : State) : (s.turnTaken).store = s.store := rfl
@[simp] theorem State.turnTaken_fault (s : State) : (s.turnTaken).fault = s.fault := rfl
@[simp] theorem State.turnTaken_caches (s : State) : (s.turnTaken).caches = s.caches := rfl
@[simp] theorem State.turnTaken_bus (s : State) : (s.turnTaken).bus = s.bus := rfl
@[simp] theorem State.turnTaken_busIn (s : State) : (s.turnTaken).busIn = s.busIn := rfl
@[simp] theorem State.turnTaken_busOut (s : State) : (s.turnTaken).busOut = s.busOut := rfl
@[simp] theorem State.turnTaken_localIn (s : State) : (s.turnTaken).localIn = s.localIn := rfl
@[simp] theorem State.turnTaken_localOut (s : State) : (s.turnTaken).localOut = s.localOut := rfl
@[simp] theorem State.turnTaken_lineIn (s : State) : (s.turnTaken).lineIn = s.lineIn := rfl
@[simp] theorem State.turnTaken_lineBuf (s : State) : (s.turnTaken).lineBuf = s.lineBuf := rfl
@[simp] theorem State.turnTaken_sched (s : State) : (s.turnTaken).sched = s.sched.tail := rfl
@[simp] theorem State.turnTaken_nanDraws (s : State) : (s.turnTaken).nanDraws = s.nanDraws := rfl

@[simp] theorem State.frameTaken_cfg (s : State) : (s.frameTaken).cfg = s.cfg := rfl
@[simp] theorem State.frameTaken_store (s : State) : (s.frameTaken).store = s.store := rfl
@[simp] theorem State.frameTaken_fault (s : State) : (s.frameTaken).fault = s.fault := rfl
@[simp] theorem State.frameTaken_caches (s : State) : (s.frameTaken).caches = s.caches := rfl
@[simp] theorem State.frameTaken_bus (s : State) : (s.frameTaken).bus = s.bus := rfl
@[simp] theorem State.frameTaken_busIn (s : State) : (s.frameTaken).busIn = s.busIn.tail := rfl
@[simp] theorem State.frameTaken_busOut (s : State) : (s.frameTaken).busOut = s.busOut := rfl
@[simp] theorem State.frameTaken_localIn (s : State) : (s.frameTaken).localIn = s.localIn := rfl
@[simp] theorem State.frameTaken_localOut (s : State) : (s.frameTaken).localOut = s.localOut := rfl
@[simp] theorem State.frameTaken_lineIn (s : State) : (s.frameTaken).lineIn = s.lineIn := rfl
@[simp] theorem State.frameTaken_lineBuf (s : State) : (s.frameTaken).lineBuf = s.lineBuf := rfl
@[simp] theorem State.frameTaken_sched (s : State) : (s.frameTaken).sched = s.sched := rfl
@[simp] theorem State.frameTaken_nanDraws (s : State) : (s.frameTaken).nanDraws = s.nanDraws := rfl

@[simp] theorem State.chunkTaken_cfg (s : State) : (s.chunkTaken).cfg = s.cfg := rfl
@[simp] theorem State.chunkTaken_store (s : State) : (s.chunkTaken).store = s.store := rfl
@[simp] theorem State.chunkTaken_fault (s : State) : (s.chunkTaken).fault = s.fault := rfl
@[simp] theorem State.chunkTaken_caches (s : State) : (s.chunkTaken).caches = s.caches := rfl
@[simp] theorem State.chunkTaken_bus (s : State) : (s.chunkTaken).bus = s.bus := rfl
@[simp] theorem State.chunkTaken_busIn (s : State) : (s.chunkTaken).busIn = s.busIn := rfl
@[simp] theorem State.chunkTaken_busOut (s : State) : (s.chunkTaken).busOut = s.busOut := rfl
@[simp] theorem State.chunkTaken_localIn (s : State) : (s.chunkTaken).localIn = s.localIn := rfl
@[simp] theorem State.chunkTaken_localOut (s : State) : (s.chunkTaken).localOut = s.localOut := rfl
@[simp] theorem State.chunkTaken_lineIn (s : State) : (s.chunkTaken).lineIn = s.lineIn.tail := rfl
@[simp] theorem State.chunkTaken_lineBuf (s : State) : (s.chunkTaken).lineBuf = s.lineBuf := rfl
@[simp] theorem State.chunkTaken_sched (s : State) : (s.chunkTaken).sched = s.sched := rfl
@[simp] theorem State.chunkTaken_nanDraws (s : State) : (s.chunkTaken).nanDraws = s.nanDraws := rfl

@[simp] theorem State.commandTaken_cfg (s : State) : (s.commandTaken).cfg = s.cfg := rfl
@[simp] theorem State.commandTaken_store (s : State) : (s.commandTaken).store = s.store := rfl
@[simp] theorem State.commandTaken_fault (s : State) : (s.commandTaken).fault = s.fault := rfl
@[simp] theorem State.commandTaken_caches (s : State) : (s.commandTaken).caches = s.caches := rfl
@[simp] theorem State.commandTaken_bus (s : State) : (s.commandTaken).bus = s.bus := rfl
@[simp] theorem State.commandTaken_busIn (s : State) : (s.commandTaken).busIn = s.busIn := rfl
@[simp] theorem State.commandTaken_busOut (s : State) : (s.commandTaken).busOut = s.busOut := rfl
@[simp] theorem State.commandTaken_localIn (s : State) : (s.commandTaken).localIn = s.localIn.tail := rfl
@[simp] theorem State.commandTaken_localOut (s : State) : (s.commandTaken).localOut = s.localOut := rfl
@[simp] theorem State.commandTaken_lineIn (s : State) : (s.commandTaken).lineIn = s.lineIn := rfl
@[simp] theorem State.commandTaken_lineBuf (s : State) : (s.commandTaken).lineBuf = s.lineBuf := rfl
@[simp] theorem State.commandTaken_sched (s : State) : (s.commandTaken).sched = s.sched := rfl
@[simp] theorem State.commandTaken_nanDraws (s : State) : (s.commandTaken).nanDraws = s.nanDraws := rfl

end Sys2Proof.Machine
end

