-- ==== Sys2Proof/Laws/Store.lean ====
section
/-! SUPPORT. The laws of class maps and of the store primitives: read after write, canonical form, what each primitive can
do. -/

namespace Sys2Proof.Machine

/-! ### Class maps -/

theorem ClassMap.find_insert (m : ClassMap) (key k : Nat) (w : Word) :
    ClassMap.find (ClassMap.insert m key w) k = if k = key then some w else ClassMap.find m k := by
  induction m with
  | nil => simp only [ClassMap.insert, ClassMap.find]; grind
  | cons p rest ih => obtain ⟨k0, v⟩ := p; simp only [ClassMap.insert]; grind [ClassMap.find]

theorem ClassMap.risesFrom_mono (m : ClassMap) {low high : Nat} (h : low ≤ high)
    (hm : ClassMap.risesFrom m high = true) : ClassMap.risesFrom m low = true := by
  cases m with
  | nil => rfl
  | cons p rest => obtain ⟨k, v⟩ := p; simp [ClassMap.risesFrom] at *; exact ⟨by omega, hm.2⟩

theorem ClassMap.risesFrom_insert (m : ClassMap) (low key : Nat) (w : Word) (hk : low ≤ key)
    (hm : ClassMap.risesFrom m low = true) : ClassMap.risesFrom (ClassMap.insert m key w) low = true := by
  induction m generalizing low with
  | nil => simp [ClassMap.insert, ClassMap.risesFrom, hk]
  | cons p rest ih =>
    obtain ⟨k, v⟩ := p
    simp only [ClassMap.risesFrom, Bool.and_eq_true, decide_eq_true_eq] at hm
    unfold ClassMap.insert
    split
    · simp only [ClassMap.risesFrom, Bool.and_eq_true, decide_eq_true_eq]; exact ⟨hk, by omega, hm.2⟩
    · split
      · subst_vars; simp only [ClassMap.risesFrom, Bool.and_eq_true, decide_eq_true_eq]; exact hm
      · simp only [ClassMap.risesFrom, Bool.and_eq_true, decide_eq_true_eq]
        exact ⟨hm.1, ih (k + 1) (by omega) hm.2⟩

theorem ClassMap.wf_insert (m : ClassMap) (key : Nat) (w : Word) (hm : ClassMap.wf m = true) :
    ClassMap.wf (ClassMap.insert m key w) = true :=
  ClassMap.risesFrom_insert m 0 key w (Nat.zero_le _) hm

theorem ClassMap.wf_writeCells (ws : List Word) (m : ClassMap) (key : Nat) (hm : ClassMap.wf m = true) :
    ClassMap.wf (ClassMap.writeCells m key ws) = true := by
  induction ws generalizing m key with
  | nil => exact hm
  | cons w ws ih => exact ih _ _ (ClassMap.wf_insert m key w hm)

theorem ClassMap.wf_ofSnapshot (pairs : List (Nat × Nat)) : ClassMap.wf (ClassMap.ofSnapshot pairs) = true := by
  have aux : ∀ (ps : List (Nat × Nat)) (m : ClassMap), ClassMap.wf m = true →
      ClassMap.wf (ps.foldl (fun m p => ClassMap.insert m p.1 (BitVec.ofNat 16 p.2)) m) = true := by
    intro ps
    induction ps with
    | nil => intro m hm; exact hm
    | cons p ps ih => intro m hm; exact ih _ (ClassMap.wf_insert m _ _ hm)
  exact aux pairs [] rfl

/-- A canonical map is determined by what it holds. -/
theorem ClassMap.ext_of_wf (m m' : ClassMap) (low : Nat) (hm : ClassMap.risesFrom m low = true)
    (hm' : ClassMap.risesFrom m' low = true) (h : ∀ k, ClassMap.find m k = ClassMap.find m' k) : m = m' := by
  have below : ∀ (m : ClassMap) (low k : Nat), ClassMap.risesFrom m low = true → k < low → ClassMap.find m k = none := by
    intro m
    induction m with
    | nil => intros; rfl
    | cons p rest ih =>
      intro low k hr hk
      obtain ⟨k0, v⟩ := p
      simp only [ClassMap.risesFrom, Bool.and_eq_true, decide_eq_true_eq] at hr
      have hne : ¬ k0 = k := by omega
      simp only [ClassMap.find, hne, if_false]
      exact ih _ _ hr.2 (by omega)
  induction m generalizing m' low with
  | nil =>
    cases m' with
    | nil => rfl
    | cons p rest => have := h p.1; simp [ClassMap.find] at this
  | cons p rest ih =>
    obtain ⟨k, v⟩ := p
    cases m' with
    | nil => have := h k; simp [ClassMap.find] at this
    | cons p' rest' =>
      obtain ⟨k', v'⟩ := p'
      simp only [ClassMap.risesFrom, Bool.and_eq_true, decide_eq_true_eq] at hm hm'
      have hkk : k = k' := by
        by_contra hne
        rcases Nat.lt_or_gt_of_ne hne with hlt | hgt
        · have h1 := h k
          have hne' : ¬ k' = k := fun e => hne e.symm
          rw [ClassMap.find, ClassMap.find, if_pos rfl, if_neg hne', below rest' _ _ hm'.2 (by omega)] at h1
          cases h1
        · have h1 := h k'
          rw [ClassMap.find, ClassMap.find, if_pos rfl, if_neg hne, below rest _ _ hm.2 (by omega)] at h1
          cases h1
      subst hkk
      have hv : v = v' := by have := h k; simpa [ClassMap.find] using this
      subst hv
      rw [ih rest' (k + 1) hm.2 hm'.2]
      intro j
      by_cases hj : k = j
      · subst hj; rw [below rest _ _ hm.2 (by omega), below rest' _ _ hm'.2 (by omega)]
      · have := h j; simpa [ClassMap.find, hj] using this

/-- What a range write leaves at each key: the list's word inside the range, the old cell outside (R45). -/
theorem ClassMap.find_writeCells (ws : List Word) (m : ClassMap) (key k : Nat) :
    ClassMap.find (ClassMap.writeCells m key ws) k =
      if key ≤ k ∧ k < key + ws.length then ws[k - key]? else ClassMap.find m k := by
  induction ws generalizing m key with
  | nil => simp [ClassMap.writeCells]
  | cons w ws ih =>
    rw [ClassMap.writeCells, ih, ClassMap.find_insert, List.length_cons]
    by_cases h1 : k = key
    · subst h1; simp
    · by_cases h2 : key + 1 ≤ k ∧ k < key + 1 + ws.length
      · have h3 : key ≤ k ∧ k < key + (ws.length + 1) := by omega
        have h4 : k - key = (k - (key + 1)) + 1 := by omega
        rw [if_pos h2, if_pos h3, h4, List.getElem?_cons_succ]
      · have h3 : ¬ (key ≤ k ∧ k < key + (ws.length + 1)) := by omega
        rw [if_neg h2, if_neg h3, if_neg h1]

theorem ClassMap.holds_iff (m : ClassMap) (key n : Nat) :
    ClassMap.holds m key n = true ↔ ∀ i < n, (ClassMap.find m (key + i)).isSome = true := by
  simp [ClassMap.holds]

theorem ClassMap.isSome_find_writeCells (ws : List Word) (m : ClassMap) (key k : Nat) :
    (ClassMap.find (ClassMap.writeCells m key ws) k).isSome =
      (decide (key ≤ k ∧ k < key + ws.length) || (ClassMap.find m k).isSome) := by
  rw [ClassMap.find_writeCells]
  by_cases h : key ≤ k ∧ k < key + ws.length
  · rw [if_pos h, List.getElem?_eq_getElem (by omega)]; simp [h]
  · rw [if_neg h]; simp [h]

theorem ClassMap.readCells_eq_some (n : Nat) (m : ClassMap) (key : Nat) (ws : List Word) :
    ClassMap.readCells m key n = some ws ↔ ws.length = n ∧ ∀ i < n, ClassMap.find m (key + i) = ws[i]? := by
  induction n generalizing key ws with
  | zero =>
    cases ws <;> simp [ClassMap.readCells]
  | succ n ih =>
    constructor
    · intro h
      simp only [ClassMap.readCells] at h
      split at h
      · rename_i w ws' hw hws
        cases h
        obtain ⟨hlen, hcells⟩ := (ih _ _).mp hws
        refine ⟨by simp [hlen], fun i hi => ?_⟩
        cases i with
        | zero => simpa using hw
        | succ i =>
          have := hcells i (by omega)
          rw [show key + (i + 1) = key + 1 + i from by omega, this]
          simp
      · cases h
    · rintro ⟨hlen, hcells⟩
      cases ws with
      | nil => simp at hlen
      | cons w ws' =>
        have h0 := hcells 0 (by omega)
        have hrest : ClassMap.readCells m (key + 1) n = some ws' := by
          refine (ih _ _).mpr ⟨by simpa using hlen, fun i hi => ?_⟩
          have := hcells (i + 1) (by omega)
          rw [show key + (i + 1) = key + 1 + i from by omega] at this
          simpa using this
        simp at h0
        simp [ClassMap.readCells, h0, hrest]

theorem ClassMap.readCells_isSome (n : Nat) (m : ClassMap) (key : Nat) (h : ClassMap.holds m key n = true) :
    ∃ ws, ClassMap.readCells m key n = some ws := by
  induction n generalizing key with
  | zero => exact ⟨[], rfl⟩
  | succ n ih =>
    rw [ClassMap.holds_iff] at h
    obtain ⟨w, hw⟩ := Option.isSome_iff_exists.mp (h 0 (by omega))
    obtain ⟨ws, hws⟩ := ih (key + 1) ((ClassMap.holds_iff _ _ _).mpr fun i hi => by
      have := h (i + 1) (by omega); rwa [show key + (i + 1) = key + 1 + i from by omega] at this)
    simp only [Nat.add_zero] at hw
    exact ⟨w :: ws, by simp [ClassMap.readCells, hw, hws]⟩

/-! ### The store primitives -/

theorem Store.map_set (st : Store) (k j : Nat) (m : ClassMap) (c : Bool) :
    Store.map { mem := st.mem.set k m, changed := c } j = if j = k ∧ k < st.mem.length then m else st.map j := by
  simp only [Store.map, List.getD_eq_getElem?_getD, List.getElem?_set]
  by_cases h : k = j
  · subst h
    by_cases hk : k < st.mem.length
    · simp [hk]
    · simp [hk]
  · simp [h, Ne.symm h]

theorem storeValidate_iff (cfg : Config) (st : Store) (k a n : Nat) :
    storeValidate cfg st k a n = true ↔
      n ≠ 0 ∧ ∀ i < n, (ClassMap.find (st.map k) (keyOf cfg a + i)).isSome = true := by
  simp [storeValidate, ClassMap.holds_iff]

/-- Everything `StoreGet` can answer (R44). -/
theorem storeGet_eq_some (cfg : Config) (st : Store) (k a n : Nat) (ws : List Word) :
    storeGet cfg st k a n = some ws ↔
      n ≠ 0 ∧ ws.length = n ∧ ∀ i < n, ClassMap.find (st.map k) (keyOf cfg a + i) = ws[i]? := by
  unfold storeGet
  split
  · rename_i hv
    have hn := ((storeValidate_iff _ _ _ _ _).mp hv).1
    rw [ClassMap.readCells_eq_some]
    exact ⟨fun h => ⟨hn, h⟩, fun h => h.2⟩
  · rename_i hv
    refine ⟨fun h => (by cases h), fun ⟨hn, hlen, hcells⟩ => absurd ?_ hv⟩
    rw [storeValidate_iff]
    refine ⟨hn, fun i hi => ?_⟩
    rw [hcells i hi, List.getElem?_eq_getElem (by omega)]
    rfl

theorem storeGet_eq_none (cfg : Config) (st : Store) (k a n : Nat) :
    storeGet cfg st k a n = none ↔ storeValidate cfg st k a n = false := by
  unfold storeGet
  constructor
  · intro h
    by_contra hv
    rw [Bool.not_eq_false] at hv
    rw [if_pos hv] at h
    have hh : ClassMap.holds (st.map k) (keyOf cfg a) n = true := by
      simp only [storeValidate, Bool.and_eq_true] at hv; exact hv.2
    obtain ⟨ws, hws⟩ := ClassMap.readCells_isSome n (st.map k) (keyOf cfg a) hh
    rw [h] at hws
    cases hws
  · intro h; simp [h]

theorem storeGet_of_valid (cfg : Config) (st : Store) (k a n : Nat) (h : storeValidate cfg st k a n = true) :
    ∃ ws, storeGet cfg st k a n = some ws := by
  cases hg : storeGet cfg st k a n with
  | none => rw [storeGet_eq_none, h] at hg; cases hg
  | some ws => exact ⟨ws, rfl⟩

/-- Everything `StoreSet` can answer (R45). -/
theorem storeSet_eq_some (cfg : Config) (st st' : Store) (k a : Nat) (vals : List Word) :
    storeSet cfg st k a vals = some st' ↔
      (ClassMap.holds (st.map k) (keyOf cfg a) vals.length = true ∨ growable cfg k = true) ∧
      st' = { mem := st.mem.set k (ClassMap.writeCells (st.map k) (keyOf cfg a) vals),
              changed := st.changed || !vals.isEmpty } := by
  unfold storeSet setRefused
  cases ClassMap.holds (st.map k) (keyOf cfg a) vals.length <;> cases growable cfg k <;> simp [eq_comm]

theorem storeSet_eq_none (cfg : Config) (st : Store) (k a : Nat) (vals : List Word) :
    storeSet cfg st k a vals = none ↔
      ClassMap.holds (st.map k) (keyOf cfg a) vals.length = false ∧ growable cfg k = false := by
  unfold storeSet setRefused
  cases ClassMap.holds (st.map k) (keyOf cfg a) vals.length <;> cases growable cfg k <;> simp

/-- The cells after a set that succeeds: the list in its range, every other cell of every class as before (R45). -/
theorem storeSet_find (cfg : Config) (st st' : Store) (k a : Nat) (vals : List Word)
    (h : storeSet cfg st k a vals = some st') (j key : Nat) :
    ClassMap.find (st'.map j) key =
      if j = k ∧ k < st.mem.length ∧ keyOf cfg a ≤ key ∧ key < keyOf cfg a + vals.length then vals[key - keyOf cfg a]?
      else ClassMap.find (st.map j) key := by
  obtain ⟨-, rfl⟩ := (storeSet_eq_some _ _ _ _ _ _).mp h
  rw [Store.map_set]
  by_cases hj : j = k ∧ k < st.mem.length
  · rw [if_pos hj, ClassMap.find_writeCells]
    exact if_congr (by tauto) rfl (by rw [hj.1])
  · rw [if_neg hj, if_neg (by tauto)]

theorem storeSet_changed (cfg : Config) (st st' : Store) (k a : Nat) (vals : List Word)
    (h : storeSet cfg st k a vals = some st') : st'.changed = (st.changed || !vals.isEmpty) := by
  obtain ⟨-, rfl⟩ := (storeSet_eq_some _ _ _ _ _ _).mp h; rfl

theorem storeSet_length (cfg : Config) (st st' : Store) (k a : Nat) (vals : List Word)
    (h : storeSet cfg st k a vals = some st') : st'.mem.length = st.mem.length := by
  obtain ⟨-, rfl⟩ := (storeSet_eq_some _ _ _ _ _ _).mp h; simp

/-! ### The canonical form is kept -/

theorem Memory.wf_iff (mem : Memory) : Memory.wf mem = true ↔ ∀ m ∈ mem, ClassMap.wf m = true := by
  simp [Memory.wf]

theorem Store.wf_map (st : Store) (k : Nat) (h : Memory.wf st.mem = true) : ClassMap.wf (st.map k) = true := by
  rw [Store.map, List.getD_eq_getElem?_getD]
  by_cases hk : k < st.mem.length
  · rw [List.getElem?_eq_getElem hk]
    exact (Memory.wf_iff _).mp h _ (List.getElem_mem _)
  · rw [List.getElem?_eq_none (by omega)]; rfl

theorem storeSet_wf (cfg : Config) (st st' : Store) (k a : Nat) (vals : List Word)
    (hs : storeSet cfg st k a vals = some st') (h : Memory.wf st.mem = true) : Memory.wf st'.mem = true := by
  obtain ⟨-, rfl⟩ := (storeSet_eq_some _ _ _ _ _ _).mp hs
  rw [Memory.wf_iff] at *
  intro m hm
  rcases List.mem_or_eq_of_mem_set hm with h1 | h1
  · exact h m h1
  · subst h1; exact ClassMap.wf_writeCells _ _ _ (Store.wf_map st k ((Memory.wf_iff _).mpr h))

theorem snapshotMemory_wf (cfg : Config) : Memory.wf (snapshotMemory cfg) = true := by
  rw [Memory.wf_iff]
  intro m hm
  obtain ⟨c, -, rfl⟩ := List.mem_map.mp hm
  exact ClassMap.wf_ofSnapshot _

theorem storeReset_wf (cfg : Config) (st : Store) : Memory.wf (storeReset cfg st).mem = true :=
  snapshotMemory_wf cfg

theorem snapshotMemory_length (cfg : Config) : (snapshotMemory cfg).length = (classesOf cfg).length := by
  simp [snapshotMemory]

/-- Reset's memory has the canonical form. -/
theorem bootStart_wf (cfg : Config) : Memory.wf (bootStart cfg).store.mem = true := snapshotMemory_wf cfg

end Sys2Proof.Machine
end

