-- ==== Sys2Proof/Laws/Ops.lean ====
section
/-! SUPPORT. What each shared operation can do: one inversion lemma for each, and one for all request frames and one for
all local operations, which the proofs cite instead of unfolding the meanings. -/

namespace Sys2Proof.Machine

/-! ### Small operations -/

theorem running_of_none {s : State} (h : s.fault = none) (r : Result) : running s r = r := by simp [running, h]

theorem running_of_some {s : State} {why : FaultReason} (h : s.fault = some why) (r : Result) :
    running s r = .fault (.stopped why) := by simp [running, h]

/-- An operation that has a next state ran without a fault recorded. -/
theorem running_eq_next {s t : State} {r : Result} (h : running s r = .next t) : s.fault = none ∧ r = .next t := by
  cases hf : s.fault with
  | none => exact ⟨rfl, by rwa [running_of_none hf] at h⟩
  | some why => rw [running_of_some hf] at h; cases h

theorem deliver_eq_next {s t : State} {r : LocalResult} : deliver r s = .next t ↔ t = s.result r := by
  simp [deliver, eq_comm]

theorem raiseFault_eq_next {s t : State} {why : FaultReason} : raiseFault why s = .next t ↔ t = s.withFault why := by
  simp [raiseFault, eq_comm]

theorem respond_eq_next {s t : State} {f : List Byte} : respond f s = .next t ↔ t = s.emit f := by
  simp [respond, eq_comm]

theorem enterStage_eq_next {s t : State} {i : Instr} {stage : Stage} :
    enterStage i stage s = .next t ↔ t = s.withBus (.busy i stage) := by simp [enterStage, eq_comm]

theorem withClass_eq_next {k : Nat} {s t : State} {r : Result} (h : withClass k s r = .next t) :
    classExists s.cfg k = true ∧ r = .next t := by
  unfold withClass at h; split at h
  · exact ⟨‹_›, h⟩
  · cases h

/-- An entity operation with a next state found its entity, and either it is of the variant or TYPE_ERROR was raised. -/
theorem withEntity_eq_next {v : Variant} {e : Nat} {s t : State} {next : EntityDesc → Result}
    (h : withEntity v e s next = .next t) :
    ∃ d, s.cfg.entities[e]? = some d ∧ (d.variant = v ∧ next d = .next t ∨ d.variant ≠ v ∧ t = s.withFault .typeError) := by
  unfold withEntity at h; split at h
  · cases h
  · rename_i d hd
    refine ⟨d, hd, ?_⟩
    split at h
    · exact .inl ⟨‹_›, h⟩
    · exact .inr ⟨‹_›, raiseFault_eq_next.mp h⟩

/-! ### Request frames -/

/-- Everything one step of a request frame can do (R120 to R136). -/
inductive RequestStep (i : Instr) (r : RequestShape) (s : State) : State → Prop
  | take : s.bus = .idle → accepts s.cfg (frameBytes i) = true → RequestStep i r s (s.withBus (.busy i .guard))
  | drop : s.bus = .idle → accepts s.cfg (frameBytes i) = false → RequestStep i r s (s.withBus .idle)
  | wait (req : Instr) (stage : Stage) : s.bus = .busy req stage → req ≠ i → RequestStep i r s (s.arrive (frameBytes i))
  | error (stage : Stage) (code : ExceptionCode) : s.bus = .busy i stage →
      code = .illegalDataAddress ∨ code = .illegalDataValue → RequestStep i r s (s.emit (errorFrame r.dev r.fc code))
  | guardPass : s.bus = .busy i .guard → storeIsEmpty s.store r.cls = false → r.quantityOk = true →
      RequestStep i r s (s.withBus (.busy i .validate))
  | validatePass (stage : Stage) : s.bus = .busy i .validate → stage = .set ∨ stage = .get → stage ∈ r.stages →
      storeValidate s.cfg s.store r.cls r.addr.toNat r.count = true → RequestStep i r s (s.withBus (.busy i stage))
  | setFault : s.bus = .busy i .set → storeSet s.cfg s.store r.cls r.addr.toNat r.writes = none →
      RequestStep i r s (s.withFault .paramError)
  | setThenGet (st : Store) : s.bus = .busy i .set → .get ∈ r.stages →
      storeSet s.cfg s.store r.cls r.addr.toNat r.writes = some st →
      RequestStep i r s ((s.withStore st).withBus (.busy i .get))
  | setDone (st : Store) (e : Word) : s.bus = .busy i .set → r.fc = 15#8 ∨ r.fc = 16#8 →
      storeSet s.cfg s.store r.cls r.addr.toNat r.writes = some st →
      RequestStep i r s ((s.withStore st).emit (writeResponse r.dev r.fc r.addr e))
  | getBits (ws : List Word) : s.bus = .busy i .get → r.fc = 1#8 ∨ r.fc = 2#8 →
      storeGet s.cfg s.store r.cls r.addr.toNat r.count = some ws →
      RequestStep i r s (s.emit (readResponse r.dev r.fc (bitData ws)))
  | getWords (ws : List Word) : s.bus = .busy i .get → r.fc = 3#8 ∨ r.fc = 4#8 →
      storeGet s.cfg s.store r.cls r.addr.toNat r.count = some ws →
      RequestStep i r s (s.emit (readResponse r.dev r.fc (packWords ws)))
  | getEcho (w : Word) (e : Word) : s.bus = .busy i .get → r.fc = 5#8 ∨ r.fc = 6#8 →
      storeGet s.cfg s.store r.cls r.addr.toNat r.count = some [w] →
      RequestStep i r s (s.emit (writeResponse r.dev r.fc r.addr e))

/-- What `onBus` can do. -/
theorem onBus_eq_next {i : Instr} {s t : State} {perform : Stage → Result} (h : onBus i s perform = .next t) :
    s.fault = none ∧
    ((s.bus = .idle ∧ accepts s.cfg (frameBytes i) = true ∧ t = s.withBus (.busy i .guard)) ∨
     (s.bus = .idle ∧ accepts s.cfg (frameBytes i) = false ∧ t = s.withBus .idle) ∨
     (∃ req stage, s.bus = .busy req stage ∧ req ≠ i ∧ t = s.arrive (frameBytes i)) ∨
     (∃ stage, s.bus = .busy i stage ∧ perform stage = .next t)) := by
  obtain ⟨hf, hrun⟩ := running_eq_next h
  refine ⟨hf, ?_⟩
  split at hrun
  · rename_i hb
    split at hrun
    · exact .inl ⟨hb, ‹_›, enterStage_eq_next.mp hrun⟩
    · rename_i ha
      exact .inr (.inl ⟨hb, by simpa using ha, by simpa [dropRequest, eq_comm] using hrun⟩)
  · rename_i req stage hb
    split at hrun
    · rename_i he; subst he; exact .inr (.inr (.inr ⟨stage, hb, hrun⟩))
    · exact .inr (.inr (.inl ⟨req, stage, hb, ‹_›, by simpa [eq_comm] using hrun⟩))

theorem guardStage_next {i : Instr} {r : RequestShape} {s t : State} {ok : Bool} (hok : ok = r.quantityOk)
    (hb : s.bus = .busy i .guard) (h : guardStage i r.cls r.dev r.fc ok s = .next t) : RequestStep i r s t := by
  subst hok
  unfold guardStage at h
  split at h
  · rw [respond_eq_next.mp h]; exact .error .guard _ hb (.inl rfl)
  · split at h
    · rw [enterStage_eq_next.mp h]; exact .guardPass hb (by simpa using ‹¬ storeIsEmpty _ _ = true›) ‹_›
    · rw [respond_eq_next.mp h]; exact .error .guard _ hb (.inr rfl)

theorem validateStage_next {i : Instr} {r : RequestShape} {s t : State} {stage : Stage} (hb : s.bus = .busy i .validate)
    (hst : stage = .set ∨ stage = .get) (hmem : stage ∈ r.stages)
    (h : validateStage i r.cls r.dev r.fc r.addr r.count stage s = .next t) : RequestStep i r s t := by
  unfold validateStage at h
  split at h
  · rw [enterStage_eq_next.mp h]; exact .validatePass stage hb hst hmem ‹_›
  · rw [respond_eq_next.mp h]; exact .error .validate _ hb (.inl rfl)

theorem getStage_next {i : Instr} {r : RequestShape} {s t : State} {answer : List Word → List Byte}
    (hb : s.bus = .busy i .get) (h : getStage r.cls r.dev r.fc r.addr r.count s answer = .next t)
    (hans : ∀ ws, storeGet s.cfg s.store r.cls r.addr.toNat r.count = some ws → RequestStep i r s (s.emit (answer ws))) :
    RequestStep i r s t := by
  unfold getStage at h
  split at h
  · rw [respond_eq_next.mp h]; exact .error .get _ hb (.inl rfl)
  · rw [respond_eq_next.mp h]; exact hans _ ‹_›

theorem ceilDiv8_le_255 (n : Nat) : ceilDiv8 n ≤ 255 ↔ n ≤ 2040 := by unfold ceilDiv8; omega

theorem two_mul_le_255 (n : Nat) : 2 * n ≤ 255 ↔ n ≤ 127 := by omega

theorem fromBool_truth (q : Word) : fromBool (truth q) = if q = 0#16 then 0#16 else 1#16 := by
  unfold fromBool truth; by_cases h : q = 0#16 <;> simp [h]

/-- One step of any request frame (R120 to R136). -/
theorem exec_request {i : Instr} {r : RequestShape} {s t : State} (hr : requestShape i = some r)
    (h : exec i s = .next t) : s.fault = none ∧ RequestStep i r s t := by
  have body : ∀ (perform : Stage → Result), onBus i s perform = .next t →
      (∀ stage, s.bus = .busy i stage → perform stage = .next t → RequestStep i r s t) →
      s.fault = none ∧ RequestStep i r s t := by
    intro perform hp hstage
    obtain ⟨hf, ⟨hb, ha, rfl⟩ | ⟨hb, ha, rfl⟩ | ⟨req, stage, hb, hne, rfl⟩ | ⟨stage, hb, hstep⟩⟩ := onBus_eq_next hp
    · exact ⟨hf, .take hb ha⟩
    · exact ⟨hf, .drop hb ha⟩
    · exact ⟨hf, .wait req stage hb hne⟩
    · exact ⟨hf, hstage stage hb hstep⟩
  cases i with
  | readCoils dev addr q crc =>
    cases hr
    refine body _ h fun stage hb hs => ?_
    cases stage with
    | guard => exact guardStage_next (by simp [ceilDiv8_le_255]) hb hs
    | validate => exact validateStage_next hb (.inr rfl) (by simp) hs
    | get => exact getStage_next hb hs fun ws hg => .getBits ws hb (by simp) hg
    | set => cases hs
  | readDiscreteInputs dev addr q crc =>
    cases hr
    refine body _ h fun stage hb hs => ?_
    cases stage with
    | guard => exact guardStage_next (by simp [ceilDiv8_le_255]) hb hs
    | validate => exact validateStage_next hb (.inr rfl) (by simp) hs
    | get => exact getStage_next hb hs fun ws hg => .getBits ws hb (by simp) hg
    | set => cases hs
  | readHoldingRegisters dev addr q crc =>
    cases hr
    refine body _ h fun stage hb hs => ?_
    cases stage with
    | guard => exact guardStage_next (by simp [two_mul_le_255]) hb hs
    | validate => exact validateStage_next hb (.inr rfl) (by simp) hs
    | get => exact getStage_next hb hs fun ws hg => .getWords ws hb (by simp) hg
    | set => cases hs
  | readInputRegisters dev addr q crc =>
    cases hr
    refine body _ h fun stage hb hs => ?_
    cases stage with
    | guard => exact guardStage_next (by simp [two_mul_le_255]) hb hs
    | validate => exact validateStage_next hb (.inr rfl) (by simp) hs
    | get => exact getStage_next hb hs fun ws hg => .getWords ws hb (by simp) hg
    | set => cases hs
  | writeSingleCoil dev addr q crc =>
    cases hr
    refine body _ h fun stage hb hs => ?_
    cases stage with
    | guard => exact guardStage_next rfl hb hs
    | validate => exact validateStage_next hb (.inl rfl) (by simp) hs
    | set =>
      simp only [setStage, fromBool_truth] at hs
      split at hs
      · rw [raiseFault_eq_next.mp hs]; exact .setFault hb ‹_›
      · rw [enterStage_eq_next.mp hs]; exact .setThenGet _ hb (by simp) ‹_›
    | get =>
      refine getStage_next hb hs fun ws hg => ?_
      obtain ⟨-, hlen, -⟩ := (storeGet_eq_some _ _ _ _ _ _).mp hg
      obtain ⟨w, rfl⟩ := List.length_eq_one_iff.mp hlen
      exact .getEcho w _ hb (by simp) hg
  | writeSingleRegister dev addr q crc =>
    cases hr
    refine body _ h fun stage hb hs => ?_
    cases stage with
    | guard => exact guardStage_next rfl hb hs
    | validate => exact validateStage_next hb (.inl rfl) (by simp) hs
    | set =>
      simp only [setStage] at hs
      split at hs
      · rw [raiseFault_eq_next.mp hs]; exact .setFault hb ‹_›
      · rw [enterStage_eq_next.mp hs]; exact .setThenGet _ hb (by simp) ‹_›
    | get =>
      refine getStage_next hb hs fun ws hg => ?_
      obtain ⟨-, hlen, -⟩ := (storeGet_eq_some _ _ _ _ _ _).mp hg
      obtain ⟨w, rfl⟩ := List.length_eq_one_iff.mp hlen
      exact .getEcho w _ hb (by simp) hg
  | writeMultipleCoils dev addr q payload crc =>
    cases hr
    refine body _ h fun stage hb hs => ?_
    cases stage with
    | guard => exact guardStage_next rfl hb hs
    | validate => exact validateStage_next hb (.inl rfl) (by simp) hs
    | set =>
      simp only [setStage] at hs
      split at hs
      · rw [raiseFault_eq_next.mp hs]; exact .setFault hb ‹_›
      · rw [respond_eq_next.mp hs]; exact .setDone _ _ hb (by simp) ‹_›
    | get => cases hs
  | writeMultipleRegisters dev addr q payload crc =>
    cases hr
    refine body _ h fun stage hb hs => ?_
    cases stage with
    | guard => exact guardStage_next rfl hb hs
    | validate => exact validateStage_next hb (.inl rfl) (by simp) hs
    | set =>
      simp only [setStage] at hs
      split at hs
      · rw [raiseFault_eq_next.mp hs]; exact .setFault hb ‹_›
      · rw [respond_eq_next.mp hs]; exact .setDone _ _ hb (by simp) ‹_›
    | get => cases hs
  | _ => cases hr

/-! ### Local operations -/

/-- Everything one local operation can do (R150 to R157, R175 to R189). -/
inductive LocalStep (s : State) : State → Prop
  | fault (why : FaultReason) : LocalStep s (s.withFault why)
  | answer (r : LocalResult) : LocalStep s (s.result r)
  | drawn (y : Bits64) : LocalStep s (s.drawNaN.result (.float y))
  | set (st : Store) (k a : Nat) (vals : List Word) : storeSet s.cfg s.store k a vals = some st →
      LocalStep s ((s.withStore st).result .ok)
  | reset : LocalStep s ((s.withStore (storeReset s.cfg s.store)).result .done)
  | cleared (r : LocalResult) : LocalStep s ((s.withStore { s.store with changed := false }).result r)
  | cached (e : Nat) (d : EntityDesc) (c : Cache) (r : LocalResult) : s.cfg.entities[e]? = some d →
      cacheFits d c = true → LocalStep s ((s.setCache e c).result r)
  | cachedDrawn (e : Nat) (d : EntityDesc) (c : Cache) (y : Bits64) : s.cfg.entities[e]? = some d →
      cacheFits d c = true → LocalStep s ((s.setCache e c).drawNaN.result (.float y))
  | written (e : Nat) (d : EntityDesc) (c : Cache) (st : Store) : s.cfg.entities[e]? = some d →
      cacheFits d c = true → storeSet s.cfg s.store d.cls d.addr (cacheWords c) = some st →
      LocalStep s (((s.withStore st).setCache e c).result .changed)

theorem wordsOfNats_length {ns : List Nat} {ws : List Word} (h : wordsOfNats ns = some ws) : ws.length = ns.length := by
  unfold wordsOfNats at h; split at h
  · cases h; simp
  · cases h

/-- A representation has its variant's form (R175). -/
theorem reprOf_fits {d : EntityDesc} {v : Value} {c : Cache} (h : reprOf d v = some c) : cacheFits d c = true := by
  unfold reprOf at h
  split at h <;> rename_i hv
  · split at h
    · cases h; simp [cacheFits, hv]
    · cases h
  · cases h; simp [cacheFits, hv]
  · cases h; simp [cacheFits, hv]
  · split at h
    · rename_i hlen
      rw [Option.map_eq_some_iff] at h
      obtain ⟨ws, hws, rfl⟩ := h
      simp [cacheFits, hv, wordsOfNats_length hws, hlen]
    · cases h
  · cases h

theorem entityWrite_next {v : Variant} {e : Nat} {val : Value} {s t : State} (h : entityWrite v e val s = .next t) :
    s.fault = none ∧ LocalStep s t := by
  obtain ⟨hf, h⟩ := running_eq_next h
  refine ⟨hf, ?_⟩
  obtain ⟨d, hd, ⟨-, h⟩ | ⟨-, rfl⟩⟩ := withEntity_eq_next h
  · split at h
    · rw [raiseFault_eq_next.mp h]; exact .fault _
    · rename_i c hc
      split at h
      · rw [deliver_eq_next.mp h]; exact .answer _
      · split at h
        · rw [raiseFault_eq_next.mp h]; exact .fault _
        · rw [deliver_eq_next.mp h]; exact .written e d c _ hd (reprOf_fits hc) ‹_›
  · exact .fault _

theorem entityFetch_next {v : Variant} {e : Nat} {s t : State} {next : EntityDesc → List Word → Result}
    (h : entityFetch v e s next = .next t)
    (hnext : ∀ d ws, s.cfg.entities[e]? = some d → d.variant = v →
      storeGet s.cfg s.store d.cls d.addr (widthOf d) = some ws → next d ws = .next t → LocalStep s t) :
    s.fault = none ∧ LocalStep s t := by
  obtain ⟨hf, h⟩ := running_eq_next h
  refine ⟨hf, ?_⟩
  obtain ⟨d, hd, ⟨hv, h⟩ | ⟨-, rfl⟩⟩ := withEntity_eq_next h
  · split at h
    · rw [raiseFault_eq_next.mp h]; exact .fault _
    · exact hnext d _ hd hv ‹_› h
  · exact .fault _

theorem entityCached_next {v : Variant} {e : Nat} {s t : State} {next : EntityDesc → Cache → Result}
    (h : entityCached v e s next = .next t) (hnext : ∀ d c, next d c = .next t → LocalStep s t) :
    s.fault = none ∧ LocalStep s t := by
  obtain ⟨hf, h⟩ := running_eq_next h
  refine ⟨hf, ?_⟩
  obtain ⟨d, hd, ⟨-, h⟩ | ⟨-, rfl⟩⟩ := withEntity_eq_next h
  · split at h
    · cases h
    · exact hnext _ _ h
  · exact .fault _

/-- One local operation, whichever it is (R150). -/
theorem exec_local {i : Instr} {s t : State} (hi : isRequest i = false) (h : exec i s = .next t) :
    s.fault = none ∧ LocalStep s t := by
  cases i with
  | lValidate k a n =>
    obtain ⟨hf, h⟩ := running_eq_next h
    rw [deliver_eq_next.mp (withClass_eq_next h).2]; exact ⟨hf, .answer _⟩
  | lGet k a n =>
    obtain ⟨hf, h⟩ := running_eq_next h
    have h := (withClass_eq_next h).2
    refine ⟨hf, ?_⟩
    split at h
    · rw [raiseFault_eq_next.mp h]; exact .fault _
    · rw [deliver_eq_next.mp h]; exact .answer _
  | lSet k a vals =>
    obtain ⟨hf, h⟩ := running_eq_next h
    have h := (withClass_eq_next h).2
    refine ⟨hf, ?_⟩
    split at h
    · rw [raiseFault_eq_next.mp h]; exact .fault _
    · rw [deliver_eq_next.mp h]; exact .set _ k a vals ‹_›
  | lReset => obtain ⟨hf, h⟩ := running_eq_next h; rw [deliver_eq_next.mp h]; exact ⟨hf, .reset⟩
  | lReadChanged => obtain ⟨hf, h⟩ := running_eq_next h; rw [deliver_eq_next.mp h]; exact ⟨hf, .answer _⟩
  | lClearChanged => obtain ⟨hf, h⟩ := running_eq_next h; rw [deliver_eq_next.mp h]; exact ⟨hf, .cleared _⟩
  | lTakeChanged => obtain ⟨hf, h⟩ := running_eq_next h; rw [deliver_eq_next.mp h]; exact ⟨hf, .cleared _⟩
  | eIntRead e =>
    refine entityFetch_next h fun d ws hd hv hg hn => ?_
    split at hn
    · rw [deliver_eq_next.mp hn]; exact .cached e d _ _ hd (by simp [cacheFits, hv])
    · rw [raiseFault_eq_next.mp hn]; exact .fault _
  | eBoolRead e =>
    refine entityFetch_next h fun d ws hd hv hg hn => ?_
    split at hn
    · rw [deliver_eq_next.mp hn]; exact .cached e d _ _ hd (by simp [cacheFits, hv])
    · rw [raiseFault_eq_next.mp hn]; exact .fault _
  | eFloatRead e =>
    refine entityFetch_next h fun d ws hd hv hg hn => ?_
    split at hn
    · unfold deliverFloat at hn
      split at hn
      · rw [deliver_eq_next.mp hn]; exact .cachedDrawn e d _ _ hd (by simp [cacheFits, hv])
      · rw [deliver_eq_next.mp hn]; exact .cached e d _ _ hd (by simp [cacheFits, hv])
    · rw [raiseFault_eq_next.mp hn]; exact .fault _
  | eArrayRead e =>
    refine entityFetch_next h fun d ws hd hv hg hn => ?_
    have hlen : ws.length = d.len := by
      have := ((storeGet_eq_some _ _ _ _ _ _).mp hg).2.1; simpa [widthOf, hv] using this
    rw [deliver_eq_next.mp hn]; exact .cached e d _ _ hd (by simp [cacheFits, hv, hlen])
  | eIntCached e =>
    refine entityCached_next h fun d c hn => ?_
    split at hn
    · rw [deliver_eq_next.mp hn]; exact .answer _
    · rw [raiseFault_eq_next.mp hn]; exact .fault _
  | eBoolCached e =>
    refine entityCached_next h fun d c hn => ?_
    split at hn
    · rw [deliver_eq_next.mp hn]; exact .answer _
    · rw [raiseFault_eq_next.mp hn]; exact .fault _
  | eFloatCached e =>
    refine entityCached_next h fun d c hn => ?_
    split at hn
    · unfold deliverFloat at hn
      split at hn
      · rw [deliver_eq_next.mp hn]; exact .drawn _
      · rw [deliver_eq_next.mp hn]; exact .answer _
    · rw [raiseFault_eq_next.mp hn]; exact .fault _
  | eArrayCached e =>
    refine entityCached_next h fun d c hn => ?_
    split at hn
    · rw [deliver_eq_next.mp hn]; exact .answer _
    · rw [raiseFault_eq_next.mp hn]; exact .fault _
  | eIntWrite e v => exact entityWrite_next h
  | eBoolWrite e v => exact entityWrite_next h
  | eFloatWrite e v => exact entityWrite_next h
  | eArrayWrite e v => exact entityWrite_next h
  | _ => cases hi

/-! ### Turns and steps -/

/-- Everything one step can do: nothing but the turn, a request's step, the answer to or the drop of a frame that encodes no
request, a chunk at the transport, or a local operation. -/
inductive MachineStep (s : State) : State → Prop
  | pause : MachineStep s s.turnTaken
  | inFlight (i : Instr) (stage : Stage) (t : State) : nextAgent s = .busAgent → s.bus = .busy i stage →
      exec i s.turnTaken = .next t → MachineStep s t
  | frame (f : List Byte) (rest : List (List Byte)) (i : Instr) (t : State) : nextAgent s = .busAgent → s.bus = .idle →
      s.busIn = f :: rest → decodeFrame f = .ok i → exec i s.turnTaken.frameTaken = .next t → MachineStep s t
  | unsupported (f : List Byte) (rest : List (List Byte)) (why : Reject) : nextAgent s = .busAgent → s.bus = .idle →
      s.busIn = f :: rest → decodeFrame f = .error why → accepts s.cfg f = true →
      MachineStep s (s.turnTaken.frameTaken.emit (errorFrame (f.getD 0 0#8) (f.getD 1 0#8) .illegalFunction))
  | dropped (f : List Byte) (rest : List (List Byte)) (why : Reject) : nextAgent s = .busAgent → s.bus = .idle →
      s.busIn = f :: rest → decodeFrame f = .error why → accepts s.cfg f = false →
      MachineStep s (s.turnTaken.frameTaken.withBus .idle)
  | chunk (bytes : List Byte) (rest : List (List Byte)) (buf : List Byte) (handed : Option (List Byte)) :
      nextAgent s = .busAgent → s.bus = .idle → s.busIn = [] → s.lineIn = bytes :: rest →
      frameBuffer s.cfg (s.lineBuf ++ bytes) = (handed, buf) →
      MachineStep s (match handed with
        | some f => (s.turnTaken.chunkTaken.withBuffer buf).arrive f
        | none => s.turnTaken.chunkTaken.withBuffer buf)
  | command (c : Command) (rest : List Command) (i : Instr) (t : State) : nextAgent s = .localAgent →
      s.localIn = c :: rest → decodeCommand c = .ok i → exec i s.turnTaken.commandTaken = .next t → MachineStep s t

theorem step_next {s t : State} (h : step s = .next t) : s.fault = none ∧ MachineStep s t := by
  obtain ⟨hf, h⟩ := running_eq_next h
  refine ⟨hf, ?_⟩
  cases ha : nextAgent s with
  | busAgent =>
    rw [ha] at h
    simp only [turnOf, busTurn, State.turnTaken_bus, State.turnTaken_busIn, State.turnTaken_lineIn] at h
    split at h
    · exact .inFlight _ _ t ha ‹_› h
    · rename_i hb
      split at h
      · rename_i f rest hin
        unfold takeFrame at h
        split at h
        · exact .frame f rest _ t ha hb hin ‹_› h
        · rename_i why hdec
          obtain ⟨-, h⟩ := running_eq_next h
          split at h
          · rw [respond_eq_next.mp h]; exact .unsupported f rest why ha hb hin hdec (by simpa using ‹accepts _ _ = true›)
          · simp only [dropRequest, Host.Outcome.next.injEq] at h
            rw [← h]; exact .dropped f rest why ha hb hin hdec (by simpa using ‹¬ accepts _ _ = true›)
      · rename_i hin
        split at h
        · rename_i bytes rest hline
          obtain ⟨-, h⟩ := running_eq_next h
          split at h <;> (rename_i hfb; cases h)
          · exact .chunk bytes rest _ (some _) ha hb hin hline hfb
          · exact .chunk bytes rest _ none ha hb hin hline hfb
        · cases h; exact .pause
  | localAgent =>
    rw [ha] at h
    simp only [turnOf, localTurn, State.turnTaken_localIn] at h
    split at h
    · rename_i c rest hin
      unfold takeCommand at h
      split at h
      · exact .command c rest _ t ha hin ‹_› h
      · cases h
    · cases h; exact .pause

/-- A frame that decodes is a request. -/
theorem decodeFrame_request {f : List Byte} {i : Instr} (h : decodeFrame f = .ok i) : isRequest i = true := by
  unfold decodeFrame at h
  split at h
  · split at h
    · dsimp only at h
      split at h
      · split at h
        · rename_i hm; cases h; unfold multiRequest at hm; split at hm <;> cases hm <;> rfl
        · cases h
      · cases h
    · split at h
      · rename_i hm
        split at h
        · cases h; unfold fixedRequest at hm; split at hm <;> cases hm <;> rfl
        · cases h
      · cases h
  · cases h

/-- A command that decodes is a local operation. -/
theorem decodeCommand_local {c : Command} {i : Instr} (h : decodeCommand c = .ok i) : isRequest i = false := by
  unfold decodeCommand at h
  repeat' split at h
  all_goals first
    | (cases h; rfl)
    | cases h

theorem isRequest_iff_shape (i : Instr) : isRequest i = true ↔ ∃ r, requestShape i = some r := by
  cases i <;> simp [isRequest, requestShape]

end Sys2Proof.Machine
end

