-- ==== Sys2Proof/Laws/PerInstr.lean ====
section
/-! SUPPORT. The per-instruction family OpcodeByte: which byte of an instruction's encoding selects it, and its value in the
opcode table (30_encoding.md R70, R75). -/

namespace Sys2Proof.Laws

/-- The byte that selects the instruction: byte 1 of a request frame (R70), the selector of a command record (R75). -/
def selectingByte : Encoded → Option Byte
  | .frame f => f[1]?
  | .command c => some c.sel

/-- The code of each instruction in the tables of R70 and R75. -/
def tableCode : Instr → Byte
  | .readCoils _ _ _ _ => 1#8
  | .readDiscreteInputs _ _ _ _ => 2#8
  | .readHoldingRegisters _ _ _ _ => 3#8
  | .readInputRegisters _ _ _ _ => 4#8
  | .writeSingleCoil _ _ _ _ => 5#8
  | .writeSingleRegister _ _ _ _ => 6#8
  | .writeMultipleCoils _ _ _ _ _ => 15#8
  | .writeMultipleRegisters _ _ _ _ _ => 16#8
  | .lValidate _ _ _ => 0x01#8
  | .lGet _ _ _ => 0x02#8
  | .lSet _ _ _ => 0x03#8
  | .lReset => 0x04#8
  | .lReadChanged => 0x05#8
  | .lClearChanged => 0x06#8
  | .lTakeChanged => 0x07#8
  | .eIntRead _ => 0x10#8
  | .eIntCached _ => 0x11#8
  | .eIntWrite _ _ => 0x12#8
  | .eBoolRead _ => 0x14#8
  | .eBoolCached _ => 0x15#8
  | .eBoolWrite _ _ => 0x16#8
  | .eFloatRead _ => 0x18#8
  | .eFloatCached _ => 0x19#8
  | .eFloatWrite _ _ => 0x1A#8
  | .eArrayRead _ => 0x1C#8
  | .eArrayCached _ => 0x1D#8
  | .eArrayWrite _ _ => 0x1E#8

/-- The instruction's encoding is selected by the code the spec's tables give it. -/
def OpcodeByte.Statement (i : Instr) : Prop := selectingByte (encode i) = some (tableCode i)

theorem OpcodeByte.readCoils (dev : Byte) (addr : Word) (q : Word) (crc : Word) : OpcodeByte.Statement (.readCoils dev addr q crc) := rfl
theorem OpcodeByte.readDiscreteInputs (dev : Byte) (addr : Word) (q : Word) (crc : Word) : OpcodeByte.Statement (.readDiscreteInputs dev addr q crc) := rfl
theorem OpcodeByte.readHoldingRegisters (dev : Byte) (addr : Word) (q : Word) (crc : Word) : OpcodeByte.Statement (.readHoldingRegisters dev addr q crc) := rfl
theorem OpcodeByte.readInputRegisters (dev : Byte) (addr : Word) (q : Word) (crc : Word) : OpcodeByte.Statement (.readInputRegisters dev addr q crc) := rfl
theorem OpcodeByte.writeSingleCoil (dev : Byte) (addr : Word) (q : Word) (crc : Word) : OpcodeByte.Statement (.writeSingleCoil dev addr q crc) := rfl
theorem OpcodeByte.writeSingleRegister (dev : Byte) (addr : Word) (q : Word) (crc : Word) : OpcodeByte.Statement (.writeSingleRegister dev addr q crc) := rfl
theorem OpcodeByte.writeMultipleCoils (dev : Byte) (addr : Word) (q : Word) (payload : List Byte) (crc : Word) : OpcodeByte.Statement (.writeMultipleCoils dev addr q payload crc) := rfl
theorem OpcodeByte.writeMultipleRegisters (dev : Byte) (addr : Word) (q : Word) (payload : List Byte) (crc : Word) : OpcodeByte.Statement (.writeMultipleRegisters dev addr q payload crc) := rfl
theorem OpcodeByte.lValidate (k : Nat) (a : Nat) (n : Nat) : OpcodeByte.Statement (.lValidate k a n) := rfl
theorem OpcodeByte.lGet (k : Nat) (a : Nat) (n : Nat) : OpcodeByte.Statement (.lGet k a n) := rfl
theorem OpcodeByte.lSet (k : Nat) (a : Nat) (vals : List Word) : OpcodeByte.Statement (.lSet k a vals) := rfl
theorem OpcodeByte.lReset : OpcodeByte.Statement .lReset := rfl
theorem OpcodeByte.lReadChanged : OpcodeByte.Statement .lReadChanged := rfl
theorem OpcodeByte.lClearChanged : OpcodeByte.Statement .lClearChanged := rfl
theorem OpcodeByte.lTakeChanged : OpcodeByte.Statement .lTakeChanged := rfl
theorem OpcodeByte.eIntRead (e : Nat) : OpcodeByte.Statement (.eIntRead e) := rfl
theorem OpcodeByte.eIntCached (e : Nat) : OpcodeByte.Statement (.eIntCached e) := rfl
theorem OpcodeByte.eIntWrite (e : Nat) (v : Value) : OpcodeByte.Statement (.eIntWrite e v) := rfl
theorem OpcodeByte.eBoolRead (e : Nat) : OpcodeByte.Statement (.eBoolRead e) := rfl
theorem OpcodeByte.eBoolCached (e : Nat) : OpcodeByte.Statement (.eBoolCached e) := rfl
theorem OpcodeByte.eBoolWrite (e : Nat) (v : Value) : OpcodeByte.Statement (.eBoolWrite e v) := rfl
theorem OpcodeByte.eFloatRead (e : Nat) : OpcodeByte.Statement (.eFloatRead e) := rfl
theorem OpcodeByte.eFloatCached (e : Nat) : OpcodeByte.Statement (.eFloatCached e) := rfl
theorem OpcodeByte.eFloatWrite (e : Nat) (v : Value) : OpcodeByte.Statement (.eFloatWrite e v) := rfl
theorem OpcodeByte.eArrayRead (e : Nat) : OpcodeByte.Statement (.eArrayRead e) := rfl
theorem OpcodeByte.eArrayCached (e : Nat) : OpcodeByte.Statement (.eArrayCached e) := rfl
theorem OpcodeByte.eArrayWrite (e : Nat) (v : Value) : OpcodeByte.Statement (.eArrayWrite e v) := rfl

end Sys2Proof.Laws
end

