-- ==== Sys2Proof/Machine/Assembler.lean ====
section
/-! DEFINITION. The spec's assembler for request frames (30_encoding.md R77): it lays out the fields, packs the payload
and appends the CRC of R65. -/

namespace Sys2Proof.Machine

/-- `<MNEMONIC> dev, addr, q` for codes 1 to 6 (R77). -/
def asmFixed (dev fc : Byte) (addr q : Word) : List Byte := appendCrc (headerBytes dev fc addr q)

/-- A multi-write request with a given payload; `bc` forces byte 6 (the suffix `bc=N` of R77). -/
def asmMulti (dev fc : Byte) (addr q : Word) (payload : List Byte) (bc : Option Byte) : List Byte :=
  appendCrc (headerBytes dev fc addr q ++ [bc.getD (BitVec.ofNat 8 payload.length)] ++ payload)

/-- `WRITE_MULTIPLE_COILS dev, addr, q, bits` (R77). -/
def asmWriteMultipleCoils (dev : Byte) (addr q : Word) (bits : List Bool) : List Byte :=
  asmMulti dev 15#8 addr q (packBits bits) none

/-- `WRITE_MULTIPLE_REGISTERS dev, addr, q, words` (R77). -/
def asmWriteMultipleRegisters (dev : Byte) (addr q : Word) (words : List Word) : List Byte :=
  asmMulti dev 16#8 addr q (packWords words) none

/-- `COIL_ON dev, addr` (R77). -/
def asmCoilOn (dev : Byte) (addr : Word) : List Byte := asmFixed dev 5#8 addr 0xFF00#16

/-- `COIL_OFF dev, addr` (R77). -/
def asmCoilOff (dev : Byte) (addr : Word) : List Byte := asmFixed dev 5#8 addr 0x0000#16

/-- `READ_FLOAT dev, addr` (R77). -/
def asmReadFloat (dev : Byte) (addr : Word) : List Byte := asmFixed dev 3#8 addr 2#16

/-- `WRITE_FLOAT dev, addr, x` (R77), from the encoding of `x`. -/
def asmWriteFloat (dev : Byte) (addr : Word) (u : Bits32) : List Byte :=
  asmWriteMultipleRegisters dev addr 2#16 (floatToWords u)

end Sys2Proof.Machine
end

