-- ==== Sys2Proof/Tests/Slice0.lean ====
section
/-! SUPPORT. Smoke tests of the well-formedness checks, decode tests of words written out from the spec's encodings, one-step
tests with the values of 95_test_vectors.md, and for every statement with hypotheses a witness that meets them. -/

namespace Sys2Proof.Tests

open Sys2Proof Sys2Proof.Machine

/- One theorem after another: a worker thread for each would pass the memory limit. -/
set_option Elab.async false

/-! ### Helpers -/

def nextOf : Result → Option State
  | .next t => some t
  | .fault _ => none
  | .refused _ => none

def after (s : State) (r : Result) : State := (nextOf r).getD s

theorem eq_next {s : State} {r : Result} (h : (nextOf r).isSome = true) : r = .next (after s r) := by
  cases r with
  | next t => rfl
  | fault _ => cases h
  | refused _ => cases h

/-- A request of EX-A at one of its stages, everything else as after reset. -/
def atStage (i : Instr) (stage : Stage) : State := { State.powerOn Config.exA with bus := .busy i stage }

/-- The frames one step of a request emits. -/
def emitted (i : Instr) (stage : Stage) : Option (List (List Byte)) :=
  (nextOf (exec i (atStage i stage))).map State.busOut

/-- The cells of a class from a key on, and `changed`, after the set step of a request. -/
def stored (i : Instr) (k key n : Nat) : Option (Option (List Word) × Bool) :=
  (nextOf (exec i (atStage i .set))).map fun t => (ClassMap.readCells (t.store.map k) key n, t.store.changed)

/-- EX-A or EX-B after one operation: the results returned, the fault register and `changed`. -/
def localOf (cfg : Config) (i : Instr) : Option (List LocalResult × Option FaultReason × Bool) :=
  (nextOf (exec i (State.powerOn cfg))).map fun t => (t.localOut, t.fault, t.store.changed)

/-! ### Well-formedness: each check refuses an ill-formed term -/

theorem test_wf_coils_256 :
    Instr.wellFormed (.writeMultipleCoils 1#8 0#16 8#16 (List.replicate 256 0#8) 0#16) = false := by decide +kernel
theorem test_wf_registers_256 :
    Instr.wellFormed (.writeMultipleRegisters 1#8 0#16 8#16 (List.replicate 256 0#8) 0#16) = false := by decide +kernel
theorem test_wf_255 :
    Instr.wellFormed (.writeMultipleRegisters 1#8 0#16 8#16 (List.replicate 255 0#8) 0#16) = true := by decide +kernel
theorem test_config_ok : configOk Config.exA = true ∧ configOk Config.exB = true ∧ configOk Config.exC = true ∧
    configOk Config.exD = true := by decide +kernel
theorem test_config_offset : configOk { Config.exA with addrOffset := 2 } = false := by decide +kernel
theorem test_config_co : configOk { Config.exA with co := ⟨[(0, 0x10000)], false⟩ } = false := by decide +kernel
theorem test_config_di : configOk { Config.exA with di := ⟨[(0, 1), (0, 2)], false⟩ } = false := by decide +kernel
theorem test_config_hr : configOk { Config.exA with hr := ⟨[(5, 1), (4, 2)], false⟩ } = false := by decide +kernel
theorem test_config_ir : configOk { Config.exA with ir := ⟨[(0, 0x10000)], true⟩ } = false := by decide +kernel
theorem test_config_extra_bound_code :
    configOk { Config.exA with extra := [⟨3, 9, ⟨[], false⟩⟩] } = false := by decide +kernel
theorem test_config_extra_code_range :
    configOk { Config.exA with extra := [⟨256, 9, ⟨[], false⟩⟩] } = false := by decide +kernel
theorem test_config_extra_label :
    configOk { Config.exA with extra := [⟨65, 9, ⟨[], false⟩⟩, ⟨66, 9, ⟨[], false⟩⟩] } = false := by decide +kernel
theorem test_config_extra_snapshot :
    configOk { Config.exA with extra := [⟨65, 9, ⟨[(0, 0x10000)], false⟩⟩] } = false := by decide +kernel
theorem test_build_ill_formed : State.build { Config.exA with addrOffset := 2 } = none := by decide +kernel

/-! ### Decoding of words written out from R61, R62, R70 and R75 -/

/-- Bit by bit: device 00010001, code 00000001, address 0x0013, quantity 0x0025, CRC low byte first. -/
theorem test_decode_read_coils : decodeFrame [0b00010001#8, 0b00000001#8, 0b00000000#8, 0b00010011#8, 0b00000000#8, 0b00100101#8, 0b00001110#8, 0b10000100#8] =
    .ok (.readCoils 0x11#8 0x0013#16 0x0025#16 0x840E#16) := by decide +kernel
theorem test_decode_read_discrete_inputs : decodeFrame [0x01#8, 0x02#8, 0x00#8, 0x07#8, 0x00#8, 0x02#8, 0x48#8, 0x0A#8] =
    .ok (.readDiscreteInputs 0x01#8 0x0007#16 0x0002#16 0x0A48#16) := by decide +kernel
theorem test_decode_read_holding_registers : decodeFrame [0x01#8, 0x03#8, 0x00#8, 0x09#8, 0x00#8, 0x02#8, 0x14#8, 0x09#8] =
    .ok (.readHoldingRegisters 0x01#8 0x0009#16 0x0002#16 0x0914#16) := by decide +kernel
theorem test_decode_read_input_registers : decodeFrame [0x01#8, 0x04#8, 0x00#8, 0x03#8, 0x00#8, 0x02#8, 0x81#8, 0xCB#8] =
    .ok (.readInputRegisters 0x01#8 0x0003#16 0x0002#16 0xCB81#16) := by decide +kernel
theorem test_decode_write_single_coil : decodeFrame [0x01#8, 0x05#8, 0x00#8, 0x03#8, 0xFF#8, 0x00#8, 0x7C#8, 0x3A#8] =
    .ok (.writeSingleCoil 0x01#8 0x0003#16 0xFF00#16 0x3A7C#16) := by decide +kernel
theorem test_decode_write_single_register : decodeFrame [0x01#8, 0x06#8, 0x00#8, 0x01#8, 0x56#8, 0x78#8, 0xE7#8, 0x88#8] =
    .ok (.writeSingleRegister 0x01#8 0x0001#16 0x5678#16 0x88E7#16) := by decide +kernel
theorem test_decode_write_multiple_coils : decodeFrame [0x01#8, 0x0F#8, 0x00#8, 0x00#8, 0x00#8, 0x0A#8, 0x02#8, 0xCD#8, 0x01#8, 0x70#8, 0x68#8] =
    .ok (.writeMultipleCoils 0x01#8 0x0000#16 0x000A#16 [0xCD#8, 0x01#8] 0x6870#16) := by decide +kernel
theorem test_decode_write_multiple_coils_empty : decodeFrame [0x01#8, 0x0F#8, 0x00#8, 0x00#8, 0x00#8, 0x00#8, 0x00#8, 0x0B#8, 0x3F#8] =
    .ok (.writeMultipleCoils 0x01#8 0x0000#16 0x0000#16 [] 0x3F0B#16) := by decide +kernel
/-- Bit by bit: code 00010000, address 0x0104, quantity 0x0002, byte count 4, the payload, CRC 0x1234 low byte first. -/
theorem test_decode_write_multiple_registers : decodeFrame [0b00000001#8, 0b00010000#8, 0b00000001#8, 0b00000100#8, 0b00000000#8, 0b00000010#8, 0b00000100#8, 0b00111111#8,
      0b11000000#8, 0b00000000#8, 0b00000001#8, 0b00110100#8, 0b00010010#8] =
    .ok (.writeMultipleRegisters 0x01#8 0x0104#16 0x0002#16 [0x3F#8, 0xC0#8, 0x00#8, 0x01#8] 0x1234#16) := by decide +kernel
theorem test_decode_short : decodeFrame [0x01#8, 0x03#8, 0x00#8, 0x00#8, 0x00#8] = .error (.frameTooShort) := by decide +kernel
theorem test_decode_long : decodeFrame [0x01#8, 0x03#8, 0x00#8, 0x00#8, 0x00#8, 0x0A#8, 0xC5#8, 0xCD#8, 0x00#8] = .error (.frameWrongLength) := by decide +kernel
theorem test_decode_byte_count : decodeFrame [0x01#8, 0x10#8, 0x00#8, 0x00#8, 0x00#8, 0x01#8, 0x02#8, 0x00#8, 0x01#8, 0x67#8, 0x00#8, 0x00#8] = .error (.frameWrongLength) := by decide +kernel
theorem test_decode_unsupported : decodeFrame [0x01#8, 0x07#8, 0x00#8, 0x00#8, 0x00#8, 0x01#8, 0x75#8, 0xCA#8] = .error (.unsupportedFunction 0x07#8) := by decide +kernel
theorem test_decode_code_0 : decodeFrame [0x01#8, 0x00#8, 0x00#8, 0x00#8, 0x00#8, 0x00#8, 0x01#8, 0xCA#8] = .error (.unsupportedFunction 0x00#8) := by decide +kernel
theorem test_decode_code_17 : decodeFrame [0x01#8, 0x11#8, 0x00#8, 0x00#8, 0x00#8, 0x00#8, 0xFD#8, 0xC9#8] = .error (.unsupportedFunction 0x11#8) := by decide +kernel
theorem test_decode_l_validate : decodeCommand ⟨0b00000001#8, [.nat 2, .nat 8, .nat 3]⟩ = .ok (.lValidate 2 8 3) := by decide +kernel
theorem test_decode_l_get : decodeCommand ⟨0x02#8, [.nat 2, .nat 8, .nat 3]⟩ = .ok (.lGet 2 8 3) := by decide +kernel
theorem test_decode_l_set : decodeCommand ⟨0x03#8, [.nat 3, .nat 1, .list [0x64, 0xFFFF]]⟩ = .ok (.lSet 3 1 [0x0064#16, 0xFFFF#16]) := by decide +kernel
theorem test_decode_l_reset : decodeCommand ⟨0x04#8, []⟩ = .ok (.lReset) := by decide +kernel
theorem test_decode_l_read_changed : decodeCommand ⟨0x05#8, []⟩ = .ok (.lReadChanged) := by decide +kernel
theorem test_decode_l_clear_changed : decodeCommand ⟨0x06#8, []⟩ = .ok (.lClearChanged) := by decide +kernel
theorem test_decode_l_take_changed : decodeCommand ⟨0x07#8, []⟩ = .ok (.lTakeChanged) := by decide +kernel
theorem test_decode_e_int_read : decodeCommand ⟨0x10#8, [.nat 3]⟩ = .ok (.eIntRead 3) := by decide +kernel
theorem test_decode_e_int_cached : decodeCommand ⟨0x11#8, [.nat 3]⟩ = .ok (.eIntCached 3) := by decide +kernel
theorem test_decode_e_int_write : decodeCommand ⟨0b00010010#8, [.nat 3, .nat 9]⟩ = .ok (.eIntWrite 3 (.nat 9)) := by decide +kernel
theorem test_decode_e_bool_read : decodeCommand ⟨0x14#8, [.nat 3]⟩ = .ok (.eBoolRead 3) := by decide +kernel
theorem test_decode_e_bool_cached : decodeCommand ⟨0x15#8, [.nat 3]⟩ = .ok (.eBoolCached 3) := by decide +kernel
theorem test_decode_e_bool_write : decodeCommand ⟨0x16#8, [.nat 3, .bool true]⟩ = .ok (.eBoolWrite 3 (.bool true)) := by decide +kernel
theorem test_decode_e_float_read : decodeCommand ⟨0x18#8, [.nat 3]⟩ = .ok (.eFloatRead 3) := by decide +kernel
theorem test_decode_e_float_cached : decodeCommand ⟨0x19#8, [.nat 3]⟩ = .ok (.eFloatCached 3) := by decide +kernel
theorem test_decode_e_float_write : decodeCommand ⟨0x1A#8, [.nat 3, .float 0x3FC00000#32]⟩ = .ok (.eFloatWrite 3 (.float 0x3FC00000#32)) := by decide +kernel
theorem test_decode_e_array_read : decodeCommand ⟨0x1C#8, [.nat 3]⟩ = .ok (.eArrayRead 3) := by decide +kernel
theorem test_decode_e_array_cached : decodeCommand ⟨0x1D#8, [.nat 3]⟩ = .ok (.eArrayCached 3) := by decide +kernel
theorem test_decode_e_array_write : decodeCommand ⟨0x1E#8, [.nat 3, .list [1, 2, 3]]⟩ = .ok (.eArrayWrite 3 (.list [1, 2, 3])) := by decide +kernel
theorem test_decode_reserved : decodeCommand ⟨0x13#8, [.nat 0]⟩ = .error (.reservedSelector 0x13#8) ∧
    decodeCommand ⟨0xFF#8, []⟩ = .error (.reservedSelector 0xFF#8) ∧
    decodeCommand ⟨0x00#8, []⟩ = .error (.reservedSelector 0x00#8) := by decide +kernel
theorem test_decode_shape : decodeCommand ⟨0x03#8, [.nat 2, .nat 0, .list [0x10000]]⟩ = .error (.operandShape 0x03#8) ∧
    decodeCommand ⟨0x02#8, [.nat 2]⟩ = .error (.operandShape 0x02#8) := by decide +kernel
/-- The opcode table numbers bit 0 as the least significant bit of the first byte. -/
theorem test_table_word : decodeTableWord 64 0xCDC50A0000000301 = some (.readHoldingRegisters 0x01#8 0#16 10#16 0xCDC5#16) ∧
    decodeTableWord 8 0x1D = some (.eArrayCached 0) := by decide +kernel
/-- The step after reset takes a table word's command, or its frame when the frame passes the acceptance checks. -/
theorem test_fetch_command : (nextOf (step (State.reset.withFetchWord 8 0x10))).map State.localOut = some [.word 9#16] := by
  decide +kernel
theorem test_fetch_frame : (nextOf (step (State.reset.withFetchWord 64 0xCDC50A0000000301))).map State.bus =
    some (.busy (.readHoldingRegisters 0x01#8 0#16 10#16 0xCDC5#16) .guard) := by decide +kernel
/-- The assembler of R77 lays out the frames of 95_test_vectors.md. -/
theorem test_assembler :
    asmReadFloat 0x01#8 4#16 = asmFixed 0x01#8 3#8 4#16 2#16 ∧
    asmCoilOn 0x01#8 3#16 = [0x01#8, 0x05#8, 0x00#8, 0x03#8, 0xFF#8, 0x00#8, 0x7C#8, 0x3A#8] ∧ asmCoilOff 0x01#8 3#16 = [0x01#8, 0x05#8, 0x00#8, 0x03#8, 0x00#8, 0x00#8, 0x3D#8, 0xCA#8] ∧
    asmWriteFloat 0x01#8 4#16 0x3FC00000#32 =
      [0x01#8, 0x10#8, 0x00#8, 0x04#8, 0x00#8, 0x02#8, 0x04#8, 0x3F#8, 0xC0#8, 0x00#8, 0x00#8, 0xFE#8, 0x74#8] ∧
    asmWriteMultipleCoils 0x01#8 0#16 10#16 [true, false, true, true, false, false, true, true, true, false] =
      [0x01#8, 0x0F#8, 0x00#8, 0x00#8, 0x00#8, 0x0A#8, 0x02#8, 0xCD#8, 0x01#8, 0x70#8, 0x68#8] := by decide +kernel

/-! ### CRC and codec (95_test_vectors.md 3.1) -/

theorem test_crc_rounds : crcRound (0xFFFF#16 ^^^ 0x0001#16) = 0x7FFF#16 ∧ crcRounds 2 0xFFFE#16 = 0x9FFE#16 ∧
    crcByte 0xFFFF#16 0x01#8 = 0x807E#16 := by decide +kernel
theorem test_crc : crc16 [] = 0xFFFF#16 ∧ crc16 [0x00#8] = 0x40BF#16 ∧ crc16 [0xFF#8] = 0x00FF#16 ∧
    crc16 [0x01#8, 0x03#8, 0x00#8, 0x00#8, 0x00#8, 0x0A#8] = 0xCDC5#16 ∧
    crc16 [0x31#8, 0x32#8, 0x33#8, 0x34#8, 0x35#8, 0x36#8, 0x37#8, 0x38#8, 0x39#8] = 0x4B37#16 := by decide +kernel
theorem test_frame_check : frameCheck [0x01#8, 0x03#8, 0x00#8, 0x00#8, 0x00#8, 0x0A#8, 0xC5#8, 0xCD#8] = true ∧
    frameCheck [0x01#8, 0x03#8, 0x00#8, 0x00#8, 0x00#8, 0x0A#8, 0xC5#8, 0xCC#8] = false ∧
    frameCheck [0x01#8, 0x03#8, 0x00#8, 0x00#8, 0x00#8, 0x19#8, 0x84#8] = false := by decide +kernel
theorem test_packing : packWords [0x1234#16, 0x00FF#16] = [0x12#8, 0x34#8, 0x00#8, 0xFF#8] ∧
    packBits [true, false, true, true, false, false, true, true, true, false] = [0xCD#8, 0x01#8] ∧
    unpackBits [0xFF#8] 3 = [true, true, true] ∧
    floatToWords 0x3DCCCCCD#32 = [0x3DCC#16, 0xCCCD#16] ∧ wordsToFloat 0x42C8#16 0#16 = 0x42C80000#32 := by decide +kernel
theorem test_error_frame : errorFrame 0x01#8 0x03#8 .illegalDataAddress = [0x01#8, 0x83#8, 0x02#8, 0xC0#8, 0xF1#8] ∧
    errorFrame 0x01#8 0x07#8 .illegalFunction = [0x01#8, 0x87#8, 0x01#8, 0x82#8, 0x30#8] := by decide +kernel

/-! ### Rounding (95_test_vectors.md 3.4): the binary64 encodings of the decimals of its table -/

theorem test_round_tenth : roundDec 0x3DCCCCCD#32 4 = 0x3FB999999999999A#64 := by decide +kernel
theorem test_round_third : roundDec 0x3EAAAAAB#32 4 = 0x3FD554C985F06F69#64 ∧
    roundDec 0x3EAAAAAB#32 2 = 0x3FD51EB851EB851F#64 := by decide +kernel
theorem test_round_large : roundDec 0x47F1E365#32 4 = 0x40FE3C6CA0275254#64 := by decide +kernel
theorem test_round_to_negative_zero : roundDec 0xB727C5AC#32 4 = 0x8000000000000000#64 := by decide +kernel
theorem test_round_largest : roundDec 0x7F7FFFFF#32 4 = 0x47EFFFFFE0000000#64 := by decide +kernel
theorem test_round_infinity : roundDec 0x7F800000#32 4 = 0x7FF0000000000000#64 := by decide +kernel
theorem test_widen : widen64 0x3DCCCCCD#32 = 0x3FB99999A0000000#64 ∧ widen64 0xC0100000#32 = 0xC002000000000000#64 ∧
    widen64 0x00000001#32 = 0x36A0000000000000#64 := by decide +kernel

/-! ### Power-on -/

/-- EX-B after reset, as 95_test_vectors.md part 1 gives it. -/
theorem test_reset : State.reset.store.changed = true ∧ State.reset.fault = none ∧ State.reset.bus = .idle ∧
    State.reset.store.mem = snapshotMemory Config.exA ∧
    State.reset.caches = [.word 9#16, .word 0#16, .float 0#32, .words [0#16, 0#16, 0#16]] := by decide +kernel
theorem test_reset_memory_wf : Memory.wf State.reset.store.mem = true := by decide +kernel
theorem test_cache_only : (State.powerOn { Config.exB with entityInit := .cacheOnly }).store.changed = false := by
  decide +kernel
theorem test_construct_address : (State.powerOn { Config.exB with
    entities := [{ variant := .float, cls := 2, addr := 9, initial := .float 0#32 }] }).fault = some .addressError := by
  decide +kernel
theorem test_construct_type : (State.powerOn { Config.exB with
    entities := [{ variant := .array, cls := 2, addr := 6, len := 3, initial := .list [0, 0] }] }).fault =
      some .typeError ∧
    (State.powerOn { Config.exB with
      entities := [{ variant := .int, cls := 2, addr := 0, initial := .nat 0x10000 }] }).fault = some .typeError := by
  decide +kernel

/-! ### One step of each request (95_test_vectors.md 3.2), EX-A -/

theorem test_read_coils : emitted (.readCoils 0x01#8 0x0000#16 0x000A#16 0x0DBC#16) .get =
    some [[0x01#8, 0x01#8, 0x02#8, 0x00#8, 0x00#8, 0xB9#8, 0xFC#8]] := by decide +kernel
theorem test_read_coils_2041 : emitted (.readCoils 0x01#8 0x0000#16 0x07F9#16 0x78FE#16) .guard =
    some [[0x01#8, 0x81#8, 0x03#8, 0x00#8, 0x51#8]] := by decide +kernel
theorem test_read_discrete_inputs : emitted (.readDiscreteInputs 0x01#8 0x0000#16 0x0003#16 0x0B38#16) .get =
    some [[0x01#8, 0x02#8, 0x01#8, 0x05#8, 0x61#8, 0x8B#8]] := by decide +kernel
theorem test_read_discrete_inputs_past_end : emitted (.readDiscreteInputs 0x01#8 0x0007#16 0x0002#16 0x0A48#16) .validate =
    some [[0x01#8, 0x82#8, 0x02#8, 0xC1#8, 0x61#8]] := by decide +kernel
theorem test_read_holding_registers : emitted (.readHoldingRegisters 0x01#8 0x0000#16 0x0004#16 0x0944#16) .get =
    some [[0x01#8, 0x03#8, 0x08#8, 0x12#8, 0x34#8, 0x00#8, 0x00#8, 0x00#8, 0xFF#8, 0xAB#8, 0xCD#8, 0xEE#8, 0x54#8]] := by decide +kernel
theorem test_read_holding_registers_128 : emitted (.readHoldingRegisters 0x01#8 0x0000#16 0x0080#16 0x6A44#16) .guard =
    some [[0x01#8, 0x83#8, 0x03#8, 0x01#8, 0x31#8]] := by decide +kernel
theorem test_read_input_registers : emitted (.readInputRegisters 0x01#8 0x0002#16 0x0002#16 0x0BD0#16) .get =
    some [[0x01#8, 0x04#8, 0x04#8, 0x80#8, 0x00#8, 0xFF#8, 0xFF#8, 0xD3#8, 0xF4#8]] := by decide +kernel
theorem test_read_input_registers_past_end : emitted (.readInputRegisters 0x01#8 0x0003#16 0x0002#16 0xCB81#16) .validate =
    some [[0x01#8, 0x84#8, 0x02#8, 0xC2#8, 0xC1#8]] := by decide +kernel
theorem test_write_single_coil : stored (.writeSingleCoil 0x01#8 0x0003#16 0x1234#16 0xBD30#16) 0 2 3 =
    some (some [0#16, 1#16, 0#16], true) := by decide +kernel
/-- After its set, the echo of code 5 shows the stored coil in the STD form (V-F5c). -/
theorem test_write_single_coil_echo :
    (nextOf (exec (.writeSingleCoil 0x01#8 0x0003#16 0x1234#16 0xBD30#16) { State.powerOn { Config.exA with co := ⟨[(3, 1)], false⟩ } with
      bus := .busy (.writeSingleCoil 0x01#8 0x0003#16 0x1234#16 0xBD30#16) .get })).map State.busOut =
    some [[0x01#8, 0x05#8, 0x00#8, 0x03#8, 0xFF#8, 0x00#8, 0x7C#8, 0x3A#8]] := by decide +kernel
theorem test_write_single_register : stored (.writeSingleRegister 0x01#8 0x0001#16 0x5678#16 0x88E7#16) 2 0 3 =
    some (some [0x1234#16, 0x5678#16, 0x00FF#16], true) := by decide +kernel
theorem test_write_single_register_absent : emitted (.writeSingleRegister 0x01#8 0x000A#16 0x0007#16 0x0AE8#16) .validate =
    some [[0x01#8, 0x86#8, 0x02#8, 0xC3#8, 0xA1#8]] := by decide +kernel
theorem test_write_multiple_coils : stored (.writeMultipleCoils 0x01#8 0x000E#16 0x0002#16 [0x03#8] 0x57F7#16) 0 13 3 =
    some (some [0#16, 1#16, 1#16], true) := by decide +kernel
theorem test_write_multiple_coils_byte_count : emitted (.writeMultipleCoils 0x01#8 0x0000#16 0x000A#16 [0xCD#8] 0xC09E#16) .guard =
    some [[0x01#8, 0x8F#8, 0x03#8, 0x04#8, 0x31#8]] := by decide +kernel
theorem test_write_multiple_registers : stored (.writeMultipleRegisters 0x01#8 0x0004#16 0x0002#16 [0x3F#8, 0xC0#8, 0x00#8, 0x00#8] 0x74FE#16) 2 3 3 =
    some (some [0xABCD#16, 0x3FC0#16, 0#16], true) := by decide +kernel
theorem test_write_multiple_registers_answer : emitted (.writeMultipleRegisters 0x01#8 0x0004#16 0x0002#16 [0x3F#8, 0xC0#8, 0x00#8, 0x00#8] 0x74FE#16) .set =
    some [[0x01#8, 0x10#8, 0x00#8, 0x04#8, 0x00#8, 0x02#8, 0x00#8, 0x09#8]] := by decide +kernel
/-- The guard comes before the quantity check (R122, D9): with HR empty the answer is 0x02, not 0x03. -/
theorem test_empty_class_first :
    (nextOf (exec (.writeMultipleRegisters 0x01#8 0x0000#16 0x0002#16 [0x00#8, 0x01#8] 0xD467#16) { State.powerOn { Config.exA with hr := ⟨[], false⟩ } with
      bus := .busy (.writeMultipleRegisters 0x01#8 0x0000#16 0x0002#16 [0x00#8, 0x01#8] 0xD467#16) .guard })).map State.busOut =
    some [[0x01#8, 0x90#8, 0x02#8, 0xCD#8, 0xC1#8]] := by decide +kernel
/-- One-based addresses (EX-D): external 0 is key 1. -/
theorem test_offset :
    (nextOf (exec (.readHoldingRegisters 0x01#8 0x0000#16 0x0002#16 0x0BC4#16) { State.powerOn Config.exD with
      bus := .busy (.readHoldingRegisters 0x01#8 0x0000#16 0x0002#16 0x0BC4#16) .get })).map State.busOut =
    some [[0x01#8, 0x03#8, 0x04#8, 0x00#8, 0x00#8, 0x00#8, 0xFF#8, 0xBA#8, 0x73#8]] := by decide +kernel

/-! ### One step of each local operation (95_test_vectors.md 3.3, 3.4) -/

theorem test_l_validate : localOf Config.exA (.lValidate 2 8 2) = some ([.bool true], none, false) := by
  decide +kernel
theorem test_l_validate_past_end : localOf Config.exA (.lValidate 2 9 2) = some ([.bool false], none, false) := by
  decide +kernel
theorem test_l_get : localOf Config.exA (.lGet 2 2 2) = some ([.words [0x00FF#16, 0xABCD#16]], none, false) := by
  decide +kernel
theorem test_l_get_invalid : localOf Config.exA (.lGet 2 9 2) = some ([], some .getInvalid, false) := by
  decide +kernel
theorem test_l_set : localOf Config.exA (.lSet 3 0 [0x0064#16]) = some ([.ok], none, true) := by
  decide +kernel
theorem test_l_set_new_key : localOf Config.exA (.lSet 2 10 [1#16]) = some ([], some .paramError, false) := by
  decide +kernel
theorem test_l_set_empty : localOf Config.exA (.lSet 2 0 []) = some ([.ok], none, false) := by
  decide +kernel
theorem test_l_set_grows : (nextOf (exec (.lSet 2 10 [7#16]) (State.powerOn Config.exC))).map
    (fun t => ClassMap.find (t.store.map 2) 10) = some (some 7#16) := by decide +kernel
/-- V-L12: L_RESET removes a key that growth added. -/
theorem test_l_reset : (nextOf (exec .lReset { State.powerOn Config.exC with
      store := { mem := [[], [], [(10, 7#16)], []], changed := true } })).map
    (fun t => (t.store.mem == snapshotMemory Config.exC, t.store.changed)) = some (true, true) := by decide +kernel
theorem test_l_read_changed : localOf Config.exA (.lReadChanged) = some ([.bool false], none, false) := by
  decide +kernel
theorem test_l_read_changed_set : localOf Config.exB (.lReadChanged) = some ([.bool true], none, true) := by
  decide +kernel
theorem test_l_clear_changed : localOf Config.exB (.lClearChanged) = some ([.done], none, false) := by
  decide +kernel
theorem test_l_take_changed : localOf Config.exB (.lTakeChanged) = some ([.bool true], none, false) := by
  decide +kernel
theorem test_l_get_absent_class : exec (.lGet 7 0 1) (State.powerOn Config.exA) = .refused (.absentClass 7) := by rfl

theorem test_e_int_read : localOf Config.exB (.eIntRead 0) = some ([.word 9#16], none, true) := by
  decide +kernel
theorem test_e_int_cached : localOf Config.exB (.eIntCached 0) = some ([.word 9#16], none, true) := by
  decide +kernel
theorem test_e_int_write_same : localOf Config.exB (.eIntWrite 0 (.nat 9)) = some ([.unchanged], none, true) := by
  decide +kernel
theorem test_e_int_write_wide : localOf Config.exB (.eIntWrite 0 (.nat 0x10000)) = some ([], some .typeError, true) := by
  decide +kernel
theorem test_e_bool_read : localOf Config.exB (.eBoolRead 1) = some ([.bool false], none, true) := by
  decide +kernel
theorem test_e_bool_cached : localOf Config.exB (.eBoolCached 1) = some ([.bool false], none, true) := by
  decide +kernel
theorem test_e_bool_write : localOf Config.exB (.eBoolWrite 1 (.bool true)) = some ([.changed], none, true) := by
  decide +kernel
theorem test_e_float_read_other_variant : localOf Config.exB (.eFloatRead 0) = some ([], some .typeError, true) := by
  decide +kernel
theorem test_e_float_cached : localOf Config.exB (.eFloatCached 2) = some ([.float 0#64], none, true) := by
  decide +kernel
theorem test_e_float_write_same : localOf Config.exB (.eFloatWrite 2 (.float 0#32)) = some ([.unchanged], none, true) := by
  decide +kernel
/-- V-E13: -0.0 differs from 0.0, and both cells are written. -/
theorem test_e_float_write_negative_zero :
    (nextOf (exec (.eFloatWrite 2 (.float 0x80000000#32)) State.reset)).map
      (fun t => (t.localOut, ClassMap.readCells (t.store.map 2) 4 2, t.caches[2]?)) =
    some ([.changed], some [0x8000#16, 0#16], some (.float 0x80000000#32)) := by decide +kernel
/-- V-E15: the cells hold 1.5. -/
theorem test_e_float_read :
    (nextOf (exec (.eFloatRead 2) { State.reset with
      store := { mem := [[], [], [(4, 0x3FC0#16), (5, 0#16)], []], changed := true } })).map
      (fun t => (t.localOut, t.caches[2]?)) =
    some ([.float 0x3FF8000000000000#64], some (.float 0x3FC00000#32)) := by decide +kernel
theorem test_e_array_read : localOf Config.exB (.eArrayRead 3) = some ([.words [0#16, 0#16, 0#16]], none, true) := by
  decide +kernel
theorem test_e_array_cached : localOf Config.exB (.eArrayCached 3) = some ([.words [0#16, 0#16, 0#16]], none, true) := by
  decide +kernel
theorem test_e_array_write : (nextOf (exec (.eArrayWrite 3 (.list [0, 5, 0])) State.reset)).map
    (fun t => (t.localOut, ClassMap.readCells (t.store.map 2) 6 3)) =
    some ([.changed], some [0#16, 5#16, 0#16]) := by decide +kernel
theorem test_e_array_write_length : localOf Config.exB (.eArrayWrite 3 (.list [0, 0])) = some ([], some .typeError, true) := by
  decide +kernel

/-! ### Witnesses: a state and operands that meet the hypotheses of each statement that has any -/

/-- A small well-formed configuration with an entity of each variant. -/
def tinyConfig : Config where
  devAddr := 0x01#8
  addrOffset := 0
  co := ⟨[(0, 0)], false⟩
  di := ⟨[(0, 1)], false⟩
  hr := ⟨[(0, 5), (1, 0), (2, 0)], false⟩
  ir := ⟨[(0, 7)], false⟩
  extra := []
  entities := [{ variant := .int, cls := 2, addr := 0, initial := .nat 5 },
    { variant := .bool, cls := 0, addr := 0, initial := .bool false },
    { variant := .float, cls := 2, addr := 1, initial := .float 0#32 },
    { variant := .array, cls := 2, addr := 0, len := 2, initial := .list [5, 0] }]
  entityInit := .cacheOnly
  coilEcho := .std

/-- The block of that configuration, idle, with nothing at its ports. -/
def tiny : State where
  cfg := tinyConfig
  store := snapshotStore tinyConfig
  fault := none
  caches := [.word 5#16, .word 0#16, .float 0#32, .words [5#16, 0#16]]
  bus := .idle
  busIn := []
  busOut := []
  localIn := []
  localOut := []
  lineIn := []
  lineBuf := []
  sched := []
  nanDraws := 0

/-- Requests with the CRCs of 95_test_vectors.md, all within the cells of `tiny`. -/
def readOne : Instr := .readHoldingRegisters 0x01#8 0#16 1#16 0x0A84#16
def readCoil : Instr := .readCoils 0x01#8 0#16 1#16 0xCAFD#16
def writeOne : Instr := .writeSingleRegister 0x01#8 1#16 0x5678#16 0x88E7#16

/-- A write of the coils 0 to 9 of EX-A, and of its registers 4 and 5. -/
def writeCoils : Instr := .writeMultipleCoils 0x01#8 0#16 10#16 [0xCD#8, 0x01#8] 0x6870#16
def writeFloat : Instr := .writeMultipleRegisters 0x01#8 4#16 2#16 [0x3F#8, 0xC0#8, 0#8, 0#8] 0x74FE#16

/-- The block with any bus state that is consistent meets the invariant. -/
theorem tiny_inv (s : State) (hc : s.cfg = tiny.cfg) (hs : s.store = tiny.store) (hca : s.caches = tiny.caches)
    (hb : busConsistent s) : Inv s := by
  obtain ⟨cfg, store, fault, caches, bus, busIn, busOut, localIn, localOut, lineIn, lineBuf, sched, nanDraws⟩ := s
  cases hc; cases hs; cases hca
  refine ⟨snapshotMemory_wf _, snapshotMemory_length _, fun _ _ h => h, fun _ _ _ h => h, fun _ => ⟨rfl, ?_⟩, fun _ => ?_, hb⟩
  · intro e d c hd hcache
    rcases e with _ | _ | _ | _ | e
    · cases hd; cases hcache; rfl
    · cases hd; cases hcache; rfl
    · cases hd; cases hcache; rfl
    · cases hd; cases hcache; rfl
    · cases hd
  · show ∀ d ∈ tinyConfig.entities, storeValidate tinyConfig (snapshotStore tinyConfig) d.cls d.addr (widthOf d) = true
    decide +kernel

theorem consistent_of_idle {s : State} (h : s.bus = .idle) : busConsistent s := by
  intro i stage hb; rw [h] at hb; cases hb

theorem consistent_of_read (stage : Stage) (h : stage ∈ [Stage.guard, Stage.validate, Stage.get]) :
    busConsistent { tiny with bus := .busy readOne stage } := by
  intro i st hb
  cases hb
  refine ⟨_, rfl, ?_, h, fun _ => rfl, fun _ _ => ?_⟩
  · show accepts tinyConfig (frameBytes readOne) = true
    decide +kernel
  · show storeValidate tinyConfig (snapshotStore tinyConfig) 2 0 1 = true
    decide +kernel

theorem witness_RequestFieldsStandAtTheirBytes : ([] : List Byte).length = (0#8).toNat ∧
    [0x3F#8, 0xC0#8].length = (2#8).toNat ∧ (List.replicate 255 0xA5#8).length = (255#8).toNat := by decide +kernel

theorem witness_DecodedFramesFollowTheFunctionCodeMap : decodeFrame (frameBytes writeFloat) = .ok writeFloat ∧
    decodeFrame (frameBytes readOne) = .ok readOne := ⟨rfl, rfl⟩

/-- Selectors at the edges of the table's ranges. -/
theorem witness_ReservedSelectorsAreRefused : ∀ sel ∈ [0x00#8, 0x08#8, 0x13#8, 0x1B#8, 0x1F#8, 0xFF#8],
    let s : State := { tiny with sched := [.localAgent], localIn := [⟨sel, []⟩] }
    s.fault = none ∧ nextAgent s = .localAgent ∧ s.localIn = ⟨sel, []⟩ :: [] ∧
    sel.toNat ∉ [0x01, 0x02, 0x03, 0x04, 0x05, 0x06, 0x07, 0x10, 0x11, 0x12, 0x14, 0x15, 0x16, 0x18, 0x19, 0x1A,
      0x1C, 0x1D, 0x1E] := by decide +kernel

theorem witness_BitsPackLeastSignificantFirst : 1 < (packBits (List.replicate 9 true)).length ∧ 7 < 8 := by
  decide +kernel

theorem witness_UnpackingInvertsBitPacking : 8 ≤ 8 * [0xCD#8].length ∧ 0 ≤ 8 * ([] : List Byte).length ∧
    8 * [0xCD#8].length ≤ 11 ∧ 11 ≤ 8 * [0xCD#8].length + 8 ∧
    (∀ j < 11 - 8 * [0xCD#8].length, (0xFF#8).getLsbD j = (0x07#8).getLsbD j) := by decide

/-- The bits beyond of a partial byte are ignored (R107). -/
theorem test_unpack_stray_bits : unpackBits [0xFF#8] 3 = [true, true, true] := by decide +kernel

theorem witness_WordsPackBigEndian : [0x1234#16, 0x00FF#16][1]? = some 0x00FF#16 ∧
    [0x12#8, 0x34#8].length % 2 = 0 := by decide

theorem witness_WideningIsExact : isFinite32 0x3DCCCCCD#32 = true ∧ isFinite32 0x80000001#32 = true ∧
    isInf32 0xFF800000#32 = true := by decide +kernel

theorem witness_DecimalRoundingIsNearestEven : isFinite32 0xB727C5AC#32 = true ∧ 1 ≤ 1 ∧
    isFinite32 0x7F7FFFFF#32 = true ∧ isInf32 0xFF800000#32 = true := by decide +kernel

theorem witness_PowerOnLeavesWhatTheConfigurationSays : (State.powerOn Config.exB).fault = none ∧
    (State.powerOn tinyConfig).fault = none ∧ tinyConfig.entityInit = .cacheOnly ∧
    (∀ d ∈ Config.exB.entities, ¬ (d.cls = 2 ∧ d.addr + Config.exB.addrOffset ≤ 3 ∧
      3 < d.addr + Config.exB.addrOffset + widthOf d)) := by decide +kernel

/-- The FLOAT entity of EX-B at its second cell; the ARRAY entity after it begins at the next one. -/
theorem witness_PowerOnLeavesWhatTheConfigurationSays_writeThrough :
    let d : EntityDesc := { variant := .float, cls := 2, addr := 4, precision := 4, initial := .float 0#32 }
    let e : EntityDesc := { variant := .array, cls := 2, addr := 6, len := 3, initial := .list [0, 0, 0] }
    (State.powerOn Config.exB).fault = none ∧ Config.exB.entityInit = .writeThrough ∧
    Config.exB.entities = Config.exB.entities.take 2 ++ d :: [e] ∧ reprOf d d.initial = some (.float 0#32) ∧
    1 < widthOf d ∧ (∀ d' ∈ [e], ¬ (d'.cls = d.cls ∧ d'.addr + Config.exB.addrOffset ≤ d.addr + Config.exB.addrOffset + 1 ∧
      d.addr + Config.exB.addrOffset + 1 < d'.addr + Config.exB.addrOffset + widthOf d')) := by decide +kernel

theorem witness_SnapshotHoldsTheConfiguredWords : configOk Config.exB = true ∧
    (classesOf Config.exB)[3]? = some Config.exB.ir := by decide +kernel

/-- The entity of each failing check of 95_test_vectors.md 3.4. -/
def beyondEnd : EntityDesc := { variant := .float, cls := 2, addr := 9, initial := .float 0#32 }
def shortList : EntityDesc := { variant := .array, cls := 2, addr := 6, len := 3, initial := .list [0, 0] }

theorem witness_ConstructionChecksStopTheBlock_address :
    let cfg : Config := { Config.exA with entities := [beyondEnd] }
    cfg.entities = [] ++ beyondEnd :: [] ∧ (State.powerOn { cfg with entities := [] }).fault = none ∧
    ¬ (widthOf beyondEnd ≠ 0 ∧
      rangePresent (State.powerOn { cfg with entities := [] }) beyondEnd.cls beyondEnd.addr (widthOf beyondEnd)) := by
  unfold rangePresent; decide +kernel

theorem witness_ConstructionChecksStopTheBlock_type :
    let cfg : Config := { Config.exA with entities := [shortList] }
    cfg.entities = [] ++ shortList :: [] ∧ (State.powerOn { cfg with entities := [] }).fault = none ∧
    widthOf shortList ≠ 0 ∧
    rangePresent (State.powerOn { cfg with entities := [] }) shortList.cls shortList.addr (widthOf shortList) ∧
    reprOf shortList shortList.initial = none := by
  unfold rangePresent; decide +kernel

theorem witness_EveryStepKeepsTheInvariant :
    Inv { tiny with bus := .busy readOne .get } ∧
    ∃ t, step { tiny with bus := .busy readOne .get } = .next t :=
  ⟨tiny_inv _ rfl rfl rfl (consistent_of_read .get (by decide)), _,
    eq_next (s := tiny) (by decide +kernel)⟩

theorem witness_StepRunsTheDecodedInstruction_inFlight :
    let s : State := { tiny with bus := .busy readOne .guard }
    s.fault = none ∧ nextAgent s = .busAgent ∧ s.bus = .busy readOne .guard := by decide +kernel

theorem witness_StepRunsTheDecodedInstruction_frame :
    let s : State := { tiny with busIn := [frameBytes readOne] }
    s.fault = none ∧ nextAgent s = .busAgent ∧ s.bus = .idle ∧ s.busIn = frameBytes readOne :: [] ∧
    decodeFrame (frameBytes readOne) = .ok readOne := ⟨rfl, rfl, rfl, rfl, rfl⟩

theorem witness_StepRunsTheDecodedInstruction_command :
    let s : State := { tiny with localIn := [⟨0x10#8, [.nat 0]⟩] }
    s.fault = none ∧ nextAgent s = .localAgent ∧ s.localIn = ⟨0x10#8, [.nat 0]⟩ :: [] ∧
    decodeCommand ⟨0x10#8, [.nat 0]⟩ = .ok (.eIntRead 0) := ⟨rfl, rfl, rfl, rfl⟩

theorem witness_StepRunsTheDecodedInstruction_chunk :
    let s : State := { tiny with lineIn := [frameBytes readOne] }
    s.fault = none ∧ nextAgent s = .busAgent ∧ s.bus = .idle ∧ s.busIn = [] ∧ s.lineIn = frameBytes readOne :: [] :=
  ⟨rfl, rfl, rfl, rfl, rfl⟩

theorem witness_StepRunsTheDecodedInstruction_idle :
    let s : State := { tiny with sched := [.busAgent] }
    s.fault = none ∧ nextAgent s = .busAgent ∧ s.bus = .idle ∧ s.busIn = [] ∧ s.lineIn = [] ∧
    nextAgent tiny = .localAgent ∧ tiny.localIn = [] := ⟨rfl, rfl, rfl, rfl, rfl, rfl, rfl⟩

theorem witness_StoppedBlockPerformsNothing : ({ tiny with fault := some .typeError } : State).fault = some .typeError :=
  rfl

theorem witness_NoStepChangesTheConfiguration :
    ∃ t, step { tiny with localIn := [⟨0x03#8, [.nat 2, .nat 0, .list [9]]⟩] } = .next t :=
  ⟨_, eq_next (s := tiny) (by decide +kernel)⟩

/-- A frame of each of the four kinds is at the port: short, for another device, of the wrong length, with a bad CRC. -/
theorem witness_UnacceptedFramesAreDropped :
    (∀ f ∈ [[0x01#8, 0x03#8, 0x00#8, 0x00#8, 0x00#8, 0x19#8, 0x84#8],
        [0x02#8, 0x03#8, 0x00#8, 0x00#8, 0x00#8, 0x01#8, 0x84#8, 0x39#8],
        [0x01#8, 0x03#8, 0x00#8, 0x00#8, 0x00#8, 0x0A#8, 0xC5#8, 0xCD#8, 0x00#8]],
      let s : State := { tiny with busIn := [f] }
      s.fault = none ∧ nextAgent s = .busAgent ∧ s.bus = .idle ∧ s.busIn = f :: [] ∧
      (f.length < 8 ∨ f[0]? ≠ some s.cfg.devAddr ∨
        f.length ≠ (if f[1]? = some 15#8 ∨ f[1]? = some 16#8 then 9 + (f.getD 6 0#8).toNat else 8))) ∧
    (let f : List Byte := [0x01#8, 0x03#8, 0x00#8, 0x00#8, 0x00#8, 0x0A#8, 0xC5#8, 0xCC#8]
      let s : State := { tiny with busIn := [f] }
      s.fault = none ∧ nextAgent s = .busAgent ∧ s.bus = .idle ∧ s.busIn = f :: [] ∧
      ¬ ∃ (body : List Byte) (c0 c1 : Byte), f = body ++ [c0, c1] ∧ crc16 body = c1 ++ c0) := by
  refine ⟨by decide +kernel, rfl, rfl, rfl, rfl, ?_⟩
  rintro ⟨body, c0, c1, hf, hcrc⟩
  have hf' : [0x01#8, 0x03#8, 0x00#8, 0x00#8, 0x00#8, 0x0A#8] ++ [0xC5#8, 0xCC#8] = body ++ [c0, c1] := hf
  obtain ⟨rfl, htail⟩ := List.append_inj' hf' rfl
  cases htail
  revert hcrc; decide +kernel

theorem witness_UnsupportedCodesGetIllegalFunction : ∀ fc ∈ [0x00#8, 0x07#8, 0x0E#8, 0x11#8, 0x80#8, 0xFF#8],
    let s : State := { tiny with busIn := [appendCrc [tiny.cfg.devAddr, fc, 0#8, 0#8, 0#8, 1#8]] }
    s.fault = none ∧ nextAgent s = .busAgent ∧ s.bus = .idle ∧
    s.busIn = appendCrc [s.cfg.devAddr, fc, 0#8, 0#8, 0#8, 1#8] :: [] ∧
    fc.toNat ∉ [1, 2, 3, 4, 5, 6, 15, 16] := by decide +kernel

theorem witness_RequestChecksFailInOrder_empty :
    let s : State := { tiny with store := { mem := [[], [], [], []], changed := false }, bus := .busy readOne .guard }
    (requestShape readOne).isSome = true ∧ s.fault = none ∧ s.bus = .busy readOne .guard ∧
    (∀ key, readCell s 2 key = none) := ⟨rfl, rfl, rfl, fun _ => rfl⟩

/-- 128 registers fail the quantity check, 127 pass it. -/
theorem witness_RequestChecksFailInOrder_quantity :
    (requestShape (.readHoldingRegisters 0x01#8 0#16 128#16 0#16)).map RequestShape.quantityOk = some false ∧
    (requestShape (.readHoldingRegisters 0x01#8 0#16 127#16 0#16)).map RequestShape.quantityOk = some true ∧
    tiny.fault = none ∧ ∃ key, readCell tiny 2 key ≠ none := ⟨rfl, rfl, rfl, 0, by decide +kernel⟩

/-- A range one past the end, and a count of 0. -/
theorem witness_RequestChecksFailInOrder_range :
    ¬ (1 ≠ 0 ∧ rangePresent tiny 2 3 1) ∧ ¬ (0 ≠ 0 ∧ rangePresent tiny 2 0 0) ∧
    (requestShape readOne).map RequestShape.stages = some [.guard, .validate, .get] := by
  unfold rangePresent; decide +kernel

theorem witness_BusTurnsNeverFault :
    let s : State := { tiny with bus := .busy readOne .validate }
    Inv s ∧ s.fault = none ∧ nextAgent s = .busAgent :=
  ⟨tiny_inv _ rfl rfl rfl (consistent_of_read .validate (by decide)), rfl, rfl⟩

/-- The step of a read request's get emits a frame whose function code has bit 7 clear. -/
theorem witness_EveryEmittedFrameIsAWellFormedResponse :
    let s : State := { tiny with bus := .busy readOne .get }
    Inv s ∧ step s = .next (after s (step s)) ∧ (after s (step s)).busOut ≠ s.busOut :=
  ⟨tiny_inv _ rfl rfl rfl (consistent_of_read .get (by decide)), eq_next (by decide +kernel), by decide +kernel⟩

theorem witness_BusTurnsReachCoilsAndHoldingRegistersOnly :
    let s : State := { tiny with bus := .busy readOne .get }
    busConsistent s ∧ nextAgent s = .busAgent ∧ ∃ t, step s = .next t :=
  ⟨consistent_of_read .get (by decide), rfl, _, eq_next (s := tiny) (by decide +kernel)⟩

theorem witness_BusTurnsDoNotSeeTheCaches :
    busConsistent { tiny with busIn := [frameBytes readOne] } ∧
    nextAgent { tiny with busIn := [frameBytes readOne] } = .busAgent := ⟨consistent_of_idle rfl, rfl⟩

theorem witness_ChangedFallsOnlyWhenCleared :
    let s : State := { tiny with store := { tiny.store with changed := true }, localIn := [⟨0x07#8, []⟩] }
    busConsistent s ∧ step s = .next (after s (step s)) ∧ s.store.changed = true ∧
    (after s (step s)).store.changed = false :=
  ⟨consistent_of_idle rfl, eq_next (by decide +kernel), rfl, by decide +kernel⟩

theorem witness_EveryWriteLatchesChanged :
    let s : State := { tiny with localIn := [⟨0x03#8, [.nat 2, .nat 0, .list [9]]⟩] }
    busConsistent s ∧ step s = .next (after s (step s)) ∧ readCell (after s (step s)) 2 0 ≠ readCell s 2 0 :=
  ⟨consistent_of_idle rfl, eq_next (by decide +kernel), by decide +kernel⟩

theorem witness_BitReadsAnswerTheStoredBits :
    takes readCoil tiny ∧ 1 ≤ (1#16).toNat ∧ (1#16).toNat ≤ 2040 ∧ [false].length = (1#16).toNat ∧
    (∀ j < (1#16).toNat, ∃ w, readCell tiny 0 ((0#16).toNat + tiny.cfg.addrOffset + j) = some w ∧
      [false][j]? = some (w != 0#16)) := by
  refine ⟨⟨rfl, rfl, by decide +kernel⟩, by decide, by decide, rfl, fun j hj => ⟨0#16, ?_⟩⟩
  have hj' : j < 1 := hj
  obtain rfl : j = 0 := by omega
  exact ⟨by decide +kernel, rfl⟩

theorem witness_RegisterReadsAnswerTheStoredWords :
    takes readOne tiny ∧ 1 ≤ (1#16).toNat ∧ (1#16).toNat ≤ 127 ∧ [5#16].length = (1#16).toNat ∧
    rangeHolds tiny 2 (0#16).toNat [5#16] := by
  unfold takes rangeHolds; decide +kernel

theorem witness_SingleCoilWriteStoresAndEchoes :
    takes (.writeSingleCoil 0x01#8 0x0003#16 0xFF00#16 0x3A7C#16) (State.powerOn Config.exA) ∧
    storeShaped (State.powerOn Config.exA) ∧ rangePresent (State.powerOn Config.exA) 0 (0x0003#16).toNat 1 := by
  unfold takes storeShaped rangePresent; decide +kernel

theorem witness_SingleRegisterWriteStoresAndEchoesTheRequest :
    takes writeOne tiny ∧ storeShaped tiny ∧ rangePresent tiny 2 (1#16).toNat 1 := by
  unfold takes storeShaped rangePresent; decide +kernel

theorem witness_MultipleCoilWriteStoresItsBits :
    takes writeCoils (State.powerOn Config.exA) ∧ storeShaped (State.powerOn Config.exA) ∧ 1 ≤ (10#16).toNat ∧
    [0xCD#8, 0x01#8].length = ((10#16).toNat + 7) / 8 ∧
    rangePresent (State.powerOn Config.exA) 0 (0#16).toNat (10#16).toNat := by
  unfold takes storeShaped rangePresent; decide +kernel

theorem witness_MultipleRegisterWriteStoresItsWords :
    takes writeFloat (State.powerOn Config.exA) ∧ storeShaped (State.powerOn Config.exA) ∧ 1 ≤ (2#16).toNat ∧
    [0x3F#8, 0xC0#8, 0#8, 0#8].length = 2 * (2#16).toNat ∧
    rangePresent (State.powerOn Config.exA) 2 (4#16).toNat (2#16).toNat := by
  unfold takes storeShaped rangePresent; decide +kernel

theorem witness_ReadRequestsChangeOnlyTheBusPort :
    ∃ t, exec readOne { tiny with bus := .busy readOne .get } = .next t := ⟨_, eq_next (s := tiny) (by decide +kernel)⟩

theorem witness_WriteRequestsChangeOnlyTheirRange :
    (requestShape writeOne).map RequestShape.stages = some [.guard, .validate, .set, .get] ∧
    ∃ t, exec writeOne { tiny with bus := .busy writeOne .set } = .next t :=
  ⟨rfl, _, eq_next (s := tiny) (by decide +kernel)⟩

/-- A set whose register is gone from a class that cannot grow; no run reaches it (R248). -/
theorem witness_WriteRequestsChangeOnlyTheirRange_fails :
    let i : Instr := .writeSingleRegister 0x01#8 0xFFFF#16 1#16 0#16
    let s : State := { tiny with bus := .busy i .set }
    s.bus = .busy i .set ∧ growable s.cfg 2 = false ∧ ¬ rangePresent s 2 (0xFFFF#16).toNat 1 ∧
    ∃ t, exec i s = .next t := by
  refine ⟨rfl, by decide +kernel, by unfold rangePresent; decide +kernel, _, eq_next (s := tiny) (by decide +kernel)⟩

theorem witness_ValidateAnswersWhetherTheRangeIsPresent : tiny.fault = none ∧ 3 < (classesOf tiny.cfg).length := by
  decide

/-- A whole class is a range; one key more is not, nor is a count of 0. -/
theorem witness_GetReturnsTheRangeOrFaults : tiny.fault = none ∧ 2 < (classesOf tiny.cfg).length ∧
    (3 ≠ 0 ∧ rangePresent tiny 2 0 3) ∧ ¬ (4 ≠ 0 ∧ rangePresent tiny 2 0 4) ∧ ¬ (0 ≠ 0 ∧ rangePresent tiny 2 0 0) := by
  unfold rangePresent; decide +kernel

theorem witness_SetStoresItsWordsOrFaults : tiny.fault = none ∧ storeShaped tiny ∧ 2 < (classesOf tiny.cfg).length ∧
    rangePresent tiny 2 0 [9#16].length ∧ growable Config.exC 2 = true ∧
    ¬ rangePresent tiny 2 3 [9#16].length ∧ growable tiny.cfg 2 = false := by
  unfold storeShaped rangePresent; decide +kernel

theorem witness_ResetRestoresEverySnapshot : tiny.fault = none := rfl

theorem witness_ChangedIsReadClearedAndTaken : tiny.fault = none := rfl

theorem witness_AbsentOperandsAreRefused : tiny.fault = none ∧ (classesOf tiny.cfg).length ≤ 4 ∧
    tiny.cfg.entities.length ≤ 4 := by decide

/-- The entities of `tiny`. -/
def intEntity : EntityDesc := { variant := .int, cls := 2, addr := 0, initial := .nat 5 }
def boolEntity : EntityDesc := { variant := .bool, cls := 0, addr := 0, initial := .bool false }
def floatEntity : EntityDesc := { variant := .float, cls := 2, addr := 1, initial := .float 0#32 }
def arrayEntity : EntityDesc := { variant := .array, cls := 2, addr := 0, len := 2, initial := .list [5, 0] }

theorem tiny_entities : tiny.cfg.entities = [intEntity, boolEntity, floatEntity, arrayEntity] := rfl

theorem witness_EntityReadsReturnTheStoreAndRefreshTheCache :
    tiny.fault = none ∧
    (tiny.cfg.entities[0]? = some intEntity ∧ [5#16].length = widthOf intEntity ∧ [5#16] ≠ [] ∧
      rangeHolds tiny intEntity.cls intEntity.addr [5#16]) ∧
    (tiny.cfg.entities[1]? = some boolEntity ∧ [0#16].length = widthOf boolEntity ∧ [0#16] ≠ [] ∧
      rangeHolds tiny boolEntity.cls boolEntity.addr [0#16]) ∧
    (tiny.cfg.entities[3]? = some arrayEntity ∧ [5#16, 0#16].length = widthOf arrayEntity ∧ [5#16, 0#16] ≠ [] ∧
      rangeHolds tiny arrayEntity.cls arrayEntity.addr [5#16, 0#16]) := by
  unfold rangeHolds; decide +kernel

/-- A finite value and a NaN. -/
theorem witness_FloatReadsReturnTheRoundedStore :
    tiny.fault = none ∧ tiny.cfg.entities[2]? = some floatEntity ∧ floatEntity.variant = .float ∧
    rangeHolds tiny floatEntity.cls floatEntity.addr [0#16, 0#16] ∧ isNaN32 (0#16 ++ 0#16) = false ∧
    0 < floatEntity.precision ∧ isNaN32 (0x7FC0#16 ++ 0#16) = true := by
  unfold rangeHolds; decide +kernel

theorem witness_CachedValuesAreReturnedWithoutStoreAccess :
    tiny.fault = none ∧
    (tiny.cfg.entities[0]? = some intEntity ∧ tiny.caches[0]? = some (Cache.word 5#16)) ∧
    (tiny.cfg.entities[1]? = some boolEntity ∧ tiny.caches[1]? = some (Cache.word 0#16)) ∧
    (tiny.cfg.entities[2]? = some floatEntity ∧ tiny.caches[2]? = some (Cache.float 0#32)) ∧
    (tiny.cfg.entities[3]? = some arrayEntity ∧ tiny.caches[3]? = some (Cache.words [5#16, 0#16])) := by decide +kernel

theorem witness_WritesOfTheCachedValueAreSuppressed :
    tiny.fault = none ∧
    (tiny.cfg.entities[0]? = some intEntity ∧ intEntity.variant = .int ∧ 5 < 0x10000 ∧
      tiny.caches[0]? = some (Cache.word (BitVec.ofNat 16 5))) ∧
    (tiny.cfg.entities[1]? = some boolEntity ∧ boolEntity.variant = .bool ∧
      tiny.caches[1]? = some (Cache.word (if false then 1#16 else 0#16))) ∧
    (tiny.cfg.entities[2]? = some floatEntity ∧ floatEntity.variant = .float ∧ tiny.caches[2]? = some (Cache.float 0#32)) ∧
    (tiny.cfg.entities[3]? = some arrayEntity ∧ arrayEntity.variant = .array ∧
      [5#16, 0#16].length = arrayEntity.len ∧ tiny.caches[3]? = some (Cache.words [5#16, 0#16])) := by decide +kernel

/-- The largest INT, the other Boolean, -0.0 and another list. -/
theorem witness_OtherWritesAreStoredAndCached :
    tiny.fault = none ∧ storeShaped tiny ∧
    (tiny.cfg.entities[0]? = some intEntity ∧ 0xFFFF < 0x10000 ∧ tiny.caches[0]? ≠ some (Cache.word 0xFFFF#16) ∧
      rangePresent tiny intEntity.cls intEntity.addr (widthOf intEntity)) ∧
    (tiny.cfg.entities[1]? = some boolEntity ∧ tiny.caches[1]? ≠ some (Cache.word 1#16) ∧
      rangePresent tiny boolEntity.cls boolEntity.addr (widthOf boolEntity)) ∧
    (tiny.cfg.entities[2]? = some floatEntity ∧ tiny.caches[2]? ≠ some (Cache.float 0x80000000#32) ∧
      rangePresent tiny floatEntity.cls floatEntity.addr (widthOf floatEntity)) ∧
    (tiny.cfg.entities[3]? = some arrayEntity ∧ arrayEntity.len ≠ 0 ∧ [1#16, 2#16].length = arrayEntity.len ∧
      tiny.caches[3]? ≠ some (Cache.words [1#16, 2#16]) ∧
      rangePresent tiny arrayEntity.cls arrayEntity.addr (widthOf arrayEntity)) := by
  unfold storeShaped rangePresent; decide +kernel

/-- Another variant, and the value clauses: a number above 16 bits, and lists of the wrong length or with such a number. -/
theorem witness_WrongVariantsAndValuesRaiseTypeError :
    tiny.fault = none ∧ tiny.cfg.entities[1]? = some boolEntity ∧ boolEntity.variant ≠ .int ∧
    (∀ n, Value.nat 0x10000 = .nat n → 0x10000 ≤ n) ∧ (∀ b, Value.nat 1 ≠ .bool b) ∧ (∀ u, Value.nat 1 ≠ .float u) ∧
    (∀ ns, Value.list [0] = .list ns → ns.length ≠ arrayEntity.len ∨ ∃ n ∈ ns, 0x10000 ≤ n) ∧
    (∀ ns, Value.list [0, 0x10000] = .list ns → ns.length ≠ arrayEntity.len ∨ ∃ n ∈ ns, 0x10000 ≤ n) := by
  refine ⟨rfl, rfl, by decide, ?_, by simp, by simp, ?_, ?_⟩
  · rintro n ⟨⟩; decide
  · rintro ns ⟨⟩; decide
  · rintro ns ⟨⟩; exact .inr ⟨0x10000, by decide, by decide⟩

theorem witness_EntityOperationsDoNotFaultOnConstructedEntities :
    Inv tiny ∧ tiny.fault = none ∧ tiny.cfg.entities[2]? = some floatEntity ∧
    reprOf floatEntity (.float 0x7FC00000#32) ≠ none ∧ floatEntity.variant = .float :=
  ⟨tiny_inv _ rfl rfl rfl (consistent_of_idle rfl), rfl, rfl, by decide +kernel, rfl⟩

theorem witness_LocalOperationsKeepTheirFrame :
    isRequest (.eArrayWrite 3 (.list [1, 2])) = false ∧
    (∃ t, exec (.eArrayWrite 3 (.list [1, 2])) tiny = .next t) ∧ ∃ t, exec (.eIntCached 0) tiny = .next t :=
  ⟨rfl, ⟨_, eq_next (s := tiny) (by decide +kernel)⟩, _, eq_next (s := tiny) (by decide +kernel)⟩

theorem witness_EchoShowsALocalWriteInBetween :
    let s : State := { tiny with bus := .busy writeOne .set }
    s.fault = none ∧ storeShaped s ∧ s.bus = .busy writeOne .set ∧ rangePresent s 2 (1#16).toNat 1 ∧
    ∃ s1 s2, exec writeOne s = .next s1 ∧ exec (.lSet 2 (1#16).toNat [0xAAAA#16]) s1 = .next s2 := by
  refine ⟨rfl, rfl, rfl, by unfold rangePresent; decide +kernel, _, _, eq_next (s := tiny) (by decide +kernel),
    eq_next (s := tiny) (by decide +kernel)⟩

theorem witness_EchoShowsALocalWriteInBetween_coil :
    let i : Instr := .writeSingleCoil 0x01#8 0#16 0xFF00#16 0x3A8C#16
    let s : State := { tiny with bus := .busy i .set }
    s.fault = none ∧ storeShaped s ∧ s.bus = .busy i .set ∧ rangePresent s 0 (0#16).toNat 1 ∧
    ∃ s1 s2, exec i s = .next s1 ∧ exec (.lSet 0 (0#16).toNat [0#16]) s1 = .next s2 := by
  refine ⟨rfl, rfl, rfl, by unfold rangePresent; decide +kernel, _, _, eq_next (s := tiny) (by decide +kernel),
    eq_next (s := tiny) (by decide +kernel)⟩

theorem witness_ReadThenClearLosesABusWrite :
    let s : State := { tiny with bus := .busy writeOne .set }
    s.fault = none ∧ s.store.changed = false ∧
    (∃ r, requestShape writeOne = some r ∧ r.writes ≠ [] ∧ Stage.set ∈ r.stages ∧
      rangePresent s r.cls r.addr.toNat r.writes.length) ∧
    ∃ s1 s2, exec .lReadChanged s = .next s1 ∧ exec writeOne s1 = .next s2 := by
  refine ⟨rfl, rfl, ⟨_, rfl, by decide, by decide, ?_⟩, _, _, eq_next (s := tiny) (by decide +kernel),
    eq_next (s := tiny) (by decide +kernel)⟩
  show rangePresent _ 2 1 1
  unfold rangePresent; decide +kernel

/-- A growable HR holds key 10, which its snapshot lacks: a read between its validation and its get, and a single write
between its set and its read-back. -/
theorem witness_ResetBetweenValidateAndGetAnswersAddressError :
    let s : State := { State.powerOn Config.exC with
      store := { mem := [[], [], [(10, 7#16)], []], changed := true } }
    ∀ p ∈ [(Instr.readHoldingRegisters 0x01#8 10#16 1#16 0x08A4#16, Stage.validate),
        (Instr.writeSingleRegister 0x01#8 10#16 1#16 0#16, Stage.set)],
      (requestShape p.1).map (fun r => (r.cls, r.addr, r.count)) = some (2, 10#16, 1) ∧ s.fault = none ∧
      (∃ s1 s2, exec p.1 { s with bus := .busy p.1 p.2 } = .next s1 ∧ s1.bus = .busy p.1 .get ∧ exec .lReset s1 = .next s2) ∧
      (10#16).toNat + s.cfg.addrOffset ≤ 10 ∧ 10 < (10#16).toNat + s.cfg.addrOffset + 1 ∧ ¬ keyInSnapshot s.cfg 2 10 := by
  intro s p hp
  have hk : ¬ keyInSnapshot s.cfg 2 10 := by unfold keyInSnapshot; decide +kernel
  rcases List.mem_pair.mp hp with rfl | rfl
  · exact ⟨rfl, by decide +kernel, ⟨_, _, eq_next (s := tiny) (by decide +kernel), by decide +kernel,
      eq_next (s := tiny) (by decide +kernel)⟩, by decide +kernel, by decide +kernel, hk⟩
  · exact ⟨rfl, by decide +kernel, ⟨_, _, eq_next (s := tiny) (by decide +kernel), by decide +kernel,
      eq_next (s := tiny) (by decide +kernel)⟩, by decide +kernel, by decide +kernel, hk⟩

theorem witness_StaleCacheKeepsTheBusWord :
    let s : State := { tiny with busIn := [frameBytes readOne] }
    s.fault = none ∧ busConsistent s ∧ s.cfg.entities[0]? = some intEntity ∧ intEntity.variant = .int ∧
    5 < 0x10000 ∧ s.caches[0]? = some (Cache.word (BitVec.ofNat 16 5)) ∧ nextAgent s = .busAgent ∧
    step s = .next (after s (step s)) ∧ (after s (step s)).fault = none :=
  ⟨rfl, consistent_of_idle rfl, rfl, rfl, by decide, rfl, rfl, eq_next (by decide +kernel), by decide +kernel⟩

/-- Each clause at a boundary: nothing, another device, 7 bytes, 8 of 9 bytes, a whole frame with two bytes behind it, and
a frame with a bad CRC. -/
theorem witness_TransportFollowsItsFramingRules :
    tiny.fault = none ∧ tiny.lineBuf ++ [] = [] ∧
    [0x02#8][0]? ≠ some tiny.cfg.devAddr ∧
    (0x01#8 :: List.replicate 6 0#8)[0]? = some tiny.cfg.devAddr ∧ (0x01#8 :: List.replicate 6 0#8).length < 8 ∧
    (let buf : List Byte := [0x01#8, 0x10#8, 0#8, 4#8, 0#8, 0#8, 0#8, 0x09#8];
      tiny.lineBuf ++ buf = buf ∧ 8 ≤ buf.length ∧ buf.length < 9 + (buf.getD 6 0#8).toNat) ∧
    (let buf : List Byte := [0x01#8, 0x03#8, 0#8, 0#8, 0#8, 0x0A#8, 0xC5#8, 0xCD#8, 0x01#8, 0x03#8];
      tiny.lineBuf ++ buf = buf ∧ 8 ≤ buf.length ∧ frameCheck (buf.take 8) = true) ∧
    (let buf : List Byte := [0x01#8, 0x03#8, 0#8, 0#8, 0#8, 0x0A#8, 0xC5#8, 0xCC#8];
      tiny.lineBuf ++ buf = buf ∧ 8 ≤ buf.length ∧ frameCheck (buf.take 8) = false) := by decide +kernel

/-- The frame of 95_test_vectors.md 3.5, split after its third byte; an empty first chunk; and all but the last byte. -/
theorem witness_TransportHandsOverASplitFrame :
    tiny.fault = none ∧ tiny.lineBuf = [] ∧ accepts tiny.cfg (frameBytes readOne) = true ∧
    (∀ n ∈ [0, 3, 7], frameBytes readOne = (frameBytes readOne).take n ++ (frameBytes readOne).drop n ∧
      (frameBytes readOne).drop n ≠ []) := by decide +kernel

end Sys2Proof.Tests
end

section
/-! PROOFS. Scope (00_scope.md): what a well-formed configuration says of its snapshots, and the class map each builds. -/

namespace Sys2Proof.Machine

/-! ### Well-formed snapshots -/

theorem snapshotOk_cons (low k w : Nat) (rest : List (Nat × Nat)) :
    snapshotOk low ((k, w) :: rest) = true ↔ low ≤ k ∧ w < 0x10000 ∧ snapshotOk (k + 1) rest = true := by
  simp [snapshotOk, and_assoc]

theorem lookup_eq_none_of_snapshotOk {pairs : List (Nat × Nat)} {low key : Nat} (hok : snapshotOk low pairs = true)
    (hlt : key < low) : pairs.lookup key = none := by
  induction pairs generalizing low with
  | nil => rfl
  | cons p rest ih =>
    obtain ⟨k, w⟩ := p
    obtain ⟨hlow, -, hrest⟩ := (snapshotOk_cons low k w rest).mp hok
    have hne : (key == k) = false := beq_false_of_ne (by omega)
    rw [List.lookup_cons, hne]
    exact ih hrest (by omega)

/-- The map is built from the front, where a later word would stand, and `lookup` takes the first word; the two agree
because no key comes twice. -/
theorem ClassMap.find_foldl_insert {pairs : List (Nat × Nat)} {low : Nat} (hok : snapshotOk low pairs = true)
    (m : ClassMap) (key : Nat) :
    ClassMap.find (pairs.foldl (fun m p => ClassMap.insert m p.1 (BitVec.ofNat 16 p.2)) m) key =
      ((pairs.lookup key).map (BitVec.ofNat 16)).or (ClassMap.find m key) := by
  induction pairs generalizing low m with
  | nil => rfl
  | cons p rest ih =>
    obtain ⟨k, w⟩ := p
    obtain ⟨-, -, hrest⟩ := (snapshotOk_cons low k w rest).mp hok
    rw [List.foldl_cons, ih hrest, ClassMap.find_insert, List.lookup_cons]
    by_cases hkey : key = k
    · subst hkey
      have hnone : rest.lookup key = none := lookup_eq_none_of_snapshotOk hrest (Nat.lt_succ_self key)
      simp [hnone]
    · simp [hkey, beq_false_of_ne hkey]

theorem ClassMap.find_ofSnapshot {pairs : List (Nat × Nat)} {low : Nat} (hok : snapshotOk low pairs = true)
    (key : Nat) : ClassMap.find (ClassMap.ofSnapshot pairs) key = (pairs.lookup key).map (BitVec.ofNat 16) := by
  rw [ClassMap.ofSnapshot, ClassMap.find_foldl_insert hok, ClassMap.find, Option.or_none]

/-! ### The classes of a well-formed configuration -/

theorem snapshotOk_of_extrasOk {labels : List Nat} {xs : List ExtraClass} (hok : extrasOk labels xs = true) :
    ∀ x ∈ xs, snapshotOk 0 x.cls.snapshot = true := by
  induction xs generalizing labels with
  | nil => simp
  | cons x rest ih =>
    obtain ⟨hx, hrest⟩ : extraOk labels x = true ∧ extrasOk (x.label :: labels) rest = true := by
      simpa [extrasOk] using hok
    have hsnap : snapshotOk 0 x.cls.snapshot = true := by
      simp only [extraOk, Bool.and_eq_true] at hx
      exact hx.2
    exact List.forall_mem_cons.mpr ⟨hsnap, ih hrest⟩

theorem snapshotOk_of_configOk {cfg : Config} (hok : configOk cfg = true) {c : ClassCfg} (hc : c ∈ classesOf cfg) :
    snapshotOk 0 c.snapshot = true := by
  simp only [configOk, Bool.and_eq_true] at hok
  obtain ⟨⟨⟨⟨⟨-, hco⟩, hdi⟩, hhr⟩, hir⟩, hextra⟩ := hok
  rcases List.mem_append.mp hc with hstd | hadded
  · simp only [List.mem_cons, List.not_mem_nil, or_false] at hstd
    rcases hstd with rfl | rfl | rfl | rfl <;> assumption
  · obtain ⟨x, hx, rfl⟩ := List.mem_map.mp hadded
    exact snapshotOk_of_extrasOk hextra x hx

theorem snapshotStore_map {cfg : Config} {k : Nat} {c : ClassCfg} (hc : (classesOf cfg)[k]? = some c) :
    (snapshotStore cfg).map k = ClassMap.ofSnapshot c.snapshot := by
  simp [Store.map, snapshotStore, snapshotMemory, hc]

/-- Settles O15: a configured class is in `classesOf`, so its snapshot rises strictly, and the map built from a strictly
rising list finds what `lookup` finds. -/
theorem snapshotHoldsTheConfiguredWords : Obligations.SnapshotHoldsTheConfiguredWords := by
  intro cfg k c key hok hc
  rw [snapshotStore_map hc]
  exact ClassMap.find_ofSnapshot (snapshotOk_of_configOk hok (List.mem_of_getElem? hc)) key

end Sys2Proof.Machine
end

section
/-! PROOFS. State (10_state.md): what every step keeps of the configuration, the changed flag and the invariant. -/

namespace Sys2Proof.Machine

/-! ### What one step performs -/

/-- The two states agree on all that the invariant speaks of: they differ at most in the ports, the transport, the
schedule and the count of NaNs drawn. -/
structure SameBlock (s t : State) : Prop where
  cfg : t.cfg = s.cfg
  store : t.store = s.store
  fault : t.fault = s.fault
  caches : t.caches = s.caches
  bus : t.bus = s.bus

/-- Where the instruction that a step performs comes from: the request in flight, a frame, or the first command. -/
inductive Performs (s : State) (i : Instr) : Prop
  | inFlight (stage : Stage) : s.bus = .busy i stage → Performs s i
  | frame : isRequest i = true → Performs s i
  | command (c : Command) (rest : List Command) : nextAgent s = .localAgent → s.localIn = c :: rest →
      decodeCommand c = .ok i → Performs s i

/-- A step leaves the block as it is, or performs one instruction in a state that differs from it in the ports only. -/
theorem step_block {s t : State} (h : step s = .next t) :
    SameBlock s t ∨ ∃ i u, SameBlock s u ∧ Performs s i ∧ exec i u = .next t := by
  obtain ⟨-, hstep⟩ := step_next h
  cases hstep with
  | pause => exact .inl ⟨rfl, rfl, rfl, rfl, rfl⟩
  | inFlight i stage _ _ hbus hexec =>
    exact .inr ⟨i, s.turnTaken, ⟨rfl, rfl, rfl, rfl, rfl⟩, .inFlight stage hbus, hexec⟩
  | frame f rest i _ _ _ _ hdec hexec =>
    exact .inr ⟨i, s.turnTaken.frameTaken, ⟨rfl, rfl, rfl, rfl, rfl⟩, .frame (decodeFrame_request hdec), hexec⟩
  | unsupported _ _ _ _ hidle => exact .inl ⟨rfl, rfl, rfl, rfl, hidle.symm⟩
  | dropped _ _ _ _ hidle => exact .inl ⟨rfl, rfl, rfl, rfl, hidle.symm⟩
  | chunk _ _ _ handed => cases handed <;> exact .inl ⟨rfl, rfl, rfl, rfl, rfl⟩
  | command c rest i _ ha hin hdec hexec =>
    exact .inr ⟨i, s.turnTaken.commandTaken, ⟨rfl, rfl, rfl, rfl, rfl⟩, .command c rest ha hin hdec, hexec⟩

/-- With a consistent bus state, what is performed is a request or the local agent's command. -/
theorem Performs.request_or_command {s : State} {i : Instr} (h : Performs s i) (hcon : busConsistent s) :
    isRequest i = true ∨
    (nextAgent s = .localAgent ∧ ∃ c rest, s.localIn = c :: rest ∧ decodeCommand c = .ok i) := by
  cases h with
  | inFlight stage hbus =>
    obtain ⟨r, hr, -⟩ := hcon i stage hbus
    exact .inl ((isRequest_iff_shape i).mpr ⟨r, hr⟩)
  | frame hi => exact .inl hi
  | command c rest ha hin hdec => exact .inr ⟨ha, c, rest, hin, hdec⟩

/-! ### The configuration -/

theorem RequestStep.cfg_eq {i : Instr} {r : RequestShape} {s t : State} (h : RequestStep i r s t) : t.cfg = s.cfg := by
  cases h <;> rfl

theorem LocalStep.cfg_eq {s t : State} (h : LocalStep s t) : t.cfg = s.cfg := by
  cases h <;> rfl

theorem exec_cfg {i : Instr} {s t : State} (h : exec i s = .next t) : t.cfg = s.cfg := by
  cases hi : isRequest i with
  | true =>
    obtain ⟨r, hr⟩ := (isRequest_iff_shape i).mp hi
    exact (exec_request hr h).2.cfg_eq
  | false => exact (exec_local hi h).2.cfg_eq

/-- Settles O22: a step that performs no instruction changes ports only, and no instruction changes the
configuration. -/
theorem noStepChangesTheConfiguration : Obligations.NoStepChangesTheConfiguration := by
  intro s t h
  obtain hsame | ⟨i, u, hsame, -, hexec⟩ := step_block h
  · exact hsame.cfg
  · exact (exec_cfg hexec).trans hsame.cfg

/-! ### The store -/

/-- Everything an instruction can do to the store: leave it, set a range (R45), or be the operation that resets it (R46)
or that clears the flag (R48). -/
inductive StoreStep (i : Instr) (s t : State) : Prop
  | kept : t.store = s.store → StoreStep i s t
  | set (k a : Nat) (vals : List Word) : storeSet s.cfg s.store k a vals = some t.store → StoreStep i s t
  | reset : i = .lReset → t.store = storeReset s.cfg s.store → StoreStep i s t
  | cleared : i = .lClearChanged ∨ i = .lTakeChanged → t.store = changedClear s.store → StoreStep i s t

theorem RequestStep.storeStep {i : Instr} {r : RequestShape} {s t : State} (h : RequestStep i r s t) :
    StoreStep i s t := by
  cases h with
  | setThenGet st _ _ hset => exact .set _ _ _ hset
  | setDone st _ _ _ hset => exact .set _ _ _ hset
  | _ => exact .kept rfl

/-- Whatever next state the result has, its store is that of `s`. -/
def KeepsStore (s : State) (r : Result) : Prop := ∀ t, r = .next t → t.store = s.store

theorem keepsStore_deliver {s u : State} (r : LocalResult) (hu : u.store = s.store) : KeepsStore s (deliver r u) := by
  intro t h
  rw [deliver_eq_next.mp h, State.result_store, hu]

theorem keepsStore_raiseFault (s : State) (why : FaultReason) : KeepsStore s (raiseFault why s) := by
  intro t h
  rw [raiseFault_eq_next.mp h, State.withFault_store]

theorem keepsStore_deliverFloat {s u : State} (x : Bits32) (p : Int) (hu : u.store = s.store) :
    KeepsStore s (deliverFloat x p u) := by
  unfold deliverFloat
  split
  · exact keepsStore_deliver _ hu
  · exact keepsStore_deliver _ hu

theorem KeepsStore.running {s : State} {r : Result} (h : KeepsStore s r) : KeepsStore s (running s r) :=
  fun t ht => h t (running_eq_next ht).2

theorem KeepsStore.withClass {s : State} {r : Result} {k : Nat} (h : KeepsStore s r) : KeepsStore s (withClass k s r) :=
  fun t ht => h t (withClass_eq_next ht).2

theorem keepsStore_withEntity {v : Variant} {e : Nat} {s : State} {next : EntityDesc → Result}
    (hnext : ∀ d, KeepsStore s (next d)) : KeepsStore s (withEntity v e s next) := by
  intro t h
  obtain ⟨d, -, ⟨-, hd⟩ | ⟨-, rfl⟩⟩ := withEntity_eq_next h
  · exact hnext d t hd
  · rfl

theorem keepsStore_entityFetch {v : Variant} {e : Nat} {s : State} {next : EntityDesc → List Word → Result}
    (hnext : ∀ d ws, KeepsStore s (next d ws)) : KeepsStore s (entityFetch v e s next) := by
  refine (keepsStore_withEntity fun d => ?_).running
  split
  · exact keepsStore_raiseFault s _
  · exact hnext d _

theorem keepsStore_entityCached {v : Variant} {e : Nat} {s : State} {next : EntityDesc → Cache → Result}
    (hnext : ∀ d c, KeepsStore s (next d c)) : KeepsStore s (entityCached v e s next) := by
  refine (keepsStore_withEntity fun d => ?_).running
  split
  · intro t h; cases h
  · exact hnext d _

theorem entityWrite_storeStep {i : Instr} {v : Variant} {e : Nat} {val : Value} {s t : State}
    (h : entityWrite v e val s = .next t) : StoreStep i s t := by
  obtain ⟨-, h⟩ := running_eq_next h
  obtain ⟨d, -, ⟨-, h⟩ | ⟨-, rfl⟩⟩ := withEntity_eq_next h
  · split at h
    · exact .kept (keepsStore_raiseFault s _ t h)
    · split at h
      · exact .kept (keepsStore_deliver _ rfl t h)
      · split at h
        · exact .kept (keepsStore_raiseFault s _ t h)
        · rename_i st hset
          rw [deliver_eq_next.mp h]
          exact .set _ _ _ hset
  · exact .kept rfl

theorem exec_local_storeStep {i : Instr} {s t : State} (hi : isRequest i = false) (h : exec i s = .next t) :
    StoreStep i s t := by
  cases i with
  | lValidate k a n => exact .kept ((keepsStore_deliver _ rfl).withClass.running t h)
  | lGet k a n =>
    refine .kept (KeepsStore.running (KeepsStore.withClass ?_) t h)
    split
    · exact keepsStore_raiseFault s _
    · exact keepsStore_deliver _ rfl
  | lSet k a vals =>
    have h := (withClass_eq_next (running_eq_next h).2).2
    split at h
    · exact .kept (keepsStore_raiseFault s _ t h)
    · rename_i st hset
      rw [deliver_eq_next.mp h]
      exact .set k a vals hset
  | lReset => rw [deliver_eq_next.mp (running_eq_next h).2]; exact .reset rfl rfl
  | lReadChanged => exact .kept ((keepsStore_deliver _ rfl).running t h)
  | lClearChanged => rw [deliver_eq_next.mp (running_eq_next h).2]; exact .cleared (.inl rfl) rfl
  | lTakeChanged => rw [deliver_eq_next.mp (running_eq_next h).2]; exact .cleared (.inr rfl) rfl
  | eIntRead e | eBoolRead e =>
    refine .kept (keepsStore_entityFetch (fun d ws => ?_) t h)
    split
    · exact keepsStore_deliver _ rfl
    · exact keepsStore_raiseFault s _
  | eFloatRead e =>
    refine .kept (keepsStore_entityFetch (fun d ws => ?_) t h)
    split
    · exact keepsStore_deliverFloat _ _ rfl
    · exact keepsStore_raiseFault s _
  | eArrayRead e =>
    refine .kept (keepsStore_entityFetch (fun d ws => ?_) t h)
    exact keepsStore_deliver _ rfl
  | eIntCached e | eBoolCached e | eArrayCached e =>
    refine .kept (keepsStore_entityCached (fun d c => ?_) t h)
    split
    · exact keepsStore_deliver _ rfl
    · exact keepsStore_raiseFault s _
  | eFloatCached e =>
    refine .kept (keepsStore_entityCached (fun d c => ?_) t h)
    split
    · exact keepsStore_deliverFloat _ _ rfl
    · exact keepsStore_raiseFault s _
  | eIntWrite e v | eBoolWrite e v | eFloatWrite e v | eArrayWrite e v => exact entityWrite_storeStep h
  | _ => cases hi

theorem exec_storeStep {i : Instr} {s t : State} (h : exec i s = .next t) : StoreStep i s t := by
  cases hi : isRequest i with
  | true =>
    obtain ⟨r, hr⟩ := (isRequest_iff_shape i).mp hi
    exact (exec_request hr h).2.storeStep
  | false => exact exec_local_storeStep hi h

/-! ### The changed flag -/

/-- Of the store's primitives only the clearing ones let the flag fall (R24). -/
theorem StoreStep.clears_of_changed_falls {i : Instr} {s t : State} (h : StoreStep i s t)
    (hset : s.store.changed = true) (hfell : t.store.changed = false) : i = .lClearChanged ∨ i = .lTakeChanged := by
  cases h with
  | kept hst => simp [hst, hset] at hfell
  | set k a vals hst => simp [storeSet_changed _ _ _ _ _ _ hst, hset] at hfell
  | reset _ hst => simp [hst, storeReset, hset] at hfell
  | cleared hi _ => exact hi

/-- Settles O30: the instruction that let the flag fall is a clearing one, so it is no request and was the local agent's
command. -/
theorem changedFallsOnlyWhenCleared : Obligations.ChangedFallsOnlyWhenCleared := by
  intro s t hcon h hset hfell
  obtain hsame | ⟨i, u, hsame, hperf, hexec⟩ := step_block h
  · simp [hsame.store, hset] at hfell
  · have hclears := (exec_storeStep hexec).clears_of_changed_falls (hsame.store ▸ hset) hfell
    obtain hreq | ⟨ha, c, rest, hin, hdec⟩ := hperf.request_or_command hcon
    · obtain rfl | rfl := hclears <;> cases hreq
    · refine ⟨ha, c, rest, hin, ?_⟩
      obtain rfl | rfl := hclears
      · exact .inl hdec
      · exact .inr hdec

/-! ### The store's part of the invariant -/

/-- What the invariant says of the store. -/
structure StoreInv (cfg : Config) (st : Store) : Prop where
  canonical : Memory.wf st.mem = true
  shaped : st.mem.length = (classesOf cfg).length
  keepsKeys : ∀ k key, keyInSnapshot cfg k key → (ClassMap.find (st.map k) key).isSome = true
  immutableKeys : ∀ k, growable cfg k = false → ∀ key, (ClassMap.find (st.map k) key).isSome = true →
    keyInSnapshot cfg k key

theorem Inv.storeInv {s : State} (h : Inv s) : StoreInv s.cfg s.store :=
  ⟨h.canonical, h.shaped, h.keepsKeys, h.immutableKeys⟩

theorem storeInv_storeReset (cfg : Config) (st : Store) : StoreInv cfg (storeReset cfg st) :=
  ⟨storeReset_wf cfg st, snapshotMemory_length cfg, fun _ _ h => h, fun _ _ _ h => h⟩

theorem StoreInv.changedClear {cfg : Config} {st : Store} (h : StoreInv cfg st) : StoreInv cfg (changedClear st) :=
  ⟨h.canonical, h.shaped, h.keepsKeys, h.immutableKeys⟩

theorem storeSet_keeps_key {cfg : Config} {st st' : Store} {k a : Nat} {vals : List Word}
    (hset : storeSet cfg st k a vals = some st') {j key : Nat} (h : (ClassMap.find (st.map j) key).isSome = true) :
    (ClassMap.find (st'.map j) key).isSome = true := by
  rw [storeSet_find _ _ _ _ _ _ hset]
  split
  · rw [List.getElem?_eq_getElem (by omega)]; rfl
  · exact h

/-- A set that is not refused adds no key to a class that may not grow (R45). -/
theorem storeSet_adds_no_key {cfg : Config} {st st' : Store} {k a : Nat} {vals : List Word}
    (hset : storeSet cfg st k a vals = some st') {j key : Nat} (hj : growable cfg j = false)
    (h : (ClassMap.find (st'.map j) key).isSome = true) : (ClassMap.find (st.map j) key).isSome = true := by
  rw [storeSet_find _ _ _ _ _ _ hset] at h
  split at h
  · rename_i hrange
    obtain ⟨rfl, -, hlow, hhigh⟩ := hrange
    have hholds := ((storeSet_eq_some _ _ _ _ _ _).mp hset).1.resolve_right (by simp [hj])
    have hkey := (ClassMap.holds_iff _ _ _).mp hholds (key - keyOf cfg a) (by omega)
    rwa [Nat.add_sub_cancel' hlow] at hkey
  · exact h

theorem StoreInv.storeSet {cfg : Config} {st st' : Store} {k a : Nat} {vals : List Word} (h : StoreInv cfg st)
    (hset : storeSet cfg st k a vals = some st') : StoreInv cfg st' where
  canonical := storeSet_wf _ _ _ _ _ _ hset h.canonical
  shaped := (storeSet_length _ _ _ _ _ _ hset).trans h.shaped
  keepsKeys j key hkey := storeSet_keeps_key hset (h.keepsKeys j key hkey)
  immutableKeys j hj key hkey := h.immutableKeys j hj key (storeSet_adds_no_key hset hj hkey)

theorem StoreInv.isSome_find_iff {cfg : Config} {st : Store} {k : Nat} (h : StoreInv cfg st)
    (hk : growable cfg k = false) (key : Nat) :
    (ClassMap.find (st.map k) key).isSome = true ↔ keyInSnapshot cfg k key :=
  ⟨h.immutableKeys k hk key, h.keepsKeys k key⟩

/-- Which ranges of a class that cannot grow are present is fixed by the snapshot (R248). -/
theorem StoreInv.storeValidate_eq {cfg : Config} {st st' : Store} {k : Nat} (h : StoreInv cfg st)
    (h' : StoreInv cfg st') (hk : growable cfg k = false) (a n : Nat) :
    storeValidate cfg st k a n = storeValidate cfg st' k a n := by
  rw [Bool.eq_iff_iff]
  simp only [storeValidate_iff, h.isSome_find_iff hk, h'.isSome_find_iff hk]

/-! ### The bus agent's part of the invariant -/

/-- What `busConsistent` says of a request of shape `r` in flight at a stage. -/
structure StageOk (s : State) (i : Instr) (r : RequestShape) (stage : Stage) : Prop where
  accepted : accepts s.cfg (frameBytes i) = true
  ofRequest : stage ∈ r.stages
  quantity : stage ≠ .guard → r.quantityOk = true
  present : stage = .set ∨ stage = .get → growable s.cfg r.cls = false →
    storeValidate s.cfg s.store r.cls r.addr.toNat r.count = true

theorem busConsistent_of_idle {s : State} (h : s.bus = .idle) : busConsistent s := by
  intro i stage hbus
  rw [h] at hbus
  cases hbus

theorem busConsistent_iff_stageOk {s : State} {i : Instr} {r : RequestShape} {stage : Stage}
    (hr : requestShape i = some r) (hbus : s.bus = .busy i stage) : busConsistent s ↔ StageOk s i r stage := by
  constructor
  · intro h
    obtain ⟨r', hr', ha, hmem, hq, hp⟩ := h i stage hbus
    obtain rfl : r' = r := Option.some.inj (hr'.symm.trans hr)
    exact ⟨ha, hmem, hq, hp⟩
  · intro h j stage' hbus'
    cases hbus.symm.trans hbus'
    exact ⟨r, hr, h.accepted, h.ofRequest, h.quantity, h.present⟩

theorem busConsistent_withStore {s : State} {st : Store} (h : busConsistent s) (hold : StoreInv s.cfg s.store)
    (hnew : StoreInv s.cfg st) : busConsistent (s.withStore st) := by
  intro i stage hbus
  obtain ⟨r, hr, ha, hmem, hq, hp⟩ := h i stage hbus
  exact ⟨r, hr, ha, hmem, hq, fun hst hg => (hnew.storeValidate_eq hold hg _ _).trans (hp hst hg)⟩

theorem guard_mem_stages {i : Instr} {r : RequestShape} (hr : requestShape i = some r) : Stage.guard ∈ r.stages := by
  cases i <;> cases hr <;> simp

theorem validate_mem_stages {i : Instr} {r : RequestShape} (hr : requestShape i = some r) :
    Stage.validate ∈ r.stages := by
  cases i <;> cases hr <;> simp

/-! ### The invariant under each update of the state -/

theorem SameBlock.inv {s t : State} (hsame : SameBlock s t) (h : Inv s) : Inv t := by
  obtain ⟨hcfg, hstore, hfault, hcaches, hbus⟩ := hsame
  cases s; cases t
  cases hcfg; cases hstore; cases hfault; cases hcaches; cases hbus
  exact ⟨h.canonical, h.shaped, h.keepsKeys, h.immutableKeys, h.caches, h.entities, h.bus⟩

theorem Inv.arrive {s : State} (h : Inv s) (f : List Byte) : Inv (s.arrive f) :=
  SameBlock.inv (s := s) ⟨rfl, rfl, rfl, rfl, rfl⟩ h

theorem Inv.result {s : State} (h : Inv s) (r : LocalResult) : Inv (s.result r) :=
  SameBlock.inv (s := s) ⟨rfl, rfl, rfl, rfl, rfl⟩ h

theorem Inv.drawNaN {s : State} (h : Inv s) : Inv s.drawNaN :=
  SameBlock.inv (s := s) ⟨rfl, rfl, rfl, rfl, rfl⟩ h

theorem Inv.withFault {s : State} (h : Inv s) (why : FaultReason) : Inv (s.withFault why) :=
  ⟨h.canonical, h.shaped, h.keepsKeys, h.immutableKeys, nofun, nofun, h.bus⟩

theorem Inv.withStore {s : State} {st : Store} (h : Inv s) (hst : StoreInv s.cfg st) : Inv (s.withStore st) :=
  ⟨hst.canonical, hst.shaped, hst.keepsKeys, hst.immutableKeys, h.caches, h.entities,
    busConsistent_withStore h.bus h.storeInv hst⟩

theorem Inv.withBus {s : State} {b : BusState} (h : Inv s) (hb : busConsistent (s.withBus b)) : Inv (s.withBus b) :=
  ⟨h.canonical, h.shaped, h.keepsKeys, h.immutableKeys, h.caches, h.entities, hb⟩

theorem Inv.withBus_idle {s : State} (h : Inv s) : Inv (s.withBus .idle) := h.withBus (busConsistent_of_idle rfl)

theorem Inv.withBus_busy {s : State} {i : Instr} {r : RequestShape} {stage : Stage} (h : Inv s)
    (hr : requestShape i = some r) (hok : StageOk s i r stage) : Inv (s.withBus (.busy i stage)) :=
  h.withBus ((busConsistent_iff_stageOk hr rfl).mpr ⟨hok.accepted, hok.ofRequest, hok.quantity, hok.present⟩)

theorem Inv.emit {s : State} (h : Inv s) (f : List Byte) : Inv (s.emit f) :=
  SameBlock.inv (s := s.withBus .idle) ⟨rfl, rfl, rfl, rfl, rfl⟩ h.withBus_idle

theorem Inv.setCache {s : State} {e : Nat} {d : EntityDesc} {c : Cache} (h : Inv s)
    (hd : s.cfg.entities[e]? = some d) (hc : cacheFits d c = true) : Inv (s.setCache e c) := by
  refine ⟨h.canonical, h.shaped, h.keepsKeys, h.immutableKeys, fun hf => ?_, h.entities, h.bus⟩
  obtain ⟨hlen, hfits⟩ := h.caches hf
  refine ⟨by simp [hlen], fun e' d' c' hd' hc' => ?_⟩
  rw [State.setCache_caches, List.getElem?_set] at hc'
  split at hc'
  · rename_i he
    subst he
    obtain rfl : d = d' := Option.some.inj (hd.symm.trans hd')
    split at hc'
    · cases hc'; exact hc
    · cases hc'
  · exact hfits e' d' c' hd' hc'

/-! ### Every step keeps the invariant -/

theorem RequestStep.inv {i : Instr} {r : RequestShape} {s t : State} (hr : requestShape i = some r)
    (hstep : RequestStep i r s t) (h : Inv s) : Inv t := by
  have hok : ∀ {stage}, s.bus = .busy i stage → StageOk s i r stage := fun hbus =>
    (busConsistent_iff_stageOk hr hbus).mp h.bus
  cases hstep with
  | take _ ha => exact h.withBus_busy hr ⟨ha, guard_mem_stages hr, by simp, by simp⟩
  | drop => exact h.withBus_idle
  | wait => exact h.arrive _
  | error => exact h.emit _
  | guardPass hbus _ hq => exact h.withBus_busy hr ⟨(hok hbus).accepted, validate_mem_stages hr, fun _ => hq, by simp⟩
  | validatePass stage hbus _ hmem hvalid =>
    exact h.withBus_busy hr
      ⟨(hok hbus).accepted, hmem, fun _ => (hok hbus).quantity (by simp), fun _ _ => hvalid⟩
  | setFault => exact h.withFault _
  | setThenGet st hbus hmem hset =>
    have hst := h.withStore (h.storeInv.storeSet hset)
    have hnow := (busConsistent_iff_stageOk (s := s.withStore st) hr hbus).mp hst.bus
    exact hst.withBus_busy hr
      ⟨hnow.accepted, hmem, fun _ => hnow.quantity (by simp), fun _ => hnow.present (.inl rfl)⟩
  | setDone st e _ _ hset => exact (h.withStore (h.storeInv.storeSet hset)).emit _
  | getBits => exact h.emit _
  | getWords => exact h.emit _
  | getEcho => exact h.emit _

theorem LocalStep.inv {s t : State} (hstep : LocalStep s t) (h : Inv s) : Inv t := by
  cases hstep with
  | fault why => exact h.withFault why
  | answer r => exact h.result r
  | drawn y => exact h.drawNaN.result _
  | set st k a vals hset => exact (h.withStore (h.storeInv.storeSet hset)).result _
  | reset => exact (h.withStore (storeInv_storeReset _ _)).result _
  | cleared r => exact (h.withStore h.storeInv.changedClear).result r
  | cached e d c r hd hc => exact (h.setCache hd hc).result r
  | cachedDrawn e d c y hd hc => exact (h.setCache hd hc).drawNaN.result _
  | written e d c st hd hc hset => exact ((h.withStore (h.storeInv.storeSet hset)).setCache hd hc).result _

theorem exec_inv {i : Instr} {s t : State} (hexec : exec i s = .next t) (h : Inv s) : Inv t := by
  cases hi : isRequest i with
  | true =>
    obtain ⟨r, hr⟩ := (isRequest_iff_shape i).mp hi
    exact (exec_request hr hexec).2.inv hr h
  | false => exact (exec_local hi hexec).2.inv h

/-- Settles O19: the invariant does not speak of the ports, and every instruction keeps it. -/
theorem everyStepKeepsTheInvariant : Obligations.EveryStepKeepsTheInvariant := by
  intro s t h hnext
  obtain hsame | ⟨i, u, hsame, -, hexec⟩ := step_block hnext
  · exact hsame.inv h
  · exact exec_inv hexec (hsame.inv h)

end Sys2Proof.Machine
end

section
/-! PROOFS. State (10_state.md): the bus agent's turn does not depend on the caches. -/

namespace Sys2Proof.Machine

/-! ### Operations that do not see the caches -/

/-- The same state with other caches. -/
def State.withCaches (s : State) (cs : List Cache) : State := { s with caches := cs }

@[simp] theorem State.withCaches_cfg (s : State) (cs : List Cache) : (s.withCaches cs).cfg = s.cfg := rfl
@[simp] theorem State.withCaches_store (s : State) (cs : List Cache) : (s.withCaches cs).store = s.store := rfl
@[simp] theorem State.withCaches_fault (s : State) (cs : List Cache) : (s.withCaches cs).fault = s.fault := rfl
@[simp] theorem State.withCaches_bus (s : State) (cs : List Cache) : (s.withCaches cs).bus = s.bus := rfl
@[simp] theorem State.withCaches_busIn (s : State) (cs : List Cache) : (s.withCaches cs).busIn = s.busIn := rfl
@[simp] theorem State.withCaches_lineIn (s : State) (cs : List Cache) : (s.withCaches cs).lineIn = s.lineIn := rfl
@[simp] theorem State.withCaches_lineBuf (s : State) (cs : List Cache) : (s.withCaches cs).lineBuf = s.lineBuf := rfl

/-- The same outcome, with other caches in its next state if it has one. -/
def outcomeWithCaches (cs : List Cache) : Result → Result
  | .next t => .next (t.withCaches cs)
  | .fault r => .fault r
  | .refused r => .refused r

/-- With other caches the operation has the same outcome. -/
def IgnoresCaches (f : State → Result) : Prop := ∀ s cs, f (s.withCaches cs) = outcomeWithCaches cs (f s)

theorem ignoresCaches_ite {p : State → Bool} {f g : State → Result} (hp : ∀ s cs, p (s.withCaches cs) = p s)
    (hf : IgnoresCaches f) (hg : IgnoresCaches g) : IgnoresCaches (fun s => if p s then f s else g s) := by
  intro s cs
  simp only [hp]
  split
  · exact hf s cs
  · exact hg s cs

theorem running_withCaches (s : State) (cs : List Cache) (r : Result) :
    running (s.withCaches cs) (outcomeWithCaches cs r) = outcomeWithCaches cs (running s r) := by
  cases hf : s.fault with
  | none => rw [running_of_none hf, running_of_none (s := s.withCaches cs) hf]
  | some why => rw [running_of_some hf, running_of_some (s := s.withCaches cs) hf, outcomeWithCaches]

theorem IgnoresCaches.running {f : State → Result} (hf : IgnoresCaches f) :
    IgnoresCaches (fun s => running s (f s)) := by
  intro s cs
  show Machine.running (s.withCaches cs) (f (s.withCaches cs)) = outcomeWithCaches cs (Machine.running s (f s))
  rw [hf s cs, running_withCaches]

theorem ignoresCaches_respond (f : List Byte) : IgnoresCaches (respond f) := fun _ _ => rfl

theorem ignoresCaches_dropRequest : IgnoresCaches dropRequest := fun _ _ => rfl

theorem ignoresCaches_enterStage (i : Instr) (stage : Stage) : IgnoresCaches (enterStage i stage) := fun _ _ => rfl

theorem ignoresCaches_refused (why : Refusal) : IgnoresCaches (fun _ => .refused why) := fun _ _ => rfl

theorem ignoresCaches_processUnsupported (f : List Byte) : IgnoresCaches (processUnsupported f) :=
  (ignoresCaches_ite (fun _ _ => rfl) (ignoresCaches_respond _) ignoresCaches_dropRequest).running

theorem ignoresCaches_receiveChunk (chunk : List Byte) : IgnoresCaches (receiveChunk chunk) := by
  refine IgnoresCaches.running fun s cs => ?_
  simp only [State.withCaches_cfg, State.withCaches_lineBuf]
  split <;> rfl

/-! ### The stages of a request -/

theorem ignoresCaches_guardStage (i : Instr) (k : Nat) (dev fc : Byte) (ok : Bool) :
    IgnoresCaches (guardStage i k dev fc ok) :=
  ignoresCaches_ite (fun _ _ => rfl) (ignoresCaches_respond _)
    (ignoresCaches_ite (fun _ _ => rfl) (ignoresCaches_enterStage _ _) (ignoresCaches_respond _))

theorem ignoresCaches_validateStage (i : Instr) (k : Nat) (dev fc : Byte) (addr : Word) (n : Nat) (following : Stage) :
    IgnoresCaches (validateStage i k dev fc addr n following) :=
  ignoresCaches_ite (fun _ _ => rfl) (ignoresCaches_enterStage _ _) (ignoresCaches_respond _)

theorem ignoresCaches_setStage (k : Nat) (addr : Word) (vals : List Word) {next : State → Result}
    (hnext : IgnoresCaches next) : IgnoresCaches (fun s => setStage k addr vals s next) := by
  intro s cs
  simp only [setStage, State.withCaches_cfg, State.withCaches_store]
  split
  · rfl
  · exact hnext (s.withStore _) cs

theorem ignoresCaches_getStage (k : Nat) (dev fc : Byte) (addr : Word) (n : Nat)
    {answer : State → List Word → List Byte} (hans : ∀ s cs, answer (s.withCaches cs) = answer s) :
    IgnoresCaches (fun s => getStage k dev fc addr n s (answer s)) := by
  intro s cs
  simp only [getStage, State.withCaches_cfg, State.withCaches_store, hans]
  split <;> rfl

theorem ignoresCaches_onBus (i : Instr) {perform : State → Stage → Result}
    (hperform : ∀ stage, IgnoresCaches (fun s => perform s stage)) :
    IgnoresCaches (fun s => onBus i s (perform s)) := by
  refine IgnoresCaches.running fun s cs => ?_
  simp only [State.withCaches_bus]
  split
  · exact ignoresCaches_ite (p := fun s => accepts s.cfg (frameBytes i)) (fun _ _ => rfl)
      (ignoresCaches_enterStage i .guard) ignoresCaches_dropRequest s cs
  · split
    · exact hperform _ s cs
    · rfl

/-! ### The requests -/

theorem ignoresCaches_readRequest (i : Instr) (k : Nat) (dev fc : Byte) (addr : Word) (n : Nat) (ok : Bool)
    (answer : List Word → List Byte) : IgnoresCaches (readRequest i k dev fc addr n ok answer) := by
  refine ignoresCaches_onBus i fun stage => ?_
  cases stage with
  | guard => exact ignoresCaches_guardStage i k dev fc ok
  | validate => exact ignoresCaches_validateStage i k dev fc addr n .get
  | get => exact ignoresCaches_getStage k dev fc addr n (answer := fun _ => answer) (fun _ _ => rfl)
  | set => exact ignoresCaches_refused _

theorem ignoresCaches_singleWriteRequest (i : Instr) (k : Nat) (dev fc : Byte) (addr w : Word)
    {echo : State → Word → Word} (hecho : ∀ s cs, echo (s.withCaches cs) = echo s) :
    IgnoresCaches (fun s => singleWriteRequest i k dev fc addr w (echo s) s) := by
  refine ignoresCaches_onBus i fun stage => ?_
  cases stage with
  | guard => exact ignoresCaches_guardStage i k dev fc true
  | validate => exact ignoresCaches_validateStage i k dev fc addr 1 .set
  | set => exact ignoresCaches_setStage k addr [w] (ignoresCaches_enterStage i .get)
  | get => exact ignoresCaches_getStage k dev fc addr 1 (fun s cs => by simp only [hecho])

theorem ignoresCaches_multiWriteRequest (i : Instr) (k : Nat) (dev fc : Byte) (addr q : Word) (ok : Bool)
    (vals : List Word) : IgnoresCaches (multiWriteRequest i k dev fc addr q ok vals) := by
  refine ignoresCaches_onBus i fun stage => ?_
  cases stage with
  | guard => exact ignoresCaches_guardStage i k dev fc ok
  | validate => exact ignoresCaches_validateStage i k dev fc addr q.toNat .set
  | set => exact ignoresCaches_setStage k addr vals (ignoresCaches_respond _)
  | get => exact ignoresCaches_refused _

theorem exec_request_ignoresCaches {i : Instr} (hi : isRequest i = true) : IgnoresCaches (exec i) := by
  cases i with
  | readCoils | readDiscreteInputs | readHoldingRegisters | readInputRegisters =>
    exact ignoresCaches_readRequest _ _ _ _ _ _ _ _
  | writeSingleCoil dev addr q crc =>
    exact ignoresCaches_singleWriteRequest _ _ _ _ _ _ (echo := fun s w => echo5 s.cfg.coilEcho w q) (fun _ _ => rfl)
  | writeSingleRegister dev addr q crc =>
    exact ignoresCaches_singleWriteRequest _ _ _ _ _ _ (echo := fun _ w => w) (fun _ _ => rfl)
  | writeMultipleCoils | writeMultipleRegisters => exact ignoresCaches_multiWriteRequest _ _ _ _ _ _ _ _
  | _ => cases hi

/-! ### The turn -/

theorem ignoresCaches_takeFrame (f : List Byte) : IgnoresCaches (takeFrame f) := by
  intro s cs
  unfold takeFrame
  split
  · exact exec_request_ignoresCaches (decodeFrame_request ‹_›) s cs
  · exact ignoresCaches_processUnsupported f s cs

/-- The turn itself runs whatever is in flight, so a consistent bus state is what keeps an entity read out of it. -/
theorem busTurn_withCaches {s : State} (hcon : busConsistent s) (cs : List Cache) :
    busTurn (s.withCaches cs) = outcomeWithCaches cs (busTurn s) := by
  unfold busTurn
  simp only [State.withCaches_bus, State.withCaches_busIn, State.withCaches_lineIn]
  split
  · rename_i i stage hbus
    obtain ⟨r, hr, -⟩ := hcon i stage hbus
    exact exec_request_ignoresCaches ((isRequest_iff_shape i).mpr ⟨r, hr⟩) s cs
  · split
    · exact ignoresCaches_takeFrame _ s.frameTaken cs
    · split
      · exact ignoresCaches_receiveChunk _ s.chunkTaken cs
      · rfl

theorem step_of_busAgent {s : State} (ha : nextAgent s = .busAgent) : step s = running s (busTurn s.turnTaken) := by
  rw [step, ha, turnOf]

/-- Settles O29: each operation a bus turn is made of ignores the caches, and so does the turn. -/
theorem busTurnsDoNotSeeTheCaches : Obligations.BusTurnsDoNotSeeTheCaches := by
  intro s cs hcon ha
  have hturn : step (s.withCaches cs) = outcomeWithCaches cs (step s) := by
    have hcomm : busTurn (s.withCaches cs).turnTaken = outcomeWithCaches cs (busTurn s.turnTaken) :=
      busTurn_withCaches (s := s.turnTaken) hcon cs
    rw [step_of_busAgent ha, step_of_busAgent (s := s.withCaches cs) ha, hcomm, running_withCaches]
  refine Eq.trans hturn ?_
  cases step s <;> rfl

end Sys2Proof.Machine
end

section
/-! PROOFS. Memory (20_memory.md): which cells a step can write, and what a write does to the changed flag. -/

namespace Sys2Proof.Machine

/-! ### Cells that are left as they are -/

theorem readCell_of_store_eq {s t : State} (h : t.store = s.store) (k key : Nat) :
    readCell t k key = readCell s k key := by
  rw [readCell, h, readCell]

/-- A set leaves every cell of another class, and with no words every cell (R45). -/
theorem storeSet_find_of_untouched {cfg : Config} {st st' : Store} {k a j : Nat} {vals : List Word}
    (hset : storeSet cfg st k a vals = some st') (h : j ≠ k ∨ vals = []) (key : Nat) :
    ClassMap.find (st'.map j) key = ClassMap.find (st.map j) key := by
  rw [storeSet_find _ _ _ _ _ _ hset, if_neg]
  rintro ⟨hj, -, hlow, hhigh⟩
  obtain hne | rfl := h
  · exact hne hj
  · rw [List.length_nil] at hhigh
    omega

/-! ### Writes latch the changed flag -/

/-- Of the store's primitives only a set of at least one word, which latches the flag (R45), and the reset (R46)
change a cell. -/
theorem StoreStep.changed_of_cell_ne {i : Instr} {s t : State} (h : StoreStep i s t) {k key : Nat}
    (hne : readCell t k key ≠ readCell s k key) : t.store.changed = true ∨ i = .lReset := by
  cases h with
  | kept hst => exact absurd (readCell_of_store_eq hst k key) hne
  | set j a vals hset =>
    have hvals : vals ≠ [] := fun hnil => hne (storeSet_find_of_untouched hset (.inr hnil) key)
    left
    simp [storeSet_changed _ _ _ _ _ _ hset, hvals]
  | reset hi _ => exact .inr hi
  | cleared _ hst => exact absurd (by rw [readCell, hst]; rfl) hne

/-- Settles O31: an instruction that changed a cell latched the flag or is the reset, which is no request and so was the
local agent's command. -/
theorem everyWriteLatchesChanged : Obligations.EveryWriteLatchesChanged := by
  intro s t k key hcon h hne
  obtain hsame | ⟨i, u, hsame, hperf, hexec⟩ := step_block h
  · exact absurd (readCell_of_store_eq hsame.store k key) hne
  · rw [← readCell_of_store_eq hsame.store] at hne
    obtain hlatched | rfl := (exec_storeStep hexec).changed_of_cell_ne hne
    · exact .inl hlatched
    · obtain hreq | hcommand := hperf.request_or_command hcon
      · cases hreq
      · exact .inr hcommand

/-! ### The frame of a bus turn -/

/-- What a bus turn leaves as it is: the cells of every class but CO and HR (R58), the caches (R26), the local port, and
the flag once it is set (R230). -/
structure BusFrame (s t : State) : Prop where
  cells : ∀ k key, k ≠ 0 → k ≠ 2 → readCell t k key = readCell s k key
  caches : t.caches = s.caches
  localIn : t.localIn = s.localIn
  localOut : t.localOut = s.localOut
  nanDraws : t.nanDraws = s.nanDraws
  changed : s.store.changed = true → t.store.changed = true

theorem BusFrame.refl (s : State) : BusFrame s s := ⟨fun _ _ _ _ => rfl, rfl, rfl, rfl, rfl, id⟩

theorem BusFrame.trans {s u t : State} (h : BusFrame s u) (h' : BusFrame u t) : BusFrame s t where
  cells k key h0 h2 := (h'.cells k key h0 h2).trans (h.cells k key h0 h2)
  caches := h'.caches.trans h.caches
  localIn := h'.localIn.trans h.localIn
  localOut := h'.localOut.trans h.localOut
  nanDraws := h'.nanDraws.trans h.nanDraws
  changed hset := h'.changed (h.changed hset)

theorem busFrame_turnTaken (s : State) : BusFrame s s.turnTaken := ⟨fun _ _ _ _ => rfl, rfl, rfl, rfl, rfl, id⟩

theorem busFrame_frameTaken (s : State) : BusFrame s s.frameTaken := ⟨fun _ _ _ _ => rfl, rfl, rfl, rfl, rfl, id⟩

theorem busFrame_chunkTaken (s : State) : BusFrame s s.chunkTaken := ⟨fun _ _ _ _ => rfl, rfl, rfl, rfl, rfl, id⟩

theorem busFrame_withBuffer (s : State) (buf : List Byte) : BusFrame s (s.withBuffer buf) :=
  ⟨fun _ _ _ _ => rfl, rfl, rfl, rfl, rfl, id⟩

theorem busFrame_arrive (s : State) (f : List Byte) : BusFrame s (s.arrive f) :=
  ⟨fun _ _ _ _ => rfl, rfl, rfl, rfl, rfl, id⟩

theorem busFrame_emit (s : State) (f : List Byte) : BusFrame s (s.emit f) :=
  ⟨fun _ _ _ _ => rfl, rfl, rfl, rfl, rfl, id⟩

theorem busFrame_withBus (s : State) (b : BusState) : BusFrame s (s.withBus b) :=
  ⟨fun _ _ _ _ => rfl, rfl, rfl, rfl, rfl, id⟩

theorem busFrame_withFault (s : State) (why : FaultReason) : BusFrame s (s.withFault why) :=
  ⟨fun _ _ _ _ => rfl, rfl, rfl, rfl, rfl, id⟩

/-- The requests of the other classes are reads: they have no words to write (R70). -/
theorem writes_eq_nil_of_other_class {i : Instr} {r : RequestShape} (hr : requestShape i = some r) (h0 : r.cls ≠ 0)
    (h2 : r.cls ≠ 2) : r.writes = [] := by
  cases i <;> cases hr
  case readCoils | readDiscreteInputs | readHoldingRegisters | readInputRegisters => rfl
  case writeSingleCoil | writeMultipleCoils => exact absurd rfl h0
  case writeSingleRegister | writeMultipleRegisters => exact absurd rfl h2

theorem busFrame_set {i : Instr} {r : RequestShape} {s : State} {st : Store} (hr : requestShape i = some r)
    (hset : storeSet s.cfg s.store r.cls r.addr.toNat r.writes = some st) : BusFrame s (s.withStore st) where
  cells k key h0 h2 := by
    refine storeSet_find_of_untouched hset ?_ key
    obtain rfl | hne := eq_or_ne k r.cls
    · exact .inr (writes_eq_nil_of_other_class hr h0 h2)
    · exact .inl hne
  caches := rfl
  localIn := rfl
  localOut := rfl
  nanDraws := rfl
  changed hold := by
    rw [State.withStore_store, storeSet_changed _ _ _ _ _ _ hset, hold, Bool.true_or]

theorem RequestStep.busFrame {i : Instr} {r : RequestShape} {s t : State} (hr : requestShape i = some r)
    (h : RequestStep i r s t) : BusFrame s t := by
  cases h with
  | take | drop | guardPass | validatePass => exact busFrame_withBus s _
  | wait => exact busFrame_arrive s _
  | setFault => exact busFrame_withFault s _
  | setThenGet st _ _ hset => exact (busFrame_set hr hset).trans (busFrame_withBus _ _)
  | setDone st _ _ _ hset => exact (busFrame_set hr hset).trans (busFrame_emit _ _)
  | error | getBits | getWords | getEcho => exact busFrame_emit s _

theorem exec_request_busFrame {i : Instr} {s t : State} (hi : isRequest i = true) (h : exec i s = .next t) :
    BusFrame s t := by
  obtain ⟨r, hr⟩ := (isRequest_iff_shape i).mp hi
  exact (exec_request hr h).2.busFrame hr

theorem MachineStep.busFrame {s t : State} (h : MachineStep s t) (hcon : busConsistent s)
    (ha : nextAgent s = .busAgent) : BusFrame s t := by
  refine (busFrame_turnTaken s).trans ?_
  cases h with
  | pause => exact .refl _
  | inFlight i stage _ _ hbus hexec =>
    obtain ⟨r, hr, -⟩ := hcon i stage hbus
    exact exec_request_busFrame ((isRequest_iff_shape i).mpr ⟨r, hr⟩) hexec
  | frame f rest i _ _ _ _ hdec hexec =>
    exact (busFrame_frameTaken _).trans (exec_request_busFrame (decodeFrame_request hdec) hexec)
  | unsupported => exact (busFrame_frameTaken _).trans (busFrame_emit _ _)
  | dropped => exact (busFrame_frameTaken _).trans (busFrame_withBus _ _)
  | chunk _ _ buf handed =>
    refine (busFrame_chunkTaken _).trans ((busFrame_withBuffer _ buf).trans ?_)
    cases handed with
    | none => exact .refl _
    | some f => exact busFrame_arrive _ f
  | command _ _ _ _ hlocal => cases hlocal.symm.trans ha

/-- Settles O28: a bus turn moves its ports, or steps one request, and only the requests that write coils or holding
registers have words to set. -/
theorem busTurnsReachCoilsAndHoldingRegistersOnly : Obligations.BusTurnsReachCoilsAndHoldingRegistersOnly := by
  intro s t hcon ha h
  obtain ⟨hcells, hcaches, hin, hout, hdraws, hchanged⟩ := (step_next h).2.busFrame hcon ha
  exact ⟨hcells, hcaches, hin, hout, hdraws, hchanged⟩

end Sys2Proof.Machine
end

section
/-! PROOFS. Encoding (30_encoding.md): the fields of a frame at their bytes, the layout of every frame and command record
that decodes, and the operands that are refused. -/

namespace Sys2Proof.Machine

/-! ### Fields at their bytes (R63) -/

@[simp] theorem hiByte_joinBytes (h l : Byte) : hiByte (joinBytes h l) = h := BitVec.extractLsb'_append_eq_left

@[simp] theorem loByte_joinBytes (h l : Byte) : loByte (joinBytes h l) = l := BitVec.extractLsb'_append_eq_right

@[simp] theorem joinBytes_hiByte_loByte (w : Word) : joinBytes (hiByte w) (loByte w) = w :=
  BitVec.extractLsb'_append_extractLsb'

/-- The bytes of format FR (R61). -/
theorem fixedFrame_joinBytes (dev fc a1 a0 q1 q0 c0 c1 : Byte) :
    fixedFrame dev fc (joinBytes a1 a0) (joinBytes q1 q0) (joinBytes c1 c0) = [dev, fc, a1, a0, q1, q0, c0, c1] := by
  simp [fixedFrame, headerBytes, le16]

/-- The bytes of format FM, with its byte count `n` (R62). -/
theorem multiFrame_joinBytes (dev fc a1 a0 q1 q0 n c0 c1 : Byte) {payload : List Byte}
    (hlen : payload.length = n.toNat) :
    multiFrame dev fc (joinBytes a1 a0) (joinBytes q1 q0) payload (joinBytes c1 c0) =
      [dev, fc, a1, a0, q1, q0, n] ++ payload ++ [c0, c1] := by
  simp [multiFrame, headerBytes, le16, hlen]

/-! ### The rows of the tables -/

theorem byte_eq_ofNat {b : Byte} {n : Nat} (h : b.toNat = n) : b = BitVec.ofNat 8 n :=
  BitVec.eq_of_toNat_eq (by rw [BitVec.toNat_ofNat, ← h, Nat.mod_eq_of_lt b.isLt])

/-- What a row of format FR selects (R70): a request of that row's code, class and layout. -/
structure FixedRow (fc dev : Byte) (addr q crc : Word) (i : Instr) : Prop where
  wellFormed : i.wellFormed = true
  encoding : encode i = .frame (fixedFrame dev fc addr q crc)
  notMulti : isMultiCode fc = false
  shape : ∃ r, requestShape i = some r ∧ r.fc = fc ∧
    (fc, r.cls) ∈ [(1#8, 0), (2#8, 1), (3#8, 2), (4#8, 3), (5#8, 0), (6#8, 2)]

theorem fixedRequest_row {fc dev : Byte} {addr q crc : Word} {i : Instr}
    (h : fixedRequest fc dev addr q crc = some i) : FixedRow fc dev addr q crc i := by
  unfold fixedRequest at h
  split at h
  case h_7 => cases h
  all_goals
    rename_i hfc
    obtain rfl := byte_eq_ofNat hfc
    cases h
    exact ⟨rfl, rfl, rfl, _, rfl, rfl, by simp⟩

/-- What a row of format FM selects (R70). -/
structure MultiRow (fc dev : Byte) (addr q : Word) (payload : List Byte) (crc : Word) (i : Instr) : Prop where
  wellFormed : i.wellFormed = payloadFits payload
  encoding : encode i = .frame (multiFrame dev fc addr q payload crc)
  code : fc = 15#8 ∨ fc = 16#8
  shape : ∃ r, requestShape i = some r ∧ r.fc = fc ∧ (fc, r.cls) ∈ [(15#8, 0), (16#8, 2)]

theorem multiRequest_row {fc dev : Byte} {addr q : Word} {payload : List Byte} {crc : Word} {i : Instr}
    (h : multiRequest fc dev addr q payload crc = some i) : MultiRow fc dev addr q payload crc i := by
  unfold multiRequest at h
  split at h
  case h_3 => cases h
  all_goals
    rename_i hfc
    obtain rfl := byte_eq_ofNat hfc
    cases h
    exact ⟨rfl, rfl, by decide, _, rfl, rfl, by simp⟩

theorem isMultiCode_iff (fc : Byte) : isMultiCode fc = true ↔ fc = 15#8 ∨ fc = 16#8 := by
  simp [isMultiCode]

/-! ### Frames -/

theorem decodeFrame_fixedFrame {fc dev : Byte} {addr q crc : Word} {i : Instr}
    (h : fixedRequest fc dev addr q crc = some i) : decodeFrame (fixedFrame dev fc addr q crc) = .ok i := by
  simp [decodeFrame, fixedFrame, headerBytes, le16, (fixedRequest_row h).notMulti, h]

theorem decodeFrame_multiFrame {fc dev : Byte} {addr q : Word} {payload : List Byte} {crc : Word} {i : Instr}
    (hlen : payload.length ≤ 255) (h : multiRequest fc dev addr q payload crc = some i) :
    decodeFrame (multiFrame dev fc addr q payload crc) = .ok i := by
  have hmulti : isMultiCode fc = true := (isMultiCode_iff fc).mpr (multiRequest_row h).code
  have hcount : payload.length % 2 ^ 8 = payload.length := Nat.mod_eq_of_lt (by omega)
  obtain ⟨b7, rest, htail⟩ : ∃ b7 rest, payload ++ le16 crc = b7 :: rest := List.exists_cons_of_ne_nil (by simp [le16])
  have hbytes : multiFrame dev fc addr q payload crc = dev :: fc :: hiByte addr :: loByte addr :: hiByte q :: loByte q ::
      BitVec.ofNat 8 payload.length :: b7 :: rest := by
    simp [multiFrame, headerBytes, htail]
  rw [hbytes, decodeFrame, if_pos hmulti, ← htail]
  simp only [BitVec.toNat_ofNat, hcount, List.take_left', List.drop_left', le16, joinBytes_hiByte_loByte, h]

/-- The layout of a frame that decodes: one of the two formats, with every byte a field of the instruction. -/
inductive FrameLayout (f : List Byte) (i : Instr) : Prop
  | fixed (fc dev : Byte) (addr q crc : Word) : fixedRequest fc dev addr q crc = some i →
      f = fixedFrame dev fc addr q crc → FrameLayout f i
  | multi (fc dev : Byte) (addr q : Word) (payload : List Byte) (crc : Word) : payload.length ≤ 255 →
      multiRequest fc dev addr q payload crc = some i → f = multiFrame dev fc addr q payload crc → FrameLayout f i

theorem decodeFrame_layout {f : List Byte} {i : Instr} (h : decodeFrame f = .ok i) : FrameLayout f i := by
  unfold decodeFrame at h
  split at h
  · rename_i dev fc a1 a0 q1 q0 b6 b7 rest
    split at h
    · dsimp only at h
      split at h
      · rename_i c0 c1 hdrop
        split at h
        · rename_i hrow
          cases h
          have hlen : ((b7 :: rest).take b6.toNat).length = b6.toNat := by
            have hrest : (b7 :: rest).length - b6.toNat = 2 := by rw [← List.length_drop, hdrop]; rfl
            rw [List.length_take]
            omega
          refine .multi _ _ _ _ _ _ (by rw [hlen]; exact Nat.le_of_lt_succ b6.isLt) hrow ?_
          rw [multiFrame_joinBytes _ _ _ _ _ _ b6 _ _ hlen, ← hdrop]
          simp
        · cases h
      · cases h
    · split at h
      · rename_i hrow
        split at h
        · rename_i hrest
          cases h
          exact .fixed _ _ _ _ _ hrow (by rw [fixedFrame_joinBytes, hrest])
        · cases h
      · cases h
  · cases h

/-- Settles O2: the formats lay out joined bytes as the bytes themselves, and the decoder gives back the fields. -/
theorem requestFieldsStandAtTheirBytes : Obligations.RequestFieldsStandAtTheirBytes := by
  refine ⟨fun dev a1 a0 q1 q0 c0 c1 => ?_, fun dev a1 a0 q1 q0 n c0 c1 payload hlen => ?_⟩
  · simp only [← fixedFrame_joinBytes]
    refine ⟨?_, ?_, ?_, ?_, ?_, ?_⟩ <;> exact decodeFrame_fixedFrame rfl
  · have hfits : payload.length ≤ 255 := by have := n.isLt; omega
    simp only [← multiFrame_joinBytes _ _ _ _ _ _ n _ _ hlen]
    exact ⟨decodeFrame_multiFrame hfits rfl, decodeFrame_multiFrame hfits rfl⟩

theorem fixedFrame_length (dev fc : Byte) (addr q crc : Word) : (fixedFrame dev fc addr q crc).length = 8 := rfl

theorem fixedFrame_code (dev fc : Byte) (addr q crc : Word) : (fixedFrame dev fc addr q crc)[1]? = some fc := rfl

theorem multiFrame_length (dev fc : Byte) (addr q : Word) (payload : List Byte) (crc : Word) :
    (multiFrame dev fc addr q payload crc).length = 9 + payload.length := by
  simp +arith [multiFrame, headerBytes, le16]

theorem multiFrame_code (dev fc : Byte) (addr q : Word) (payload : List Byte) (crc : Word) :
    (multiFrame dev fc addr q payload crc)[1]? = some fc := rfl

theorem multiFrame_count (dev fc : Byte) (addr q : Word) (payload : List Byte) (crc : Word) :
    (multiFrame dev fc addr q payload crc)[6]? = some (BitVec.ofNat 8 payload.length) := rfl

/-- Settles O3: the row that byte 1 selects fixes the class, and the format of the row the length. -/
theorem decodedFramesFollowTheFunctionCodeMap : Obligations.DecodedFramesFollowTheFunctionCodeMap := by
  intro f i h
  cases decodeFrame_layout h with
  | fixed fc dev addr q crc hrow hf =>
    subst hf
    obtain ⟨-, -, hmulti, r, hr, rfl, hcls⟩ := fixedRequest_row hrow
    rw [fixedFrame_code, fixedFrame_length]
    refine ⟨⟨r, hr, rfl, ?_⟩, by omega, by omega, fun hcode => ?_, fun _ => rfl⟩
    · exact List.mem_append_left [(15#8, 0), (16#8, 2)] hcls
    · rw [Option.some_inj, Option.some_inj, ← isMultiCode_iff, hmulti] at hcode
      cases hcode
  | multi fc dev addr q payload crc hlen hrow hf =>
    subst hf
    obtain ⟨-, -, hcode, r, hr, rfl, hcls⟩ := multiRequest_row hrow
    rw [multiFrame_code, multiFrame_length, multiFrame_count, Option.some_inj, Option.some_inj]
    refine ⟨⟨r, hr, rfl, ?_⟩, by omega, by omega, fun _ => ⟨_, rfl, ?_⟩, fun hnot => absurd hcode hnot⟩
    · exact List.mem_append_right [(1#8, 0), (2#8, 1), (3#8, 2), (4#8, 3), (5#8, 0), (6#8, 2)] hcls
    · rw [BitVec.toNat_ofNat, Nat.mod_eq_of_lt (by omega)]

/-! ### Decode and encode -/

theorem wordsOfNats_map_toNat (ws : List Word) : wordsOfNats (ws.map BitVec.toNat) = some ws := by
  have hwords : (ws.map BitVec.toNat).all (· < 0x10000) = true := by
    simp only [List.all_map, List.all_eq_true, Function.comp_apply, decide_eq_true_eq]
    exact fun w _ => w.isLt
  rw [wordsOfNats, if_pos hwords, List.map_map]
  simp [Function.comp_def]

theorem map_toNat_of_wordsOfNats {ns : List Nat} {ws : List Word} (h : wordsOfNats ns = some ws) :
    ws.map BitVec.toNat = ns := by
  unfold wordsOfNats at h
  split at h
  · rename_i hall
    simp only [List.all_eq_true, decide_eq_true_eq] at hall
    cases h
    rw [List.map_map]
    refine (List.map_congr_left fun n hn => ?_).trans (List.map_id ns)
    exact Nat.mod_eq_of_lt (hall n hn)
  · cases h

theorem decode_encode {i : Instr} (h : i.wellFormed = true) : decode (encode i) = .ok i := by
  cases i with
  | readCoils | readDiscreteInputs | readHoldingRegisters | readInputRegisters | writeSingleCoil |
    writeSingleRegister => rw [encode, decode, decodeFrame_fixedFrame rfl]
  | writeMultipleCoils | writeMultipleRegisters => rw [encode, decode, decodeFrame_multiFrame (of_decide_eq_true h) rfl]
  | lSet k a vals =>
    simp [encode, decode, decodeCommand, wordsOfNats_map_toNat]
  | _ => rfl

theorem encode_of_decodeFrame {f : List Byte} {i : Instr} (h : decodeFrame f = .ok i) :
    i.wellFormed = true ∧ encode i = .frame f := by
  cases decodeFrame_layout h with
  | fixed fc dev addr q crc hrow hf =>
    obtain ⟨hwf, henc, -, -⟩ := fixedRequest_row hrow
    exact ⟨hwf, henc.trans (by rw [hf])⟩
  | multi fc dev addr q payload crc hlen hrow hf =>
    obtain ⟨hwf, henc, -, -⟩ := multiRequest_row hrow
    exact ⟨hwf.trans (decide_eq_true hlen), henc.trans (by rw [hf])⟩

theorem encode_of_decodeCommand {c : Command} {i : Instr} (h : decodeCommand c = .ok i) :
    i.wellFormed = true ∧ encode i = .command c := by
  obtain ⟨sel, operands⟩ := c
  unfold decodeCommand at h
  dsimp only at h
  split at h
  case h_20 => cases h
  case h_3 hsel =>
    obtain rfl := byte_eq_ofNat hsel
    split at h
    · split at h
      · rename_i hwords
        cases h
        exact ⟨rfl, by rw [encode, map_toNat_of_wordsOfNats hwords]⟩
      · cases h
    · cases h
  all_goals
    rename_i hsel
    obtain rfl := byte_eq_ofNat hsel
    split at h
    · cases h; exact ⟨rfl, rfl⟩
    · cases h

/-- Settles O1: the decoder undoes the encoder, and what decodes has the layout the encoder gives it. -/
theorem decodeAndEncodeAgree : Obligations.DecodeAndEncodeAgree := by
  intro x i
  constructor
  · cases x with
    | frame f => exact encode_of_decodeFrame
    | command c => exact encode_of_decodeCommand
  · rintro ⟨hwf, rfl⟩
    exact decode_encode hwf

/-- Settles O4: the decoder computes each of the five answers. -/
theorem writtenOutWordsDecode : Obligations.WrittenOutWordsDecode :=
  ⟨rfl, rfl, rfl, rfl, rfl⟩

/-! ### Refused commands and operands -/

theorem decodeCommand_reserved {c : Command} (h : c.sel.toNat ∉ localSelectors) :
    decodeCommand c = .error (.reservedSelector c.sel) := by
  unfold decodeCommand
  split
  case h_20 => rfl
  all_goals
    rename_i hsel
    exact absurd (by rw [hsel]; decide) h

theorem step_of_localAgent {s : State} (ha : nextAgent s = .localAgent) :
    step s = running s (localTurn s.turnTaken) := by
  rw [step, ha, turnOf]

/-- Settles O5: the turn is the local agent's, and it takes a command that does not decode. -/
theorem reservedSelectorsAreRefused : Obligations.ReservedSelectorsAreRefused := by
  intro s c rest hf ha hin hsel
  rw [step_of_localAgent ha, running_of_none hf, localTurn, State.turnTaken_localIn, hin]
  simp only [takeCommand, decodeCommand_reserved hsel, refusalOf]

theorem withClass_absent {k : Nat} {s : State} (hk : (classesOf s.cfg).length ≤ k) (next : Result) :
    withClass k s next = .refused (.absentClass k) := by
  simp [withClass, classExists, hk]

section
variable {e : Nat} {s : State} (hf : s.fault = none) (he : s.cfg.entities.length ≤ e)
include he

theorem withEntity_absent (v : Variant) (next : EntityDesc → Result) :
    withEntity v e s next = .refused (.absentEntity e) := by
  rw [withEntity, List.getElem?_eq_none he]

include hf

theorem entityFetch_absent (v : Variant) (next : EntityDesc → List Word → Result) :
    entityFetch v e s next = .refused (.absentEntity e) := by
  rw [entityFetch, running_of_none hf, withEntity_absent he]

theorem entityCached_absent (v : Variant) (next : EntityDesc → Cache → Result) :
    entityCached v e s next = .refused (.absentEntity e) := by
  rw [entityCached, running_of_none hf, withEntity_absent he]

theorem entityWrite_absent (v : Variant) (val : Value) : entityWrite v e val s = .refused (.absentEntity e) := by
  rw [entityWrite, running_of_none hf, withEntity_absent he]

end

/-- Settles O45: each operation looks its operand up before anything else. -/
theorem absentOperandsAreRefused : Obligations.AbsentOperandsAreRefused := by
  intro s hf
  refine ⟨fun k a n vals hk => ⟨?_, ?_, ?_⟩, fun e v he => ?_⟩
  · rw [exec, execLValidate, running_of_none hf, withClass_absent hk]
  · rw [exec, execLGet, running_of_none hf, withClass_absent hk]
  · rw [exec, execLSet, running_of_none hf, withClass_absent hk]
  · have hread := entityFetch_absent hf he
    have hcached := entityCached_absent hf he
    have hwrite := entityWrite_absent hf he
    simp only [List.forall_mem_cons]
    exact ⟨hread _ _, hcached _ _, hwrite _ _, hread _ _, hcached _ _, hwrite _ _, hread _ _, hcached _ _, hwrite _ _,
      hread _ _, hcached _ _, hwrite _ _, nofun⟩

end Sys2Proof.Machine
end

section
/-! PROOFS. Responses (30_encoding.md section 3, 41_frame_requests.md section 3): the frames a step can emit, and their
layout. -/

namespace Sys2Proof.Machine

/-! ### The CRC of a response (R65, R104) -/

theorem crcMatches_appendCrc (body : List Byte) : crcMatches (appendCrc body) = true := by
  simp [crcMatches, appendCrc, le16]

theorem responseCrcOk_appendCrc (body : List Byte) : responseCrcOk (appendCrc body) = true := by
  rw [responseCrcOk, crcMatches_appendCrc]
  simp [appendCrc, le16]

/-! ### The data of a read (R105, R106) -/

theorem packBits_length (bs : List Bool) : (packBits bs).length = ceilDiv8 bs.length := by
  simp [packBits]

theorem bitData_length (ws : List Word) : (bitData ws).length = ceilDiv8 ws.length := by
  rw [bitData, packBits_length, List.length_map]

theorem packWords_length (ws : List Word) : (packWords ws).length = 2 * ws.length := by
  induction ws with
  | nil => rfl
  | cons w ws ih => simp [packWords, be16, ih]; omega

/-! ### The frames a step can emit -/

/-- Every frame the block emits: an error frame with one of three codes, the response of a write, or the response of a
read; of the data of a read the byte count tells the length where `fits` holds. -/
inductive Emitted (fits : Prop) : List Byte → Prop
  | error (dev fc : Byte) (code : ExceptionCode) :
      code = .illegalFunction ∨ code = .illegalDataAddress ∨ code = .illegalDataValue →
      Emitted fits (errorFrame dev fc code)
  | write (dev fc : Byte) (addr e : Word) : fc ∈ [5#8, 6#8, 15#8, 16#8] → Emitted fits (writeResponse dev fc addr e)
  | read (dev fc : Byte) (data : List Byte) : fc ∈ [1#8, 2#8, 3#8, 4#8] →
      (fits → 1 ≤ data.length ∧ data.length ≤ 255) → Emitted fits (readResponse dev fc data)

/-- What an emitted frame is (R66 to R69, R133, R223). -/
structure WellFormedResponse (fits : Prop) (f : List Byte) : Prop where
  crc : responseCrcOk f = true
  error : (f.getD 1 0#8).getLsbD 7 = true → f.length = 5 ∧ f.getD 2 0#8 ∈ [0x01#8, 0x02#8, 0x03#8]
  answer : fits → (f.getD 1 0#8).getLsbD 7 = false →
    (f.getD 1 0#8 ∈ [1#8, 2#8, 3#8, 4#8] ∧ 1 ≤ (f.getD 2 0#8).toNat ∧ f.length = 5 + (f.getD 2 0#8).toNat) ∨
    (f.getD 1 0#8 ∈ [5#8, 6#8, 15#8, 16#8] ∧ f.length = 8)

theorem errorFrame_bit7 (dev fc : Byte) (code : ExceptionCode) :
    ((errorFrame dev fc code).getD 1 0#8).getLsbD 7 = true := by
  change (fc ||| 0x80#8).getLsbD 7 = true
  simp

theorem errorFrame_code (dev fc : Byte) (code : ExceptionCode) :
    (errorFrame dev fc code).getD 2 0#8 = exceptionByte code := rfl

theorem readResponse_length (dev fc : Byte) (data : List Byte) :
    (readResponse dev fc data).length = 5 + data.length := by
  simp +arith [readResponse, appendCrc, le16]

theorem readResponse_count {data : List Byte} (h : data.length ≤ 255) (dev fc : Byte) :
    ((readResponse dev fc data).getD 2 0#8).toNat = data.length :=
  Nat.mod_eq_of_lt (Nat.lt_succ_of_le h)

theorem bit7_of_answer {fc : Byte} (h : fc ∈ [1#8, 2#8, 3#8, 4#8] ++ [5#8, 6#8, 15#8, 16#8]) :
    fc.getLsbD 7 = false := by
  revert fc
  decide

theorem Emitted.wellFormed {fits : Prop} {f : List Byte} (h : Emitted fits f) : WellFormedResponse fits f := by
  cases h with
  | error dev fc code hcode =>
    refine ⟨responseCrcOk_appendCrc _, fun _ => ⟨rfl, ?_⟩, fun _ hclear => ?_⟩
    · rw [errorFrame_code]
      obtain rfl | rfl | rfl := hcode <;> decide
    · cases (errorFrame_bit7 dev fc code).symm.trans hclear
  | write dev fc addr e hfc =>
    have hbit : ((writeResponse dev fc addr e).getD 1 0#8).getLsbD 7 = false :=
      bit7_of_answer (List.mem_append_right _ hfc)
    exact ⟨responseCrcOk_appendCrc _, fun hset => (by cases hbit.symm.trans hset), fun _ _ => .inr ⟨hfc, rfl⟩⟩
  | read dev fc data hfc hdata =>
    have hbit : ((readResponse dev fc data).getD 1 0#8).getLsbD 7 = false :=
      bit7_of_answer (List.mem_append_left _ hfc)
    refine ⟨responseCrcOk_appendCrc _, fun hset => (by cases hbit.symm.trans hset), fun hfits _ => .inl ⟨hfc, ?_⟩⟩
    obtain ⟨hpos, hle⟩ := hdata hfits
    rw [readResponse_count hle, readResponse_length]
    exact ⟨hpos, rfl⟩

/-- At most one frame is emitted, and it is one of `Emitted`. -/
def EmitsAtMostOne (fits : Prop) (s t : State) : Prop :=
  t.busOut = s.busOut ∨ ∃ f, t.busOut = s.busOut ++ [f] ∧ Emitted fits f

/-! ### Which step emits what -/

/-- The quantity check bounds the cells of a read to what its byte count can tell (D6). -/
theorem count_le_of_quantityOk {i : Instr} {r : RequestShape} (hr : requestShape i = some r)
    (hq : r.quantityOk = true) :
    (r.fc = 1#8 ∨ r.fc = 2#8 → r.count ≤ 2040) ∧ (r.fc = 3#8 ∨ r.fc = 4#8 → r.count ≤ 127) := by
  cases i <;> cases hr
  case readCoils | readDiscreteInputs => exact ⟨fun _ => of_decide_eq_true hq, by simp⟩
  case readHoldingRegisters | readInputRegisters => exact ⟨by simp, fun _ => of_decide_eq_true hq⟩
  case writeSingleCoil | writeSingleRegister | writeMultipleCoils | writeMultipleRegisters => simp

/-- The words a consistent request gets: at least one, and no more than its byte count can tell. -/
theorem busConsistent.get_length {i : Instr} {r : RequestShape} {s : State} {ws : List Word} (hcon : busConsistent s)
    (hr : requestShape i = some r) (hbus : s.bus = .busy i .get)
    (hget : storeGet s.cfg s.store r.cls r.addr.toNat r.count = some ws) :
    0 < ws.length ∧ (r.fc = 1#8 ∨ r.fc = 2#8 → ws.length ≤ 2040) ∧ (r.fc = 3#8 ∨ r.fc = 4#8 → ws.length ≤ 127) := by
  obtain ⟨hpos, hlen, -⟩ := (storeGet_eq_some _ _ _ _ _ _).mp hget
  have hok : StageOk s i r .get := (busConsistent_iff_stageOk hr hbus).mp hcon
  rw [hlen]
  exact ⟨Nat.pos_of_ne_zero hpos, count_le_of_quantityOk hr (hok.quantity (by simp))⟩

theorem RequestStep.emitsAtMostOne {fits : Prop} {i : Instr} {r : RequestShape} {s t : State}
    (hr : requestShape i = some r) (hstep : RequestStep i r s t) (hcon : fits → busConsistent s) :
    EmitsAtMostOne fits s t := by
  cases hstep with
  | take | drop | wait | guardPass | validatePass | setFault | setThenGet => exact .inl rfl
  | error _ _ _ hcode => exact .inr ⟨_, rfl, .error _ _ _ (.inr hcode)⟩
  | setDone st e _ hfc => exact .inr ⟨_, rfl, .write _ _ _ _ (by obtain h | h := hfc <;> simp [h])⟩
  | getEcho w e _ hfc => exact .inr ⟨_, rfl, .write _ _ _ _ (by obtain h | h := hfc <;> simp [h])⟩
  | getBits ws hbus hfc hget =>
    refine .inr ⟨_, rfl, .read _ _ _ (by obtain h | h := hfc <;> simp [h]) fun hfits => ?_⟩
    obtain ⟨hpos, hbits, -⟩ := (hcon hfits).get_length hr hbus hget
    rw [bitData_length, ceilDiv8_le_255]
    exact ⟨by rw [ceilDiv8]; omega, hbits hfc⟩
  | getWords ws hbus hfc hget =>
    refine .inr ⟨_, rfl, .read _ _ _ (by obtain h | h := hfc <;> simp [h]) fun hfits => ?_⟩
    obtain ⟨hpos, -, hwords⟩ := (hcon hfits).get_length hr hbus hget
    have hle := hwords hfc
    rw [packWords_length]
    omega

theorem LocalStep.busOut_eq {s t : State} (h : LocalStep s t) : t.busOut = s.busOut := by
  cases h <;> rfl

theorem exec_emitsAtMostOne {fits : Prop} {i : Instr} {s t : State} (h : exec i s = .next t)
    (hcon : fits → busConsistent s) : EmitsAtMostOne fits s t := by
  cases hi : isRequest i with
  | true =>
    obtain ⟨r, hr⟩ := (isRequest_iff_shape i).mp hi
    exact (exec_request hr h).2.emitsAtMostOne hr hcon
  | false => exact .inl (exec_local hi h).2.busOut_eq

theorem MachineStep.emitsAtMostOne {s t : State} (h : MachineStep s t) : EmitsAtMostOne (Inv s) s t := by
  cases h with
  | pause | dropped => exact .inl rfl
  | inFlight i stage _ _ _ hexec => exact exec_emitsAtMostOne (s := s.turnTaken) hexec Inv.bus
  | frame f rest i _ _ _ _ _ hexec => exact exec_emitsAtMostOne (s := s.turnTaken.frameTaken) hexec Inv.bus
  | unsupported => exact .inr ⟨_, rfl, .error _ _ _ (.inl rfl)⟩
  | chunk _ _ _ handed => cases handed <;> exact .inl rfl
  | command c rest i _ _ _ _ hexec => exact exec_emitsAtMostOne (s := s.turnTaken.commandTaken) hexec Inv.bus

/-- Settles O27: only a request's step and the answer to an unsupported code emit, one frame each, and the quantity check,
which the invariant keeps, bounds the data of a read. -/
theorem everyEmittedFrameIsAWellFormedResponse : Obligations.EveryEmittedFrameIsAWellFormedResponse := by
  intro s t h
  obtain hsame | ⟨f, hout, hemitted⟩ := (step_next h).2.emitsAtMostOne
  · exact .inl hsame
  · obtain ⟨hcrc, herror, hanswer⟩ := hemitted.wellFormed
    exact .inr ⟨f, hout, hcrc, herror, hanswer⟩

end Sys2Proof.Machine
end

section
/-! PROOFS. CRC and codec (40_crc_codec.md): the residue of a checked list, the frame check, and the packing of bits, of
words and of binary32 encodings with their inverses. -/

namespace Sys2Proof.Machine

/-! ### The residue (R100, R102) -/

/-- Where the bits shifted out are zero, no round adds the polynomial. -/
theorem crcRounds_eq_shiftRight {n : Nat} {c : Word} (hlow : ∀ i < n, c.getLsbD i = false) : crcRounds n c = c >>> n := by
  induction n generalizing c with
  | zero => simp [crcRounds]
  | succ n ih =>
    have hround : crcRound c = c >>> 1 := by rw [crcRound, hlow 0 n.succ_pos, if_neg Bool.false_ne_true]
    have hnext : ∀ i < n, (c >>> 1).getLsbD i = false := fun i hi => by
      rw [BitVec.getLsbD_ushiftRight]
      exact hlow (1 + i) (by omega)
    rw [crcRounds, hround, ih hnext, ← BitVec.shiftRight_add, Nat.add_comm]

/-- Taking in its own low byte clears it, so the rounds only shift. -/
theorem crcByte_loByte (c : Word) : crcByte c (loByte c) = c >>> 8 := by
  have hlow : ∀ i < 8, (c ^^^ (loByte c).setWidth 16).getLsbD i = false := fun i hi => by
    simp [loByte, hi, Nat.lt_trans hi]
  rw [crcByte, crcRounds_eq_shiftRight hlow]
  ext i hi
  simp [loByte]

theorem loByte_shiftRight_eight (c : Word) : loByte (c >>> 8) = hiByte c := by
  ext i hi
  simp [loByte, hiByte]

/-- Settles O6: the low byte of the CRC shifts it right by eight, and the high byte is then its low byte. -/
theorem crcResidueIsZero : Obligations.CrcResidueIsZero := by
  intro body
  calc crc16 (appendCrc body)
      = crcByte (crcByte (crc16 body) (loByte (crc16 body))) (hiByte (crc16 body)) := by
        simp [crc16, appendCrc, le16]
    _ = crc16 body >>> 8 >>> 8 := by rw [crcByte_loByte, ← loByte_shiftRight_eight, crcByte_loByte]
    _ = 0#16 := by rw [← BitVec.shiftRight_add, BitVec.ushiftRight_eq_zero (Nat.le_refl 16)]

/-! ### The frame check (R103) -/

theorem crcMatches_append (body : List Byte) (c0 c1 : Byte) :
    crcMatches (body ++ [c0, c1]) = (crc16 body == joinBytes c1 c0) := by
  simp [crcMatches]

theorem exists_append_pair {f : List Byte} (hlen : 2 ≤ f.length) :
    ∃ (body : List Byte) (c0 c1 : Byte), f = body ++ [c0, c1] := by
  have hdrop : (f.drop (f.length - 2)).length = 2 := by rw [List.length_drop]; omega
  obtain ⟨c0, c1, hpair⟩ := List.length_eq_two.mp hdrop
  exact ⟨f.take (f.length - 2), c0, c1, by rw [← hpair, List.take_append_drop]⟩

/-- Settles O7: 8 bytes or more end in two, and on a list that ends in two the check is the comparison. -/
theorem frameCheckComparesTheTrailingCrc : Obligations.FrameCheckComparesTheTrailingCrc := by
  intro f
  rw [frameCheck, Bool.and_eq_true, decide_eq_true_iff]
  refine and_congr_right fun hlen => ⟨fun hcrc => ?_, ?_⟩
  · obtain ⟨body, c0, c1, rfl⟩ := exists_append_pair (Nat.le_trans (by decide) hlen)
    rw [crcMatches_append] at hcrc
    exact ⟨body, c0, c1, rfl, eq_of_beq hcrc⟩
  · rintro ⟨body, c0, c1, rfl, hcrc⟩
    rw [crcMatches_append]
    exact beq_iff_eq.mpr hcrc

/-! ### Packing bits (R106) -/

theorem testBit_natOfBits (bs : List Bool) (j : Nat) : (natOfBits bs).testBit j = bs.getD j false := by
  induction bs generalizing j with
  | nil => simp [natOfBits]
  | cons b bs ih =>
    have hbit : natOfBits (b :: bs) = Nat.bit b (natOfBits bs) := by rw [natOfBits, Nat.bit_val, Nat.add_comm]
    cases j with
    | zero => simp [hbit]
    | succ j => rw [hbit, Nat.testBit_bit_succ, ih, List.getD_cons_succ]

theorem packBits_getElem? {bs : List Bool} {i : Nat} (hi : i < ceilDiv8 bs.length) :
    (packBits bs)[i]? = some (BitVec.ofNat 8 (natOfBits ((bs.drop (8 * i)).take 8))) := by
  simp [packBits, hi]

theorem packBits_getLsbD {bs : List Bool} {i j : Nat} (hi : i < ceilDiv8 bs.length) (hj : j < 8) :
    ((packBits bs).getD i 0#8).getLsbD j = bs.getD (8 * i + j) false := by
  rw [List.getD_eq_getElem?_getD, packBits_getElem? hi, Option.getD_some, BitVec.getLsbD_ofNat, testBit_natOfBits]
  simp [hj]

/-- Settles O8: byte `i` is the number of the eight bits from `8 * i` on, or of those that are left. -/
theorem bitsPackLeastSignificantFirst : Obligations.BitsPackLeastSignificantFirst := by
  refine fun bs => ⟨packBits_length bs, fun i hi j hj => packBits_getLsbD ?_ hj⟩
  rwa [packBits_length] at hi

/-! ### Unpacking bits (R107) -/

theorem unpackBits_length (bytes : List Byte) (q : Nat) : (unpackBits bytes q).length = q := by
  simp [unpackBits]

theorem unpackBits_getElem? (bytes : List Byte) {q n : Nat} (hn : n < q) :
    (unpackBits bytes q)[n]? = some ((bytes.getD (n / 8) 0#8).getLsbD (n % 8)) := by
  simp [unpackBits, hn]

theorem unpackBits_congr {xs ys : List Byte} {q : Nat}
    (h : ∀ n < q, (xs.getD (n / 8) 0#8).getLsbD (n % 8) = (ys.getD (n / 8) 0#8).getLsbD (n % 8)) :
    unpackBits xs q = unpackBits ys q :=
  List.map_congr_left fun n hn => h n (List.mem_range.mp hn)

theorem unpackBits_packBits (bs : List Bool) : unpackBits (packBits bs) bs.length = bs := by
  refine List.ext_getElem? fun n => ?_
  obtain hn | hn := Nat.lt_or_ge n bs.length
  · have hbyte : n / 8 < ceilDiv8 bs.length := by rw [ceilDiv8]; omega
    rw [unpackBits_getElem? _ hn, packBits_getLsbD hbyte (Nat.mod_lt n (by decide)), Nat.div_add_mod]
    simp [hn]
  · rw [List.getElem?_eq_none (by rwa [unpackBits_length]), List.getElem?_eq_none hn]

theorem unpackBits_getElem?_eq_map {bytes : List Byte} {q n : Nat} (hq : q ≤ 8 * bytes.length) (hn : n < q) :
    (unpackBits bytes q)[n]? = bytes[n / 8]?.map (fun b => b.getLsbD (n % 8)) := by
  have hbyte : n / 8 < bytes.length := by omega
  rw [unpackBits_getElem? _ hn, List.getD_eq_getElem _ _ hbyte, List.getElem?_eq_getElem hbyte, Option.map_some]

theorem unpackBits_append {bytes : List Byte} {q : Nat} (hq : q ≤ 8 * bytes.length) (extra : List Byte) :
    unpackBits (bytes ++ extra) q = unpackBits bytes q :=
  unpackBits_congr fun n hn => by rw [List.getD_append _ _ _ _ (by omega)]

theorem unpackBits_partial_byte {bytes : List Byte} {b c : Byte} {q : Nat} (hq : q ≤ 8 * bytes.length + 8)
    (hbits : ∀ j < q - 8 * bytes.length, b.getLsbD j = c.getLsbD j) :
    unpackBits (bytes ++ [b]) q = unpackBits (bytes ++ [c]) q := by
  refine unpackBits_congr fun n hn => ?_
  obtain hbyte | hbyte := Nat.lt_or_ge (n / 8) bytes.length
  · rw [List.getD_append _ _ _ _ hbyte, List.getD_append _ _ _ _ hbyte]
  · have hlast : n / 8 - bytes.length = 0 := by omega
    rw [List.getD_append_right _ _ _ _ hbyte, List.getD_append_right _ _ _ _ hbyte, hlast]
    exact hbits (n % 8) (by omega)

/-- Settles O9: element `n` of the bits unpacked depends on bit `n % 8` of byte `n / 8` alone. -/
theorem unpackingInvertsBitPacking : Obligations.UnpackingInvertsBitPacking :=
  ⟨unpackBits_packBits,
    fun bytes q hq => ⟨unpackBits_length bytes q, fun _ hn => unpackBits_getElem?_eq_map hq hn⟩,
    fun _ extra _ hq => unpackBits_append hq extra,
    fun _ _ _ _ _ hq hbits => unpackBits_partial_byte hq hbits⟩

/-! ### Packing words (R105) -/

theorem packWords_cons (w : Word) (ws : List Word) : packWords (w :: ws) = hiByte w :: loByte w :: packWords ws := rfl

theorem unpackWords_packWords (ws : List Word) : unpackWords (packWords ws) = ws := by
  induction ws with
  | nil => rfl
  | cons w ws ih => rw [packWords_cons, unpackWords, joinBytes_hiByte_loByte, ih]

theorem packWords_getElem? (ws : List Word) (i : Nat) :
    (packWords ws)[2 * i]? = ws[i]?.map hiByte ∧ (packWords ws)[2 * i + 1]? = ws[i]?.map loByte := by
  induction ws generalizing i with
  | nil => simp [packWords]
  | cons w ws ih =>
    cases i with
    | zero => exact ⟨rfl, rfl⟩
    | succ i => exact ih i

theorem packWords_unpackWords : ∀ {bytes : List Byte}, bytes.length % 2 = 0 → packWords (unpackWords bytes) = bytes
  | [], _ => rfl
  | [_], hodd => nomatch hodd
  | h :: l :: rest, heven => by
    have hrest : rest.length % 2 = 0 := (Nat.add_mod_right rest.length 2).symm.trans heven
    rw [unpackWords, packWords_cons, hiByte_joinBytes, loByte_joinBytes, packWords_unpackWords hrest]

/-- Settles O10: both directions go by the words, two bytes at a time. -/
theorem wordsPackBigEndian : Obligations.WordsPackBigEndian := by
  refine ⟨fun ws => ⟨packWords_length ws, unpackWords_packWords ws, fun i w hw => ?_⟩, fun _ => packWords_unpackWords⟩
  obtain ⟨hhigh, hlow⟩ := packWords_getElem? ws i
  rw [hw] at hhigh hlow
  exact ⟨hhigh, hlow⟩

/-! ### The binary32 codec (R108, R109) -/

theorem floatToWords_wordsToFloat (w0 w1 : Word) : floatToWords (wordsToFloat w0 w1) = [w0, w1] := by
  rw [floatToWords, wordsToFloat, BitVec.extractLsb'_append_eq_left, BitVec.extractLsb'_append_eq_right]

theorem wordsToFloat_halves (u : Bits32) : wordsToFloat (u.extractLsb' 16 16) (u.extractLsb' 0 16) = u :=
  BitVec.extractLsb'_append_extractLsb'

/-- Settles O11: each direction undoes the other. -/
theorem floatCodecIsExact : Obligations.FloatCodecIsExact := by
  refine ⟨fun _ => rfl, fun u w0 w1 => ⟨fun h => ?_, ?_⟩⟩
  · obtain ⟨rfl, rfl⟩ : u.extractLsb' 16 16 = w0 ∧ u.extractLsb' 0 16 = w1 := by simpa [floatToWords] using h
    exact wordsToFloat_halves u
  · rintro rfl
    exact floatToWords_wordsToFloat w0 w1

end Sys2Proof.Machine
end

section
/-! PROOFS. Frame requests (41_frame_requests.md section 1): what a turn takes, and which frames are dropped or
answered at once. -/

namespace Sys2Proof.Machine

/-! ### What a turn takes (R135, R150, R201) -/

section
variable {s : State} (hf : s.fault = none)
include hf

theorem step_inFlight {i : Instr} {stage : Stage} (ha : nextAgent s = .busAgent) (hb : s.bus = .busy i stage) :
    step s = exec i { s with sched := s.sched.tail } := by
  simp only [step_of_busAgent ha, running_of_none hf, busTurn, hb, State.turnTaken]

theorem step_takeFrame {f : List Byte} {rest : List (List Byte)} (ha : nextAgent s = .busAgent) (hb : s.bus = .idle)
    (hin : s.busIn = f :: rest) : step s = takeFrame f { s with sched := s.sched.tail, busIn := rest } := by
  simp only [step_of_busAgent ha, running_of_none hf, busTurn, hb, hin, State.frameTaken, State.turnTaken,
    List.tail_cons]

theorem step_receiveChunk {chunk : List Byte} {rest : List (List Byte)} (ha : nextAgent s = .busAgent)
    (hb : s.bus = .idle) (hin : s.busIn = []) (hline : s.lineIn = chunk :: rest) :
    step s = receiveChunk chunk { s with sched := s.sched.tail, lineIn := rest } := by
  simp only [step_of_busAgent ha, running_of_none hf, busTurn, hb, hin, hline, State.chunkTaken, State.turnTaken,
    List.tail_cons]

theorem step_busAgent_pause (ha : nextAgent s = .busAgent) (hb : s.bus = .idle) (hin : s.busIn = [])
    (hline : s.lineIn = []) : step s = .next { s with sched := s.sched.tail } := by
  simp only [step_of_busAgent ha, running_of_none hf, busTurn, hb, hin, hline, State.turnTaken]

theorem step_takeCommand {c : Command} {rest : List Command} (ha : nextAgent s = .localAgent)
    (hin : s.localIn = c :: rest) : step s = takeCommand c { s with sched := s.sched.tail, localIn := rest } := by
  simp only [step_of_localAgent ha, running_of_none hf, localTurn, hin, State.commandTaken, State.turnTaken,
    List.tail_cons]

theorem step_localAgent_pause (ha : nextAgent s = .localAgent) (hin : s.localIn = []) :
    step s = .next { s with sched := s.sched.tail } := by
  simp only [step_of_localAgent ha, running_of_none hf, localTurn, hin, State.turnTaken]

end

theorem takeFrame_of_decode {f : List Byte} {i : Instr} (h : decodeFrame f = .ok i) (s : State) :
    takeFrame f s = exec i s := by rw [takeFrame, h]

theorem takeCommand_of_decode {c : Command} {i : Instr} (h : decodeCommand c = .ok i) (s : State) :
    takeCommand c s = exec i s := by rw [takeCommand, h]

/-- Settles O20: which agent moves and what waits for it select the branch of its turn. -/
theorem stepRunsTheDecodedInstruction : Obligations.StepRunsTheDecodedInstruction := by
  intro s i hf
  refine ⟨fun _ ha hb => step_inFlight hf ha hb, fun f rest ha hb hin hdec => ?_, fun c rest ha hin hdec => ?_,
    fun _ _ ha hb hin hline => step_receiveChunk hf ha hb hin hline,
    fun ha hb hin hline => step_busAgent_pause hf ha hb hin hline, fun ha hin => step_localAgent_pause hf ha hin⟩
  · rw [step_takeFrame hf ha hb hin, takeFrame_of_decode hdec]
  · rw [step_takeCommand hf ha hin, takeCommand_of_decode hdec]

/-! ### The acceptance checks (R120) -/

theorem expectedLength_eq (f : List Byte) :
    expectedLength f = if f[1]? = some 15#8 ∨ f[1]? = some 16#8 then 9 + (f.getD 6 0#8).toNat else 8 := by
  rw [expectedLength]
  refine if_congr ?_ rfl rfl
  rw [isMultiCode_iff, List.getD_eq_getElem?_getD]
  cases f[1]? <;> simp

theorem accepts_iff (cfg : Config) (f : List Byte) : accepts cfg f = true ↔
    8 ≤ f.length ∧ f[0]? = some cfg.devAddr ∧
      f.length = (if f[1]? = some 15#8 ∨ f[1]? = some 16#8 then 9 + (f.getD 6 0#8).toNat else 8) ∧
      ∃ (body : List Byte) (c0 c1 : Byte), f = body ++ [c0, c1] ∧ crc16 body = c1 ++ c0 := by
  simp only [accepts, Bool.and_eq_true, decide_eq_true_eq, beq_iff_eq, List.head?_eq_getElem?, expectedLength_eq,
    frameCheckComparesTheTrailingCrc f]
  tauto

/-! ### The frames that are dropped, and those of another function code -/

theorem dropRequest_of_idle {s : State} (hb : s.bus = .idle) : dropRequest s = .next s := by
  rw [dropRequest, State.withBus, ← hb]

theorem State.emit_of_idle {s : State} (hb : s.bus = .idle) (f : List Byte) :
    s.emit f = { s with busOut := s.busOut ++ [f] } := by
  rw [State.emit, ← hb]

theorem onBus_of_idle {i : Instr} {s : State} {perform : Stage → Result} (hf : s.fault = none) (hb : s.bus = .idle) :
    onBus i s perform = if accepts s.cfg (frameBytes i) then enterStage i .guard s else dropRequest s := by
  rw [onBus, running_of_none hf, hb]

/-- From IDLE every request is taken or dropped, whatever it asks for (R120). -/
theorem exec_request_of_idle {i : Instr} {s : State} (hi : isRequest i = true) (hf : s.fault = none)
    (hb : s.bus = .idle) :
    exec i s = if accepts s.cfg (frameBytes i) then enterStage i .guard s else dropRequest s := by
  cases i with
  | readCoils | readDiscreteInputs | readHoldingRegisters | readInputRegisters | writeSingleCoil |
    writeSingleRegister | writeMultipleCoils | writeMultipleRegisters => exact onBus_of_idle hf hb
  | _ => cases hi

theorem frameBytes_of_decodeFrame {f : List Byte} {i : Instr} (h : decodeFrame f = .ok i) : frameBytes i = f := by
  rw [frameBytes, (encode_of_decodeFrame h).2]

theorem takeFrame_of_not_accepts {f : List Byte} {s : State} (hf : s.fault = none) (hb : s.bus = .idle)
    (h : accepts s.cfg f = false) : takeFrame f s = .next s := by
  cases hdec : decodeFrame f with
  | ok i =>
    rw [takeFrame_of_decode hdec, exec_request_of_idle (decodeFrame_request hdec) hf hb,
      frameBytes_of_decodeFrame hdec, h, if_neg Bool.false_ne_true, dropRequest_of_idle hb]
  | error why =>
    rw [takeFrame, hdec]
    simp only [processUnsupported, running_of_none hf, h, dropRequest_of_idle hb, if_neg Bool.false_ne_true]

/-- Settles O23: such a frame fails the acceptance checks, and is then dropped whether or not it encodes a request. -/
theorem unacceptedFramesAreDropped : Obligations.UnacceptedFramesAreDropped := by
  intro s f rest hf ha hb hin hbad
  have hrejected : accepts s.cfg f = false := by
    rw [Bool.eq_false_iff, Ne, accepts_iff]
    rintro ⟨hshort, hdev, hlen, hcrc⟩
    obtain h | h | h | h := hbad
    · omega
    · exact h hdev
    · exact h hlen
    · exact h hcrc
  rw [step_takeFrame hf ha hb hin]
  exact takeFrame_of_not_accepts hf hb hrejected

theorem takeFrame_of_unsupported {f : List Byte} {s : State} {why : Reject} (hf : s.fault = none) (hb : s.bus = .idle)
    (hdec : decodeFrame f = .error why) (h : accepts s.cfg f = true) :
    takeFrame f s = .next { s with
      busOut := s.busOut ++ [errorFrame (f.getD 0 0#8) (f.getD 1 0#8) .illegalFunction] } := by
  rw [takeFrame, hdec]
  simp only [processUnsupported, running_of_none hf, if_pos h, respond, State.emit_of_idle hb]

/-- Byte 1 outside the function-code map of R70. -/
theorem unsupported_code {fc : Byte} (h : fc.toNat ∉ [1, 2, 3, 4, 5, 6, 15, 16]) :
    isMultiCode fc = false ∧ ∀ dev addr q crc, fixedRequest fc dev addr q crc = none := by
  constructor
  · rw [Bool.eq_false_iff, Ne, isMultiCode_iff]
    rintro (rfl | rfl) <;> exact h (by decide)
  · intro dev addr q crc
    unfold fixedRequest
    split
    case h_7 => rfl
    all_goals
      rename_i hfc
      exact absurd (by rw [hfc]; decide) h

theorem frameCheck_appendCrc {body : List Byte} (h : 6 ≤ body.length) : frameCheck (appendCrc body) = true := by
  rw [frameCheck, crcMatches_appendCrc]
  simp [appendCrc, le16, h]

/-- Settles O24: the frame has the length and the CRC the acceptance checks ask for, and no row of the map. -/
theorem unsupportedCodesGetIllegalFunction : Obligations.UnsupportedCodesGetIllegalFunction := by
  intro s fc a1 a0 q1 q0 rest hf ha hb hin hfc
  obtain ⟨hmulti, hrow⟩ := unsupported_code hfc
  have hdec : decodeFrame (appendCrc [s.cfg.devAddr, fc, a1, a0, q1, q0]) = .error (.unsupportedFunction fc) := by
    simp [decodeFrame, appendCrc, le16, hmulti, hrow]
  have haccepts : accepts s.cfg (appendCrc [s.cfg.devAddr, fc, a1, a0, q1, q0]) = true := by
    rw [accepts, frameCheck_appendCrc (by simp)]
    simp [appendCrc, le16, expectedLength, hmulti]
  rw [step_takeFrame hf ha hb hin]
  exact takeFrame_of_unsupported hf hb hdec haccepts

end Sys2Proof.Machine
end

section
/-! PROOFS. Frame requests (41_frame_requests.md sections 3 and 4): which stage a request in flight performs, the checks
of each stage, and what one step of a request leaves unchanged. -/

namespace Sys2Proof.Machine

/-! ### The stage a request in flight performs (R135) -/

theorem onBus_inFlight {i : Instr} {s : State} {stage : Stage} {perform : Stage → Result} (hf : s.fault = none)
    (hb : s.bus = .busy i stage) : onBus i s perform = perform stage := by
  rw [onBus, running_of_none hf, hb]
  exact if_pos rfl

/-- The stage a validated request goes on to (R124 to R131): a write sets first. -/
def RequestShape.afterValidate (r : RequestShape) : Stage := if Stage.set ∈ r.stages then .set else .get

/-- The step changes nothing but the bus port. -/
def BusPortOnly (s t : State) : Prop := t = { s with bus := t.bus, busIn := t.busIn, busOut := t.busOut }

theorem busPortOnly_withBus (s : State) (b : BusState) : BusPortOnly s (s.withBus b) := rfl

theorem busPortOnly_emit (s : State) (f : List Byte) : BusPortOnly s (s.emit f) := rfl

theorem busPortOnly_arrive (s : State) (f : List Byte) : BusPortOnly s (s.arrive f) := rfl

theorem BusPortOnly.store_eq {s t : State} (h : BusPortOnly s t) : t.store = s.store :=
  (congrArg State.store h).trans rfl

theorem BusPortOnly.fault_eq {s t : State} (h : BusPortOnly s t) : t.fault = s.fault :=
  (congrArg State.fault h).trans rfl

section
variable {i : Instr} {r : RequestShape} {s : State} (hr : requestShape i = some r) (hf : s.fault = none)
include hr hf

theorem exec_guard (hb : s.bus = .busy i .guard) :
    exec i s = guardStage i r.cls r.dev r.fc r.quantityOk s := by
  cases i <;> cases hr
  case readCoils | readDiscreteInputs =>
    simp only [← ceilDiv8_le_255]
    exact onBus_inFlight hf hb
  case readHoldingRegisters | readInputRegisters =>
    simp only [← two_mul_le_255]
    exact onBus_inFlight hf hb
  case writeSingleCoil | writeSingleRegister | writeMultipleCoils | writeMultipleRegisters =>
    exact onBus_inFlight hf hb

theorem exec_validate (hb : s.bus = .busy i .validate) :
    exec i s = validateStage i r.cls r.dev r.fc r.addr r.count r.afterValidate s := by
  cases i <;> cases hr <;> exact onBus_inFlight hf hb

theorem exec_set (hb : s.bus = .busy i .set) (hset : .set ∈ r.stages) :
    ∃ next, exec i s = setStage r.cls r.addr r.writes s next ∧ ∀ u t, next u = .next t → BusPortOnly u t := by
  cases i <;> cases hr
  case readCoils | readDiscreteInputs | readHoldingRegisters | readInputRegisters => simp at hset
  case writeSingleCoil =>
    simp only [← fromBool_truth]
    exact ⟨_, onBus_inFlight hf hb, fun u t h => enterStage_eq_next.mp h ▸ busPortOnly_withBus u _⟩
  case writeSingleRegister =>
    exact ⟨_, onBus_inFlight hf hb, fun u t h => enterStage_eq_next.mp h ▸ busPortOnly_withBus u _⟩
  case writeMultipleCoils | writeMultipleRegisters =>
    exact ⟨_, onBus_inFlight hf hb, fun u t h => respond_eq_next.mp h ▸ busPortOnly_emit u _⟩

theorem exec_get (hb : s.bus = .busy i .get) (hget : .get ∈ r.stages) :
    ∃ answer, exec i s = getStage r.cls r.dev r.fc r.addr r.count s answer := by
  cases i <;> cases hr
  case writeMultipleCoils | writeMultipleRegisters => simp at hget
  all_goals exact ⟨_, onBus_inFlight hf hb⟩

theorem exec_set_of_not_mem (hb : s.bus = .busy i .set) (hset : .set ∉ r.stages) :
    exec i s = .refused .stageOutsideRequest := by
  cases i <;> cases hr
  case readCoils | readDiscreteInputs | readHoldingRegisters | readInputRegisters => exact onBus_inFlight hf hb
  all_goals simp at hset

end

/-! ### The checks of each stage (R122, R136) -/

theorem rangePresent_iff_holds (s : State) (k a n : Nat) :
    rangePresent s k a n ↔ ClassMap.holds (s.store.map k) (keyOf s.cfg a) n = true := (ClassMap.holds_iff _ _ _).symm

theorem storeValidate_iff_rangePresent (s : State) (k a n : Nat) :
    storeValidate s.cfg s.store k a n = true ↔ n ≠ 0 ∧ rangePresent s k a n := storeValidate_iff _ _ _ _ _

theorem storeIsEmpty_iff (s : State) (k : Nat) :
    storeIsEmpty s.store k = true ↔ ∀ key, readCell s k key = none := by
  simp only [storeIsEmpty, List.isEmpty_iff, readCell]
  refine ⟨fun h key => by rw [h, ClassMap.find], fun h => ?_⟩
  cases hm : s.store.map k with
  | nil => rfl
  | cons p rest =>
    obtain ⟨key, w⟩ := p
    have hkey := h key
    rw [hm, ClassMap.find, if_pos rfl] at hkey
    cases hkey

section
variable {i : Instr} {r : RequestShape} {s : State} (hr : requestShape i = some r) (hf : s.fault = none)
include hr hf

theorem exec_guard_empty (hb : s.bus = .busy i .guard) (hempty : ∀ key, readCell s r.cls key = none) :
    exec i s = respond (errorFrame r.dev r.fc .illegalDataAddress) s := by
  rw [exec_guard hr hf hb, guardStage, if_pos ((storeIsEmpty_iff s _).mpr hempty)]

theorem exec_guard_of_cell (hb : s.bus = .busy i .guard) {key : Nat} (hcell : readCell s r.cls key ≠ none) :
    exec i s = if r.quantityOk then enterStage i .validate s
      else respond (errorFrame r.dev r.fc .illegalDataValue) s := by
  rw [exec_guard hr hf hb, guardStage, if_neg]
  exact fun h => hcell ((storeIsEmpty_iff s _).mp h key)

theorem exec_validate_pass (hb : s.bus = .busy i .validate)
    (hvalid : storeValidate s.cfg s.store r.cls r.addr.toNat r.count = true) :
    exec i s = enterStage i r.afterValidate s := by
  rw [exec_validate hr hf hb, validateStage, if_pos hvalid]

theorem exec_validate_fail (hb : s.bus = .busy i .validate)
    (hvalid : storeValidate s.cfg s.store r.cls r.addr.toNat r.count = false) :
    exec i s = respond (errorFrame r.dev r.fc .illegalDataAddress) s := by
  rw [exec_validate hr hf hb, validateStage, hvalid, if_neg Bool.false_ne_true]

theorem exec_get_fail (hb : s.bus = .busy i .get) (hget : .get ∈ r.stages)
    (hvalid : storeValidate s.cfg s.store r.cls r.addr.toNat r.count = false) :
    exec i s = respond (errorFrame r.dev r.fc .illegalDataAddress) s := by
  obtain ⟨answer, hexec⟩ := exec_get hr hf hb hget
  rw [hexec, getStage, (storeGet_eq_none _ _ _ _ _).mpr hvalid]

end

/-- Settles O25: each stage makes its check first, and answers with the error frame of the one that fails. -/
theorem requestChecksFailInOrder : Obligations.RequestChecksFailInOrder := by
  intro s i r hr hf answer
  have hinvalid : ¬ (r.count ≠ 0 ∧ rangePresent s r.cls r.addr.toNat r.count) →
      storeValidate s.cfg s.store r.cls r.addr.toNat r.count = false := fun h => by
    rwa [← storeValidate_iff_rangePresent, Bool.not_eq_true] at h
  refine ⟨fun hb hempty => exec_guard_empty hr hf hb hempty, fun hb ⟨key, hcell⟩ hq => ?_,
    fun hb ⟨key, hcell⟩ hq => ?_, fun hb habsent => exec_validate_fail hr hf hb (hinvalid habsent),
    fun hb hget habsent => exec_get_fail hr hf hb hget (hinvalid habsent)⟩
  · rw [exec_guard_of_cell hr hf hb hcell, hq, if_neg Bool.false_ne_true]
    rfl
  · rw [exec_guard_of_cell hr hf hb hcell, hq, if_pos rfl]
    rfl

/-! ### What one step of a request leaves unchanged -/

theorem RequestStep.busPortOnly {i : Instr} {r : RequestShape} {s t : State} (h : RequestStep i r s t)
    (hset : s.bus ≠ .busy i .set) : BusPortOnly s t := by
  cases h with
  | take | drop | guardPass | validatePass => exact busPortOnly_withBus s _
  | wait => exact busPortOnly_arrive s _
  | error | getBits | getWords | getEcho => exact busPortOnly_emit s _
  | setFault hb | setThenGet _ hb | setDone _ _ hb => exact absurd hb hset

theorem read_shape {i : Instr} {dev : Byte} {addr q crc : Word}
    (hi : i = .readCoils dev addr q crc ∨ i = .readDiscreteInputs dev addr q crc ∨
      i = .readHoldingRegisters dev addr q crc ∨ i = .readInputRegisters dev addr q crc) :
    ∃ r, requestShape i = some r ∧ r.stages = [.guard, .validate, .get] := by
  obtain rfl | rfl | rfl | rfl := hi <;> exact ⟨_, rfl, rfl⟩

/-- Settles O38: a read has no set, the only stage that reaches beyond the bus port. -/
theorem readRequestsChangeOnlyTheBusPort : Obligations.ReadRequestsChangeOnlyTheBusPort := by
  intro s t i dev addr q crc hi h
  obtain ⟨r, hr, hstages⟩ := read_shape hi
  obtain ⟨hf, hstep⟩ := exec_request hr h
  refine hstep.busPortOnly fun hb => ?_
  cases (exec_set_of_not_mem hr hf hb (by simp [hstages])).symm.trans h

theorem sameCellsOutside_of_storeSet {s t : State} {k a : Nat} {vals : List Word}
    (hset : storeSet s.cfg s.store k a vals = some t.store) : sameCellsOutside s t k a vals.length := by
  intro j key hout
  rw [readCell, storeSet_find _ _ _ _ _ _ hset, if_neg]
  · rfl
  · rintro ⟨hj, -, hlow, hhigh⟩
    exact hout ⟨hj, hlow, hhigh⟩

theorem sameCellsOutside_of_store_eq {s t : State} (h : t.store = s.store) (k a n : Nat) :
    sameCellsOutside s t k a n := fun j key _ => readCell_of_store_eq h j key

theorem storeSet_eq_none_iff (s : State) (k a : Nat) (vals : List Word) :
    storeSet s.cfg s.store k a vals = none ↔ growable s.cfg k = false ∧ ¬ rangePresent s k a vals.length := by
  rw [storeSet_eq_none, rangePresent_iff_holds, Bool.not_eq_true, and_comm]

/-- Everything the set of a write request can do (R45, R128 to R131). -/
theorem exec_set_next {i : Instr} {r : RequestShape} {s t : State} (hr : requestShape i = some r)
    (hset : .set ∈ r.stages) (hb : s.bus = .busy i .set) (h : exec i s = .next t) :
    (storeSet s.cfg s.store r.cls r.addr.toNat r.writes = none ∧ t = s.withFault .paramError) ∨
    (storeSet s.cfg s.store r.cls r.addr.toNat r.writes = some t.store ∧ BusPortOnly (s.withStore t.store) t) := by
  obtain ⟨next, hexec, hnext⟩ := exec_set hr (exec_request hr h).1 hb hset
  rw [hexec, setStage] at h
  split at h
  · exact .inl ⟨‹_›, raiseFault_eq_next.mp h⟩
  · have hport := hnext _ _ h
    obtain rfl := hport.store_eq
    exact .inr ⟨‹_›, hport⟩

/-- Settles O39: the set is refused with PARAM_ERROR or writes its range, and every other step is at the bus port. -/
theorem writeRequestsChangeOnlyTheirRange : Obligations.WriteRequestsChangeOnlyTheirRange := by
  intro s t i r hr hset h setFails
  have hfails : setFails ↔ s.bus = .busy i .set ∧ storeSet s.cfg s.store r.cls r.addr.toNat r.writes = none := by
    rw [storeSet_eq_none_iff]
  by_cases hb : s.bus = .busy i .set
  · obtain ⟨hnone, rfl⟩ | ⟨hsome, hport⟩ := exec_set_next hr hset hb h
    · exact ⟨rfl, sameCellsOutside_of_store_eq rfl _ _ _, id, fun _ => rfl, fun _ => rfl,
        fun hnot => absurd (hfails.mpr ⟨hb, hnone⟩) hnot⟩
    · have hfault : t.fault = s.fault := hport.fault_eq
      refine ⟨?_, sameCellsOutside_of_storeSet hsome, fun hold => ?_, fun hne => absurd hb hne, fun hsf => ?_,
        fun _ => hfault⟩
      · rw [hfault]
        exact hport
      · rw [storeSet_changed _ _ _ _ _ _ hsome, hold, Bool.true_or]
      · cases hsome.symm.trans (hfails.mp hsf).2
  · have hport := (exec_request hr h).2.busPortOnly hb
    have hstore := hport.store_eq
    have hfault := hport.fault_eq
    refine ⟨?_, sameCellsOutside_of_store_eq hstore _ _ _, fun hold => hstore ▸ hold, fun _ => hstore,
      fun hsf => absurd (hfails.mp hsf).1 hb, fun _ => hfault⟩
    rw [hstore, hfault]
    exact hport

/-! ### A reset before the get (R134) -/

/-- A request comes to its get from its validation or its set, and the step leaves the responses as they were. -/
theorem RequestStep.enters_get {i : Instr} {r : RequestShape} {s t : State} (h : RequestStep i r s t)
    (hb : t.bus = .busy i .get) : .get ∈ r.stages ∧ t.busOut = s.busOut := by
  cases h with
  | validatePass stage _ _ hmem => cases hb; exact ⟨hmem, rfl⟩
  | setThenGet _ _ hget => exact ⟨hget, rfl⟩
  | take | guardPass | drop | error | setDone | getBits | getWords | getEcho => cases hb
  | wait req stage hbusy hne => cases hbusy.symm.trans hb; exact absurd rfl hne
  | setFault hbusy => cases hbusy.symm.trans hb

theorem storeValidate_eq_false_of_absent {cfg : Config} {st : Store} {k a n key : Nat} (hlow : keyOf cfg a ≤ key)
    (hhigh : key < keyOf cfg a + n) (habsent : ¬ (ClassMap.find (st.map k) key).isSome = true) :
    storeValidate cfg st k a n = false := by
  rw [Bool.eq_false_iff, Ne, storeValidate_iff]
  rintro ⟨-, hpresent⟩
  have hkey := hpresent (key - keyOf cfg a) (by omega)
  rw [Nat.add_sub_cancel' hlow] at hkey
  exact habsent hkey

/-- Settles O56: after the reset the class holds its snapshot, which lacks the key, so the get finds no whole range. -/
theorem resetBetweenValidateAndGetAnswersAddressError :
    Obligations.ResetBetweenValidateAndGetAnswersAddressError := by
  intro s s1 s2 i r key hr hf h1 hb1 h2 hlow hhigh hkey
  obtain ⟨hget, hout⟩ := (exec_request hr h1).2.enters_get hb1
  have hcfg := exec_cfg h1
  obtain ⟨hf1, hreset⟩ := running_eq_next h2
  obtain rfl := deliver_eq_next.mp hreset
  rw [← hcfg] at hlow hhigh hkey
  have hinvalid := storeValidate_eq_false_of_absent (st := storeReset s1.cfg s1.store) hlow hhigh hkey
  rw [← hout]
  exact exec_get_fail (s := (s1.withStore (storeReset s1.cfg s1.store)).result .done) hr hf1 hb1 hget hinvalid

end Sys2Proof.Machine
end

section
/-! PROOFS. Frame requests (41_frame_requests.md section 2): the run of each request from its acceptance to its
response, and what the writes store. -/

namespace Sys2Proof.Machine

/-! ### From acceptance to the validated range -/

/-- The first three steps of a request that passes every check: it is taken, passes the guard, and is validated. -/
def RunsToValidated (i : Instr) (s : State) (following : Stage) : Prop :=
  exec i s = .next (s.withBus (.busy i .guard)) ∧
  exec i (s.withBus (.busy i .guard)) = .next (s.withBus (.busy i .validate)) ∧
  exec i (s.withBus (.busy i .validate)) = .next (s.withBus (.busy i following))

theorem runsToValidated {i : Instr} {r : RequestShape} {s : State} (hr : requestShape i = some r) (ht : takes i s)
    (hq : r.quantityOk = true) (hn : r.count ≠ 0) (hp : rangePresent s r.cls r.addr.toNat r.count) :
    RunsToValidated i s r.afterValidate := by
  obtain ⟨hf, hidle, haccepts⟩ := ht
  refine ⟨?_, ?_, ?_⟩
  · rw [exec_request_of_idle ((isRequest_iff_shape i).mpr ⟨r, hr⟩) hf hidle, if_pos haccepts, enterStage]
  · have hcell : readCell s r.cls (r.addr.toNat + s.cfg.addrOffset) ≠ none :=
      Option.isSome_iff_ne_none.mp (hp 0 (Nat.pos_of_ne_zero hn))
    rw [exec_guard_of_cell (s := s.withBus (.busy i .guard)) hr hf rfl hcell, hq]
    rfl
  · exact exec_validate_pass (s := s.withBus (.busy i .validate)) hr hf rfl
      ((storeValidate_iff_rangePresent s _ _ _).mpr ⟨hn, hp⟩)

/-! ### The get of a present range (R44) -/

/-- The words of a present range. -/
theorem exists_rangeHolds {s : State} {k a n : Nat} (h : rangePresent s k a n) :
    ∃ ws : List Word, ws.length = n ∧ rangeHolds s k a ws := by
  obtain ⟨ws, hws⟩ := ClassMap.readCells_isSome _ _ _ ((rangePresent_iff_holds s k a n).mp h)
  obtain ⟨hlen, hcells⟩ := (ClassMap.readCells_eq_some _ _ _ _).mp hws
  exact ⟨ws, hlen, fun j hj => hcells j (hlen ▸ hj)⟩

theorem rangePresent_of_rangeHolds {s : State} {k a : Nat} {ws : List Word} (h : rangeHolds s k a ws) :
    rangePresent s k a ws.length := fun j hj => by
  rw [h j hj, List.getElem?_eq_getElem hj, Option.isSome_some]

theorem getStage_of_rangeHolds {s : State} {k : Nat} {addr : Word} {ws : List Word} (dev fc : Byte)
    (answer : List Word → List Byte) (hne : ws ≠ []) (h : rangeHolds s k addr.toNat ws) :
    getStage k dev fc addr ws.length s answer = .next (s.emit (answer ws)) := by
  have hget : storeGet s.cfg s.store k addr.toNat ws.length = some ws :=
    (storeGet_eq_some _ _ _ _ _ _).mpr ⟨mt List.length_eq_zero_iff.mp hne, rfl, h⟩
  rw [getStage, hget]
  rfl

/-! ### The reads (R124 to R127) -/

/-- A read of present cells, whatever its answer is made of, runs to the answer to the words its range holds. -/
theorem read_run {i : Instr} {k : Nat} {dev fc : Byte} {addr : Word} {n : Nat} {ok ok' : Bool}
    {answer : List Word → List Byte} {s : State} {ws : List Word}
    (hexec : ∀ u, exec i u = readRequest i k dev fc addr n ok answer u)
    (hr : requestShape i = some ⟨dev, fc, k, addr, n, ok', [.guard, .validate, .get], []⟩) (ht : takes i s)
    (hok : ok' = true) (hlen : ws.length = n) (hn : n ≠ 0) (hholds : rangeHolds s k addr.toNat ws) :
    RunsToValidated i s .get ∧
      exec i (s.withBus (.busy i .get)) = .next { s with busOut := s.busOut ++ [answer ws] } := by
  subst hlen
  have hne : ws ≠ [] := mt List.length_eq_zero_iff.mpr hn
  refine ⟨runsToValidated hr ht hok hn (rangePresent_of_rangeHolds hholds), ?_⟩
  rw [hexec, readRequest, onBus_inFlight (s := s.withBus (.busy i .get)) ht.1 rfl, ← State.emit_of_idle ht.2.1]
  exact getStage_of_rangeHolds (s := s.withBus (.busy i .get)) dev fc answer hne hholds

theorem map_truth_eq {s : State} {k a : Nat} {ws : List Word} {bits : List Bool} (h : rangeHolds s k a ws)
    (hlen : bits.length = ws.length)
    (hbits : ∀ j < ws.length, ∃ w, readCell s k (a + s.cfg.addrOffset + j) = some w ∧ bits[j]? = some (w != 0#16)) :
    ws.map truth = bits := by
  refine List.ext_getElem? fun j => ?_
  obtain hj | hj := Nat.lt_or_ge j ws.length
  · obtain ⟨w, hw, hbit⟩ := hbits j hj
    rw [List.getElem?_map, ← h j hj, hw, hbit]
    rfl
  · rw [List.getElem?_eq_none (by simpa using hj), List.getElem?_eq_none (hlen ▸ hj)]

/-- Settles O32: the get finds the words of the range, and the response packs their truth. -/
theorem bitReadsAnswerTheStoredBits : Obligations.BitReadsAnswerTheStoredBits := by
  intro s i dev fc k addr q crc bits hi ht hpos hmax hlen hcells
  have hpresent : rangePresent s k addr.toNat q.toNat := fun j hj => by
    obtain ⟨w, hw, -⟩ := hcells j hj
    rw [hw, Option.isSome_some]
  obtain ⟨ws, hws, hholds⟩ := exists_rangeHolds hpresent
  have hanswer : readResponse dev fc (bitData ws) =
      appendCrc ([dev, fc, BitVec.ofNat 8 ((q.toNat + 7) / 8)] ++ packBits bits) := by
    rw [readResponse, bitData_length, hws, bitData, map_truth_eq hholds (hlen.trans hws.symm) (hws ▸ hcells), ceilDiv8]
  obtain ⟨⟨h1, h2, h3⟩, h4⟩ : RunsToValidated i s .get ∧ exec i (s.withBus (.busy i .get)) =
      .next { s with busOut := s.busOut ++ [readResponse dev fc (bitData ws)] } := by
    obtain ⟨rfl, rfl, rfl⟩ | ⟨rfl, rfl, rfl⟩ := hi <;>
      exact read_run (fun _ => rfl) rfl ht (decide_eq_true hmax) hws (Nat.ne_of_gt hpos) hholds
  exact ⟨h1, h2, h3, hanswer ▸ h4⟩

/-- Settles O33: the get finds the words, and the response packs them. -/
theorem registerReadsAnswerTheStoredWords : Obligations.RegisterReadsAnswerTheStoredWords := by
  intro s i dev fc k addr q crc ws hi ht hpos hmax hws hholds
  have hanswer : readResponse dev fc (packWords ws) =
      appendCrc ([dev, fc, BitVec.ofNat 8 (2 * q.toNat)] ++ packWords ws) := by
    rw [readResponse, packWords_length, hws]
  obtain ⟨⟨h1, h2, h3⟩, h4⟩ : RunsToValidated i s .get ∧ exec i (s.withBus (.busy i .get)) =
      .next { s with busOut := s.busOut ++ [readResponse dev fc (packWords ws)] } := by
    obtain ⟨rfl, rfl, rfl⟩ | ⟨rfl, rfl, rfl⟩ := hi <;>
      exact read_run (fun _ => rfl) rfl ht (decide_eq_true hmax) hws (Nat.ne_of_gt hpos) hholds
  exact ⟨h1, h2, h3, hanswer ▸ h4⟩

/-! ### The set of a present range (R45) -/

/-- The range holds the words, every other cell is as before, and the flag is latched. -/
structure StoresRange (s t : State) (k a : Nat) (vals : List Word) : Prop where
  cells : rangeHolds t k a vals
  others : sameCellsOutside s t k a vals.length
  changed : t.store.changed = true

theorem lt_classesOf_length (cfg : Config) {k : Nat} (h : k < 4) : k < (classesOf cfg).length := by
  simp [classesOf]
  omega

theorem storesRange_of_storeSet {s t : State} {k a : Nat} {vals : List Word} (hshape : storeShaped s) (hk : k < 4)
    (hne : vals ≠ []) (hcfg : t.cfg = s.cfg) (hset : storeSet s.cfg s.store k a vals = some t.store) :
    StoresRange s t k a vals where
  cells j hj := by
    have hclass : k < s.store.mem.length := hshape.symm ▸ lt_classesOf_length s.cfg hk
    rw [readCell, storeSet_find _ _ _ _ _ _ hset, hcfg, keyOf, if_pos ⟨rfl, hclass, by omega, by omega⟩]
    rw [Nat.add_sub_cancel_left]
  others := sameCellsOutside_of_storeSet hset
  changed := by
    rw [storeSet_changed _ _ _ _ _ _ hset]
    simp [hne]

theorem exists_storeSet {s : State} {k a : Nat} {vals : List Word} (h : rangePresent s k a vals.length) :
    ∃ st, storeSet s.cfg s.store k a vals = some st :=
  Option.ne_none_iff_exists'.mp fun hnone => ((storeSet_eq_none_iff s k a vals).mp hnone).2 h

theorem setStage_of_storeSet {s : State} {st : Store} {k : Nat} {addr : Word} {vals : List Word}
    (h : storeSet s.cfg s.store k addr.toNat vals = some st) (next : State → Result) :
    setStage k addr vals s next = next (s.withStore st) := by
  rw [setStage, h]

/-! ### The single writes (R128, R129) -/

/-- A single write of a present cell stores its word, and echoes what it reads back. -/
theorem singleWrite_run {i : Instr} {k : Nat} {dev fc : Byte} {addr w : Word} {echo : Word → Word} {s : State}
    (hexec : ∀ u, u.cfg = s.cfg → exec i u = singleWriteRequest i k dev fc addr w echo u)
    (hr : requestShape i = some ⟨dev, fc, k, addr, 1, true, [.guard, .validate, .set, .get], [w]⟩) (ht : takes i s)
    (hshape : storeShaped s) (hk : k < 4) (hp : rangePresent s k addr.toNat 1) :
    RunsToValidated i s .set ∧ ∃ t, exec i (s.withBus (.busy i .set)) = .next t ∧
      t = { s with store := t.store, bus := .busy i .get } ∧ StoresRange s t k addr.toNat [w] ∧
      exec i t = .next { t with
        bus := .idle, busOut := s.busOut ++ [writeResponse dev fc addr (echo w)] } := by
  obtain ⟨st, hset⟩ := exists_storeSet (vals := [w]) hp
  have hstores : StoresRange s ((s.withStore st).withBus (.busy i .get)) k addr.toNat [w] :=
    storesRange_of_storeSet hshape hk (List.cons_ne_nil _ _) rfl hset
  refine ⟨runsToValidated hr ht rfl Nat.one_ne_zero hp, (s.withStore st).withBus (.busy i .get), ?_, rfl, hstores, ?_⟩
  · rw [hexec _ (State.withBus_cfg s _), singleWriteRequest, onBus_inFlight (s := s.withBus (.busy i .set)) ht.1 rfl]
    exact setStage_of_storeSet (s := s.withBus (.busy i .set)) hset _
  · rw [hexec _ (State.withBus_cfg (s.withStore st) _), singleWriteRequest,
      onBus_inFlight (s := (s.withStore st).withBus (.busy i .get)) ht.1 rfl]
    exact getStage_of_rangeHolds dev fc _ (List.cons_ne_nil w []) hstores.cells

theorem echo5_stored (form : CoilEcho) (q : Word) :
    echo5 form (if q = 0#16 then 0#16 else 1#16) q = match form with
      | .std => if q = 0#16 then 0x0000#16 else 0xFF00#16
      | .raw => q
      | .word => if q = 0#16 then 0#16 else 1#16 := by
  cases form with
  | std => by_cases hq : q = 0#16 <;> simp [echo5, truth, hq]
  | raw => rfl
  | word => rfl

/-- Settles O34: the word stored is 0 or 1, and the echo of it depends on the form alone. -/
theorem singleCoilWriteStoresAndEchoes : Obligations.SingleCoilWriteStoresAndEchoes := by
  intro s dev addr q crc i stored echo ht hshape hp
  have hexec : ∀ u : State, u.cfg = s.cfg → exec i u =
      singleWriteRequest i 0 dev 5#8 addr stored (fun w => echo5 s.cfg.coilEcho w q) u := fun u hu => by
    rw [exec, execWriteSingleCoil, hu, fromBool_truth]
  obtain ⟨⟨h1, h2, h3⟩, t, h4, heq, hstores, h5⟩ := singleWrite_run hexec rfl ht hshape (by decide) hp
  have hecho : echo5 s.cfg.coilEcho stored q = echo := echo5_stored s.cfg.coilEcho q
  rw [hecho] at h5
  exact ⟨t, h1, h2, h3, h4, heq, hstores.cells, hstores.others, hstores.changed, h5⟩

/-- The CRC of an accepted frame of format FR is that of its header (R65). -/
theorem fixedFrame_of_accepts {cfg : Config} {dev fc : Byte} {addr q crc : Word}
    (h : accepts cfg (fixedFrame dev fc addr q crc) = true) :
    fixedFrame dev fc addr q crc = appendCrc (headerBytes dev fc addr q) := by
  have hmatches : crcMatches (headerBytes dev fc addr q ++ [loByte crc, hiByte crc]) = true := by
    simp only [accepts, frameCheck, Bool.and_eq_true] at h
    exact h.2.2
  rw [crcMatches_append, joinBytes_hiByte_loByte, beq_iff_eq] at hmatches
  rw [fixedFrame, appendCrc, hmatches]

/-- Settles O35: the echo is the word just stored, so the response has the request's header, and hence its CRC. -/
theorem singleRegisterWriteStoresAndEchoesTheRequest : Obligations.SingleRegisterWriteStoresAndEchoesTheRequest := by
  intro s dev addr q crc i ht hshape hp
  obtain ⟨⟨h1, h2, h3⟩, t, h4, heq, hstores, h5⟩ :=
    singleWrite_run (i := i) (echo := fun w => w) (fun _ _ => rfl) rfl ht hshape (by decide) hp
  have hframe : frameBytes i = writeResponse dev 6#8 addr q := fixedFrame_of_accepts ht.2.2
  rw [← hframe] at h5
  exact ⟨t, h1, h2, h3, h4, heq, hstores.cells, hstores.others, hstores.changed, h5⟩

/-! ### The multiple writes (R130, R131) -/

/-- A multiple write of present cells stores its words in one set, and answers with its address and count. -/
theorem multiWrite_run {i : Instr} {k : Nat} {dev fc : Byte} {addr q : Word} {ok : Bool} {vals : List Word} {s : State}
    (hexec : ∀ u, exec i u = multiWriteRequest i k dev fc addr q ok vals u)
    (hr : requestShape i = some ⟨dev, fc, k, addr, q.toNat, ok, [.guard, .validate, .set], vals⟩) (ht : takes i s)
    (hok : ok = true) (hshape : storeShaped s) (hk : k < 4) (hlen : vals.length = q.toNat) (hq : 1 ≤ q.toNat)
    (hp : rangePresent s k addr.toNat q.toNat) :
    RunsToValidated i s .set ∧ ∃ t, exec i (s.withBus (.busy i .set)) = .next t ∧
      t = { s with store := t.store, busOut := s.busOut ++ [writeResponse dev fc addr q] } ∧
      StoresRange s t k addr.toNat vals := by
  obtain ⟨st, hset⟩ := exists_storeSet (vals := vals) (hlen ▸ hp)
  have hne : vals ≠ [] := List.length_pos_iff.mp (hlen ▸ hq)
  refine ⟨runsToValidated hr ht hok (Nat.ne_of_gt hq) hp,
    { s with store := st, busOut := s.busOut ++ [writeResponse dev fc addr q] }, ?_, rfl,
    storesRange_of_storeSet hshape hk hne rfl hset⟩
  rw [hexec, multiWriteRequest, onBus_inFlight (s := s.withBus (.busy i .set)) ht.1 rfl]
  refine (setStage_of_storeSet (s := s.withBus (.busy i .set)) hset _).trans ?_
  exact congrArg Host.Outcome.next (State.emit_of_idle (s := s.withStore st) ht.2.1 _)

theorem coilWords_length (payload : List Byte) (q : Word) : (coilWords payload q).length = q.toNat := by
  rw [coilWords, List.length_map, unpackBits_length]

theorem coilWords_getElem? (payload : List Byte) {q : Word} {n m : Nat} (hm : m < 8) (h : 8 * n + m < q.toNat) :
    (coilWords payload q)[8 * n + m]? = some (if (payload.getD n 0#8).getLsbD m then 1#16 else 0#16) := by
  have hbyte : (8 * n + m) / 8 = n := by omega
  have hbit : (8 * n + m) % 8 = m := by omega
  rw [coilWords, List.getElem?_map, unpackBits_getElem? _ h, hbyte, hbit]
  rfl

/-- Settles O36: the word of coil `8 * n + m` is made of bit `m` of payload byte `n`. -/
theorem multipleCoilWriteStoresItsBits : Obligations.MultipleCoilWriteStoresItsBits := by
  intro s dev addr q crc payload i ht hshape hq hlen hp
  have hwords := coilWords_length payload q
  obtain ⟨⟨h1, h2, h3⟩, t, h4, heq, hstores⟩ :=
    multiWrite_run (i := i) (fun _ => rfl) rfl ht (decide_eq_true hlen) hshape (by decide) hwords hq hp
  refine ⟨t, h1, h2, h3, h4, heq, fun n m hm hnm => ?_, hwords ▸ hstores.others, hstores.changed⟩
  have hcell := hstores.cells (8 * n + m) (hwords ▸ hnm)
  rw [coilWords_getElem? payload hm hnm, congrArg State.cfg heq] at hcell
  exact hcell

theorem unpackWords_length {payload : List Byte} {n : Nat} (h : payload.length = 2 * n) :
    (unpackWords payload).length = n := by
  have hpack := packWords_length (unpackWords payload)
  rw [packWords_unpackWords (by omega)] at hpack
  omega

/-- Word `j` is made of bytes `2 * j` and `2 * j + 1`, the high byte first (R105). -/
theorem unpackWords_getElem? {payload : List Byte} {n j : Nat} (h : payload.length = 2 * n) (hj : j < n) :
    ∃ hi lo, payload[2 * j]? = some hi ∧ payload[2 * j + 1]? = some lo ∧
      (unpackWords payload)[j]? = some (hi ++ lo) := by
  obtain ⟨hhigh, hlow⟩ := packWords_getElem? (unpackWords payload) j
  rw [packWords_unpackWords (by omega)] at hhigh hlow
  obtain ⟨w, hw⟩ : ∃ w, (unpackWords payload)[j]? = some w :=
    ⟨_, List.getElem?_eq_getElem (by rwa [unpackWords_length h])⟩
  rw [hw] at hhigh hlow ⊢
  exact ⟨hiByte w, loByte w, hhigh, hlow, congrArg some (joinBytes_hiByte_loByte w).symm⟩

/-- Settles O37: the word of register `j` is made of payload bytes `2 * j` and `2 * j + 1`. -/
theorem multipleRegisterWriteStoresItsWords : Obligations.MultipleRegisterWriteStoresItsWords := by
  intro s dev addr q crc payload i ht hshape hq hlen hp
  have hwords := unpackWords_length hlen
  obtain ⟨⟨h1, h2, h3⟩, t, h4, heq, hstores⟩ :=
    multiWrite_run (i := i) (fun _ => rfl) rfl ht (decide_eq_true hlen) hshape (by decide) hwords hq hp
  refine ⟨t, h1, h2, h3, h4, heq, fun j hj => ?_, hwords ▸ hstores.others, hstores.changed⟩
  obtain ⟨hi, lo, hhigh, hlow, hword⟩ := unpackWords_getElem? hlen hj
  have hcell := hstores.cells j (hwords ▸ hj)
  rw [hword, congrArg State.cfg heq] at hcell
  exact ⟨hi, lo, hhigh, hlow, hcell⟩

end Sys2Proof.Machine
end

section
/-! PROOFS. The local store port (42_store_port.md): what each operation answers, and the frame of all local
operations. -/

namespace Sys2Proof.Machine

/-! ### What the store primitives answer (R43 to R45) -/

theorem storeGet_of_rangeHolds {s : State} {k a : Nat} {ws : List Word} (hn : ws.length ≠ 0)
    (h : rangeHolds s k a ws) : storeGet s.cfg s.store k a ws.length = some ws :=
  (storeGet_eq_some _ _ _ _ _ _).mpr ⟨hn, rfl, h⟩

theorem storeGet_eq_none_iff (s : State) (k a n : Nat) :
    storeGet s.cfg s.store k a n = none ↔ ¬ (n ≠ 0 ∧ rangePresent s k a n) := by
  rw [storeGet_eq_none, ← storeValidate_iff_rangePresent, Bool.not_eq_true]

theorem rangeHolds_of_storeSet {s t : State} {k a : Nat} {vals : List Word} (hk : k < s.store.mem.length)
    (hcfg : t.cfg = s.cfg) (hset : storeSet s.cfg s.store k a vals = some t.store) : rangeHolds t k a vals := by
  intro j hj
  rw [readCell, storeSet_find _ _ _ _ _ _ hset, hcfg, keyOf, if_pos ⟨rfl, hk, by omega, by omega⟩,
    Nat.add_sub_cancel_left]

theorem storeSet_changed_iff {cfg : Config} {st st' : Store} {k a : Nat} {vals : List Word}
    (hset : storeSet cfg st k a vals = some st') : st'.changed = true ↔ st.changed = true ∨ vals ≠ [] := by
  simp [storeSet_changed _ _ _ _ _ _ hset]

/-! ### The operations with a class operand (R151 to R153) -/

theorem withClass_present {k : Nat} {s : State} (hk : k < (classesOf s.cfg).length) (next : Result) :
    withClass k s next = next := by
  simp [withClass, classExists, hk]

section
variable {s : State} {k a n : Nat} {vals : List Word} (hf : s.fault = none) (hk : k < (classesOf s.cfg).length)
include hf hk

theorem exec_lValidate :
    exec (.lValidate k a n) s = .next (s.result (.bool (storeValidate s.cfg s.store k a n))) := by
  rw [exec, execLValidate, running_of_none hf, withClass_present hk]
  rfl

theorem exec_lGet_some {ws : List Word} (hget : storeGet s.cfg s.store k a n = some ws) :
    exec (.lGet k a n) s = .next (s.result (.words ws)) := by
  rw [exec, execLGet, running_of_none hf, withClass_present hk, hget]
  rfl

theorem exec_lGet_none (hget : storeGet s.cfg s.store k a n = none) :
    exec (.lGet k a n) s = .next (s.withFault .getInvalid) := by
  rw [exec, execLGet, running_of_none hf, withClass_present hk, hget]
  rfl

theorem exec_lSet_some {st : Store} (hset : storeSet s.cfg s.store k a vals = some st) :
    exec (.lSet k a vals) s = .next ((s.withStore st).result .ok) := by
  rw [exec, execLSet, running_of_none hf, withClass_present hk, hset]
  rfl

theorem exec_lSet_none (hset : storeSet s.cfg s.store k a vals = none) :
    exec (.lSet k a vals) s = .next (s.withFault .paramError) := by
  rw [exec, execLSet, running_of_none hf, withClass_present hk, hset]
  rfl

end

/-- Settles O40: the answer is that of the store primitive. -/
theorem validateAnswersWhetherTheRangeIsPresent : Obligations.ValidateAnswersWhetherTheRangeIsPresent :=
  fun s k a n hf hk => ⟨storeValidate s.cfg s.store k a n, exec_lValidate hf hk, storeValidate_iff_rangePresent s k a n⟩

/-- Settles O41: the get finds the words of a present range, and no words of any other. -/
theorem getReturnsTheRangeOrFaults : Obligations.GetReturnsTheRangeOrFaults := by
  intro s k a n hf hk
  refine ⟨fun hn hp => ?_, fun habsent => exec_lGet_none hf hk ((storeGet_eq_none_iff s k a n).mpr habsent)⟩
  obtain ⟨ws, rfl, hholds⟩ := exists_rangeHolds hp
  exact ⟨ws, rfl, hholds, exec_lGet_some hf hk (storeGet_of_rangeHolds hn hholds)⟩

/-- Settles O42: the set is refused exactly for an absent key of a class that cannot grow, and otherwise writes its
range. -/
theorem setStoresItsWordsOrFaults : Obligations.SetStoresItsWordsOrFaults := by
  intro s k a vals hf hshape hk
  refine ⟨fun hallowed => ?_, fun habsent hfixed =>
    exec_lSet_none hf hk ((storeSet_eq_none_iff s k a vals).mpr ⟨hfixed, habsent⟩)⟩
  rw [rangePresent_iff_holds] at hallowed
  obtain ⟨st, hset⟩ : ∃ st, storeSet s.cfg s.store k a vals = some st :=
    ⟨_, (storeSet_eq_some _ _ _ _ _ _).mpr ⟨hallowed, rfl⟩⟩
  exact ⟨(s.withStore st).result .ok, exec_lSet_some hf hk hset, rfl,
    rangeHolds_of_storeSet (s := s) (hshape.symm ▸ hk) rfl hset, sameCellsOutside_of_storeSet (s := s) hset,
    storeSet_changed_iff hset⟩

/-! ### The operations on the whole store (R154 to R157) -/

/-- Settles O43: the reset's store is the snapshots', but for the flag. -/
theorem resetRestoresEverySnapshot : Obligations.ResetRestoresEverySnapshot := by
  intro s hf
  exact ⟨(s.withStore (storeReset s.cfg s.store)).result .done, running_of_none hf _, rfl, rfl,
    snapshotMemory_length s.cfg, fun _ _ => rfl⟩

/-- Settles O44: without a fault each operation is its flag primitive. -/
theorem changedIsReadClearedAndTaken : Obligations.ChangedIsReadClearedAndTaken :=
  fun _ hf => ⟨running_of_none hf _, running_of_none hf _, running_of_none hf _⟩

/-! ### The frame of the local operations -/

/-- The local operations that can change the store: L_SET, L_RESET, the two that clear the flag, and the entity
writes. -/
def writesStore : Instr → Bool
  | .lSet _ _ _ | .lReset | .lClearChanged | .lTakeChanged => true
  | .eIntWrite _ _ | .eBoolWrite _ _ | .eFloatWrite _ _ | .eArrayWrite _ _ => true
  | _ => false

/-- The entity whose cache a local operation can change: that of an entity read or write (R176 to R187, D18). -/
def cacheTarget : Instr → Option Nat
  | .eIntRead e | .eBoolRead e | .eFloatRead e | .eArrayRead e => some e
  | .eIntWrite e _ | .eBoolWrite e _ | .eFloatWrite e _ | .eArrayWrite e _ => some e
  | _ => none

/-- From `s` to `t` the store changes only if it may, and of the caches at most the target's changes. -/
structure LocalFrame (writes : Bool) (target : Option Nat) (s t : State) : Prop where
  store : writes = false → t.store = s.store
  caches : ∀ e, target ≠ some e → t.caches[e]? = s.caches[e]?

theorem localFrame_refl (writes : Bool) (target : Option Nat) (s : State) : LocalFrame writes target s s :=
  ⟨fun _ => rfl, fun _ _ => rfl⟩

theorem localFrame_withStore (target : Option Nat) (s : State) (st : Store) :
    LocalFrame true target s (s.withStore st) := ⟨nofun, fun _ _ => rfl⟩

theorem LocalFrame.setCache {writes : Bool} {e : Nat} {s t : State} (h : LocalFrame writes (some e) s t) (c : Cache) :
    LocalFrame writes (some e) s (t.setCache e c) where
  store := h.store
  caches e' hne := by
    rw [State.setCache_caches, List.getElem?_set_ne fun he => hne (congrArg some he)]
    exact h.caches e' hne

/-- Whatever next state the result has, it is framed. -/
def Framed (writes : Bool) (target : Option Nat) (s : State) (r : Result) : Prop :=
  ∀ t, r = .next t → LocalFrame writes target s t

section
variable {writes : Bool} {target : Option Nat} {s u : State}

theorem framed_raiseFault (why : FaultReason) : Framed writes target s (raiseFault why s) := by
  intro t h
  rw [raiseFault_eq_next.mp h]
  exact ⟨fun _ => rfl, fun _ _ => rfl⟩

theorem LocalFrame.deliver (h : LocalFrame writes target s u) (r : LocalResult) :
    Framed writes target s (deliver r u) := by
  intro t ht
  rw [deliver_eq_next.mp ht]
  exact ⟨h.store, h.caches⟩

theorem framed_answer (r : LocalResult) : Framed writes target s (deliver r s) :=
  (localFrame_refl writes target s).deliver r

theorem LocalFrame.deliverFloat (h : LocalFrame writes target s u) (x : Bits32) (p : Int) :
    Framed writes target s (deliverFloat x p u) := by
  unfold Machine.deliverFloat
  split
  · exact LocalFrame.deliver (u := u.drawNaN) ⟨h.store, h.caches⟩ _
  · exact h.deliver _

theorem Framed.running {r : Result} (h : Framed writes target s r) : Framed writes target s (running s r) :=
  fun t ht => h t (running_eq_next ht).2

theorem Framed.withClass {r : Result} (h : Framed writes target s r) (k : Nat) :
    Framed writes target s (withClass k s r) :=
  fun t ht => h t (withClass_eq_next ht).2

theorem framed_withEntity {v : Variant} {e : Nat} {next : EntityDesc → Result}
    (hnext : ∀ d, Framed writes target s (next d)) : Framed writes target s (withEntity v e s next) := by
  intro t h
  obtain ⟨d, -, ⟨-, hd⟩ | ⟨-, rfl⟩⟩ := withEntity_eq_next h
  · exact hnext d t hd
  · exact framed_raiseFault .typeError _ rfl

theorem framed_entityFetch {v : Variant} {e : Nat} {next : EntityDesc → List Word → Result}
    (hnext : ∀ d ws, Framed writes target s (next d ws)) : Framed writes target s (entityFetch v e s next) := by
  refine (framed_withEntity fun d => ?_).running
  split
  · exact framed_raiseFault _
  · exact hnext d _

theorem framed_entityCached {v : Variant} {e : Nat} {next : EntityDesc → Cache → Result}
    (hnext : ∀ d c, Framed writes target s (next d c)) : Framed writes target s (entityCached v e s next) := by
  refine (framed_withEntity fun d => ?_).running
  split
  · intro t h
    cases h
  · exact hnext d _

theorem framed_entityWrite (v : Variant) (e : Nat) (val : Value) :
    Framed true (some e) s (entityWrite v e val s) := by
  refine (framed_withEntity fun d => ?_).running
  split
  · exact framed_raiseFault _
  · split
    · exact framed_answer _
    · split
      · exact framed_raiseFault _
      · exact ((localFrame_withStore _ s _).setCache _).deliver _

end

theorem exec_local_framed {i : Instr} (hi : isRequest i = false) (s : State) :
    Framed (writesStore i) (cacheTarget i) s (exec i s) := by
  cases i with
  | lValidate k a n => exact ((framed_answer _).withClass k).running
  | lGet k a n =>
    refine (Framed.withClass ?_ k).running
    split
    · exact framed_raiseFault _
    · exact framed_answer _
  | lSet k a vals =>
    refine (Framed.withClass ?_ k).running
    split
    · exact framed_raiseFault _
    · exact (localFrame_withStore _ s _).deliver _
  | lReadChanged => exact (framed_answer _).running
  | lReset | lClearChanged | lTakeChanged => exact ((localFrame_withStore _ s _).deliver _).running
  | eIntRead e | eBoolRead e =>
    refine framed_entityFetch fun d ws => ?_
    split
    · exact ((localFrame_refl _ _ s).setCache _).deliver _
    · exact framed_raiseFault _
  | eFloatRead e =>
    refine framed_entityFetch fun d ws => ?_
    split
    · exact ((localFrame_refl _ _ s).setCache _).deliverFloat _ _
    · exact framed_raiseFault _
  | eArrayRead e => exact framed_entityFetch fun d ws => ((localFrame_refl _ _ s).setCache _).deliver _
  | eIntCached e | eBoolCached e | eArrayCached e =>
    refine framed_entityCached fun d c => ?_
    split
    · exact framed_answer _
    · exact framed_raiseFault _
  | eFloatCached e =>
    refine framed_entityCached fun d c => ?_
    split
    · exact (localFrame_refl _ _ s).deliverFloat _ _
    · exact framed_raiseFault _
  | eIntWrite e v | eBoolWrite e v | eFloatWrite e v | eArrayWrite e v => exact framed_entityWrite _ e v
  | _ => cases hi

/-- A local operation reaches the store, the fault register, the caches, the results and the count of NaNs drawn, and
nothing else. -/
theorem LocalStep.eq_with {s t : State} (h : LocalStep s t) :
    t = { s with store := t.store, fault := t.fault, caches := t.caches, localOut := t.localOut,
                 nanDraws := t.nanDraws } := by
  cases h <;> rfl

theorem writesStore_eq_false {i : Instr} (hset : ∀ k a vals, i ≠ .lSet k a vals) (hreset : i ≠ .lReset)
    (hclear : i ≠ .lClearChanged) (htake : i ≠ .lTakeChanged)
    (hwrite : ∀ e v, i ≠ .eIntWrite e v ∧ i ≠ .eBoolWrite e v ∧ i ≠ .eFloatWrite e v ∧ i ≠ .eArrayWrite e v) :
    writesStore i = false := by
  cases i with
  | lSet k a vals => exact absurd rfl (hset k a vals)
  | lReset => exact absurd rfl hreset
  | lClearChanged => exact absurd rfl hclear
  | lTakeChanged => exact absurd rfl htake
  | eIntWrite e v | eBoolWrite e v | eFloatWrite e v | eArrayWrite e v => simpa using hwrite e v
  | _ => rfl

theorem mem_entityAccesses_of_cacheTarget {i : Instr} {e : Nat} (h : cacheTarget i = some e) :
    ∃ v, i ∈ [.eIntRead e, .eIntWrite e v, .eBoolRead e, .eBoolWrite e v, .eFloatRead e, .eFloatWrite e v,
      .eArrayRead e, .eArrayWrite e v] := by
  cases i with
  | eIntRead e | eBoolRead e | eFloatRead e | eArrayRead e => cases h; exact ⟨.bool true, by simp⟩
  | eIntWrite e v | eBoolWrite e v | eFloatWrite e v | eArrayWrite e v => cases h; exact ⟨v, by simp⟩
  | _ => cases h

/-- Settles O53: every local operation keeps the store unless it is one that writes it, and every cache but its
target's. -/
theorem localOperationsKeepTheirFrame : Obligations.LocalOperationsKeepTheirFrame := by
  intro s t i hi h
  obtain ⟨hstore, hcaches⟩ := exec_local_framed hi s t h
  refine ⟨(exec_local hi h).2.eq_with, fun hset hreset hclear htake hwrite =>
    hstore (writesStore_eq_false hset hreset hclear htake hwrite), fun e hother => hcaches e fun htarget => ?_⟩
  obtain ⟨v, hmem⟩ := mem_entityAccesses_of_cacheTarget htarget
  exact hother e v hmem rfl

end Sys2Proof.Machine
end

section
/-! PROOFS. Entities (43_entities.md section 1): the checks of construction. -/

namespace Sys2Proof.Machine

/-! ### The checks of construction (R172, R173) -/

/-- After a failed check nothing more is constructed (log 17). -/
theorem foldl_constructEntity_of_fault (cfg : Config) {b : Boot} {why : FaultReason} (hb : b.fault = some why)
    (ds : List EntityDesc) : ds.foldl (constructEntity cfg) b = b := by
  induction ds with
  | nil => rfl
  | cons d ds ih =>
    have hstop : constructEntity cfg b d = b := by simp [constructEntity, hb]
    rw [List.foldl_cons, hstop, ih]

/-- A descriptor that fails its check after the descriptors before it leaves its reason in the fault register. -/
theorem powerOn_fault_of_failing_check {cfg : Config} {before after : List EntityDesc} {d : EntityDesc}
    {why : FaultReason} (hcfg : cfg.entities = before ++ d :: after)
    (hfail : (constructEntity cfg (boot { cfg with entities := before }) d).fault = some why) :
    (State.powerOn cfg).fault = some why := by
  have hboot : boot cfg = constructEntity cfg (boot { cfg with entities := before }) d := by
    rw [boot, hcfg, List.foldl_append, List.foldl_cons]
    exact foldl_constructEntity_of_fault cfg hfail after
  exact (congrArg Boot.fault hboot).trans hfail

/-- Settles O16: the descriptors before the failing one are constructed as they are without it, and what it leaves in
the fault register stays. -/
theorem constructionChecksStopTheBlock : Obligations.ConstructionChecksStopTheBlock := by
  intro cfg before after d hcfg hnone
  have hclear : (boot { cfg with entities := before }).fault = none := hnone
  have hvalid : storeValidate cfg (boot { cfg with entities := before }).store d.cls d.addr (widthOf d) = true ↔
      widthOf d ≠ 0 ∧ rangePresent (State.powerOn { cfg with entities := before }) d.cls d.addr (widthOf d) :=
    storeValidate_iff_rangePresent (State.powerOn { cfg with entities := before }) _ _ _
  refine ⟨fun habsent => powerOn_fault_of_failing_check hcfg ?_, fun hwidth hpresent hrepr =>
    powerOn_fault_of_failing_check hcfg ?_⟩
  · rw [← hvalid, Bool.not_eq_true] at habsent
    simp [constructEntity, hclear, habsent]
  · simp [constructEntity, hclear, hvalid.mpr ⟨hwidth, hpresent⟩, hrepr]

end Sys2Proof.Machine
end

section
/-! PROOFS. Entities (43_entities.md section 3): the fields of a binary64 encoding. -/

namespace Sys2Proof.Machine

section
variable {m : Nat} (hm : m < 2 ^ 63)
include hm

theorem withSign64_toNat (neg : Bool) : (withSign64 neg m).toNat = (if neg then 2 ^ 63 else 0) + m := by
  rw [withSign64, BitVec.toNat_ofNat, Nat.mod_eq_of_lt]
  split <;> omega

theorem sign64_withSign64 (neg : Bool) : sign64 (withSign64 neg m) = neg := by
  rw [sign64, BitVec.getLsbD, withSign64_toNat hm, Nat.testBit_eq_decide_div_mod_eq]
  cases neg <;> simp <;> omega

theorem exp64_withSign64 (neg : Bool) : exp64 (withSign64 neg m) = m / 2 ^ 52 := by
  rw [exp64, BitVec.extractLsb'_toNat, withSign64_toNat hm, Nat.shiftRight_eq_div_pow]
  split <;> omega

theorem frac64_withSign64 (neg : Bool) : frac64 (withSign64 neg m) = m % 2 ^ 52 := by
  rw [frac64, BitVec.extractLsb'_toNat, withSign64_toNat hm, Nat.shiftRight_eq_div_pow]
  split <;> omega

end

theorem isNaN64_nan64 (v : BitVec 53) : isNaN64 (nan64 v) = true := by
  have hfield : ∀ p, 0 < p → p < 2 ^ 52 → isNaN64 (withSign64 (v.getLsbD 52) (infinity64 + p)) = true := by
    intro p hpos hlt
    have hm : infinity64 + p < 2 ^ 63 := by rw [infinity64]; omega
    rw [isNaN64, exp64_withSign64 hm, frac64_withSign64 hm, infinity64]
    simp
    omega
  have hlt := (v.extractLsb' 0 52).isLt
  rw [nan64]
  refine hfield _ ?_ ?_ <;> split <;> omega

end Sys2Proof.Machine
end

section
/-! PROOFS. Entities (43_entities.md section 2): what each operation of an entity answers, stores and caches. -/

namespace Sys2Proof.Machine

/-! ### The operand (R175) -/

section
variable {s : State} {v : Variant} {e : Nat} {d : EntityDesc} (he : s.cfg.entities[e]? = some d)
include he

theorem withEntity_of_variant (hv : d.variant = v) (next : EntityDesc → Result) : withEntity v e s next = next d := by
  rw [withEntity, he]
  exact if_pos hv

theorem withEntity_of_other_variant (hv : d.variant ≠ v) (next : EntityDesc → Result) :
    withEntity v e s next = raiseFault .typeError s := by
  rw [withEntity, he]
  exact if_neg hv

variable (hf : s.fault = none)
include hf

/-! ### The shared operations, for the entity's own variant -/

theorem entityFetch_of_rangeHolds (hv : d.variant = v) {ws : List Word} (hlen : ws.length = widthOf d) (hne : ws ≠ [])
    (hholds : rangeHolds s d.cls d.addr ws) (next : EntityDesc → List Word → Result) :
    entityFetch v e s next = next d ws := by
  rw [entityFetch, running_of_none hf, withEntity_of_variant he hv, ← hlen,
    storeGet_of_rangeHolds (mt List.length_eq_zero_iff.mp hne) hholds]

theorem entityCached_of_cache (hv : d.variant = v) {c : Cache} (hc : s.caches[e]? = some c)
    (next : EntityDesc → Cache → Result) : entityCached v e s next = next d c := by
  rw [entityCached, running_of_none hf, withEntity_of_variant he hv, hc]

theorem entityWrite_of_cached (hv : d.variant = v) {val : Value} {c : Cache} (hrepr : reprOf d val = some c)
    (hc : s.caches[e]? = some c) : entityWrite v e val s = .next (s.result .unchanged) := by
  rw [entityWrite, running_of_none hf, withEntity_of_variant he hv, hrepr]
  exact if_pos hc

theorem entityWrite_of_storeSet (hv : d.variant = v) {val : Value} {c : Cache} (hrepr : reprOf d val = some c)
    (hc : s.caches[e]? ≠ some c) {st : Store} (hset : storeSet s.cfg s.store d.cls d.addr (cacheWords c) = some st) :
    entityWrite v e val s = .next (((s.withStore st).setCache e c).result .changed) := by
  rw [entityWrite, running_of_none hf, withEntity_of_variant he hv, hrepr]
  refine (if_neg hc).trans ?_
  rw [hset]
  rfl

/-! ### TYPE_ERROR (R173, R175) -/

theorem entityFetch_of_other_variant (hv : d.variant ≠ v) (next : EntityDesc → List Word → Result) :
    entityFetch v e s next = .next (s.withFault .typeError) := by
  rw [entityFetch, running_of_none hf, withEntity_of_other_variant he hv]
  rfl

theorem entityCached_of_other_variant (hv : d.variant ≠ v) (next : EntityDesc → Cache → Result) :
    entityCached v e s next = .next (s.withFault .typeError) := by
  rw [entityCached, running_of_none hf, withEntity_of_other_variant he hv]
  rfl

theorem entityWrite_of_other_variant (hv : d.variant ≠ v) (val : Value) :
    entityWrite v e val s = .next (s.withFault .typeError) := by
  rw [entityWrite, running_of_none hf, withEntity_of_other_variant he hv]
  rfl

/-- A value that has no representation of the variant fails whether or not the entity is of that variant. -/
theorem entityWrite_of_no_repr {val : Value} (hrepr : d.variant = v → reprOf d val = none) :
    entityWrite v e val s = .next (s.withFault .typeError) := by
  by_cases hv : d.variant = v
  · rw [entityWrite, running_of_none hf, withEntity_of_variant he hv, hrepr hv]
    rfl
  · exact entityWrite_of_other_variant he hf hv val

end

/-! ### Representations (R173, R175) -/

section
variable {d : EntityDesc} {v : Value}

theorem reprOf_int (hv : d.variant = .int) {n : Nat} (hn : n < 0x10000) :
    reprOf d (.nat n) = some (.word (BitVec.ofNat 16 n)) := by
  simp [reprOf, hv, hn]

theorem reprOf_bool (hv : d.variant = .bool) (b : Bool) : reprOf d (.bool b) = some (.word (fromBool b)) := by
  simp [reprOf, hv]

theorem reprOf_float (hv : d.variant = .float) (u : Bits32) : reprOf d (.float u) = some (.float u) := by
  simp [reprOf, hv]

theorem reprOf_array (hv : d.variant = .array) {ws : List Word} (hlen : ws.length = d.len) :
    reprOf d (.list (ws.map BitVec.toNat)) = some (.words ws) := by
  simp [reprOf, hv, hlen, wordsOfNats_map_toNat]

theorem reprOf_int_eq_none (hv : d.variant = .int) (h : ∀ n, v = .nat n → 0x10000 ≤ n) : reprOf d v = none := by
  cases v with
  | nat n => simp [reprOf, hv, h n rfl]
  | bool b | float u | list ns => simp [reprOf, hv]

theorem reprOf_bool_eq_none (hv : d.variant = .bool) (h : ∀ b, v ≠ .bool b) : reprOf d v = none := by
  cases v with
  | bool b => exact absurd rfl (h b)
  | nat n | float u | list ns => simp [reprOf, hv]

theorem reprOf_float_eq_none (hv : d.variant = .float) (h : ∀ u, v ≠ .float u) : reprOf d v = none := by
  cases v with
  | float u => exact absurd rfl (h u)
  | nat n | bool b | list ns => simp [reprOf, hv]

theorem wordsOfNats_eq_none {ns : List Nat} (h : ∃ n ∈ ns, 0x10000 ≤ n) : wordsOfNats ns = none := by
  simpa [wordsOfNats] using h

theorem reprOf_array_eq_none (hv : d.variant = .array)
    (h : ∀ ns, v = .list ns → ns.length ≠ d.len ∨ ∃ n ∈ ns, 0x10000 ≤ n) : reprOf d v = none := by
  cases v with
  | list ns =>
    obtain hlen | hbig := h ns rfl
    · simp [reprOf, hv, hlen]
    · simp [reprOf, hv, wordsOfNats_eq_none hbig]
  | nat n | bool b | float u => simp [reprOf, hv]

/-- A cache of its variant's form covers the entity's cells (R171). -/
theorem cacheWords_length {c : Cache} (h : cacheFits d c = true) : (cacheWords c).length = widthOf d := by
  unfold cacheFits at h
  split at h
  case h_1 hv | h_2 hv | h_3 hv => simp [widthOf, hv, cacheWords, floatToWords]
  case h_4 hv => simpa [widthOf, hv, cacheWords] using h
  case h_5 => cases h

end

/-- Settles O51: the operand is looked up first, and then the value's representation. -/
theorem wrongVariantsAndValuesRaiseTypeError : Obligations.WrongVariantsAndValuesRaiseTypeError := by
  intro s e d v hf he typeError
  have hother {w : Variant} (hv : d.variant ≠ w) :
      (∀ next, entityFetch w e s next = typeError) ∧ (∀ next, entityCached w e s next = typeError) ∧
        entityWrite w e v s = typeError :=
    ⟨entityFetch_of_other_variant he hf hv, entityCached_of_other_variant he hf hv,
      entityWrite_of_other_variant he hf hv v⟩
  refine ⟨fun hv => ?_, fun hv => ?_, fun hv => ?_, fun hv => ?_,
    fun h => entityWrite_of_no_repr he hf fun hv => reprOf_int_eq_none hv h,
    fun h => entityWrite_of_no_repr he hf fun hv => reprOf_bool_eq_none hv h,
    fun h => entityWrite_of_no_repr he hf fun hv => reprOf_float_eq_none hv h,
    fun h => entityWrite_of_no_repr he hf fun hv => reprOf_array_eq_none hv h⟩
  all_goals
    obtain ⟨hread, hcached, hwrite⟩ := hother hv
    exact ⟨hread _, hcached _, hwrite⟩

/-! ### Reads and cached values (R176, R177, R179, R180, R185, R186) -/

/-- Settles O46: the fetch finds the words of the range, and each operation delivers and caches them in its form. -/
theorem entityReadsReturnTheStoreAndRefreshTheCache : Obligations.EntityReadsReturnTheStoreAndRefreshTheCache := by
  intro s e d ws hf he hlen hne hholds
  have hread {w : Variant} (hv : d.variant = w) := entityFetch_of_rangeHolds he hf hv hlen hne hholds
  exact ⟨fun w hv hw => by subst hw; exact hread hv _, fun w hv hw => by subst hw; exact hread hv _,
    fun hv => hread hv _⟩

/-! ### Float results (R182, R183, R188) -/

/-- The binary64 encoding delivered for a binary32 encoding: rounded or widened as the precision asks, and for a NaN
some NaN; only the latter draws the free value (93 I19, log 10). -/
structure FloatAnswer (u : Bits32) (p : Int) (s t : State) (y : Bits64) : Prop where
  next : t = { s with localOut := s.localOut ++ [.float y], nanDraws := t.nanDraws }
  nan : isNaN32 u = true → isNaN64 y = true
  number : isNaN32 u = false → t.nanDraws = s.nanDraws ∧ (0 < p → y = roundDec u p.toNat) ∧ (p ≤ 0 → y = widen64 u)

theorem exists_floatAnswer (u : Bits32) (p : Int) (s : State) :
    ∃ t y, deliverFloat u p s = .next t ∧ FloatAnswer u p s t y := by
  unfold deliverFloat
  split
  · rename_i hnan
    exact ⟨_, nan64 (Config.freeNaN s.nanDraws), rfl, rfl, fun _ => isNaN64_nan64 _, by simp [hnan]⟩
  · rename_i hnan
    refine ⟨_, floatOut u p, rfl, rfl, fun h => absurd h hnan, fun _ => ⟨rfl, fun hp => if_pos hp, fun hp => ?_⟩⟩
    exact if_neg (Int.not_lt.mpr hp)

/-- Settles O47: the fetch finds the two words, and the answer is that of the encoding they join to. -/
theorem floatReadsReturnTheRoundedStore : Obligations.FloatReadsReturnTheRoundedStore := by
  intro s e d w0 w1 hf he hv hholds
  obtain ⟨t, y, hexec, hnext, hnan, hnumber⟩ :=
    exists_floatAnswer (wordsToFloat w0 w1) d.precision (s.setCache e (.float (wordsToFloat w0 w1)))
  refine ⟨t, y, Eq.trans ?_ hexec, hnext, hnan, hnumber⟩
  exact entityFetch_of_rangeHolds he hf hv (by simp [widthOf, hv]) (List.cons_ne_nil _ _) hholds _

/-- Settles O48: each operation delivers the cache in its form, a FLOAT one as a read does. -/
theorem cachedValuesAreReturnedWithoutStoreAccess : Obligations.CachedValuesAreReturnedWithoutStoreAccess := by
  intro s e d hf he
  have hcached {w : Variant} (hv : d.variant = w) {c : Cache} (hc : s.caches[e]? = some c) :=
    entityCached_of_cache he hf hv hc
  refine ⟨fun w hv hc => hcached hv hc _, fun w hv hc => hcached hv hc _, fun ws hv hc => hcached hv hc _,
    fun u hv hc => ?_⟩
  obtain ⟨t, y, hexec, hnext, hnan, hnumber⟩ := exists_floatAnswer u d.precision s
  exact ⟨t, y, (hcached hv hc _).trans hexec, hnext, hnan, hnumber⟩

/-! ### Writes (R178, R181, R184, R187, R189) -/

/-- Settles O49: the representation of the written value is the cached one. -/
theorem writesOfTheCachedValueAreSuppressed : Obligations.WritesOfTheCachedValueAreSuppressed := by
  intro s e d hf he
  exact ⟨fun n hn hv => entityWrite_of_cached he hf hv (reprOf_int hv hn),
    fun b hv => entityWrite_of_cached he hf hv (reprOf_bool hv b),
    fun u hv => entityWrite_of_cached he hf hv (reprOf_float hv u),
    fun ws hv hlen => entityWrite_of_cached he hf hv (reprOf_array hv hlen)⟩

theorem class_lt_of_readCell {s : State} {k key : Nat} (h : (readCell s k key).isSome = true) :
    k < s.store.mem.length := by
  by_contra hk
  rw [readCell, Store.map, List.getD_eq_getElem?_getD, List.getElem?_eq_none (Nat.not_lt.mp hk)] at h
  cases h

/-- A representation other than the cached one is stored at present cells, cached and answered with CHANGED. -/
theorem entityWrite_stores {s : State} {v : Variant} {e : Nat} {d : EntityDesc} {val : Value} {c : Cache}
    (hf : s.fault = none) (he : s.cfg.entities[e]? = some d) (hv : d.variant = v) (hrepr : reprOf d val = some c)
    (hc : s.caches[e]? ≠ some c) (hwidth : widthOf d ≠ 0) (hpresent : rangePresent s d.cls d.addr (widthOf d)) :
    ∃ t, entityWrite v e val s = .next t ∧
      t = { s with store := t.store, caches := s.caches.set e c, localOut := s.localOut ++ [.changed] } ∧
      rangeHolds t d.cls d.addr (cacheWords c) ∧ sameCellsOutside s t d.cls d.addr (widthOf d) ∧
      t.store.changed = true := by
  have hlen : (cacheWords c).length = widthOf d := cacheWords_length (reprOf_fits hrepr)
  have hne : cacheWords c ≠ [] := mt List.length_eq_zero_iff.mpr (hlen ▸ hwidth)
  have hclass : d.cls < s.store.mem.length := class_lt_of_readCell (hpresent 0 (Nat.pos_of_ne_zero hwidth))
  rw [← hlen] at hpresent ⊢
  obtain ⟨st, hset⟩ := exists_storeSet hpresent
  exact ⟨_, entityWrite_of_storeSet he hf hv hrepr hc hset, rfl, rangeHolds_of_storeSet (s := s) hclass rfl hset,
    sameCellsOutside_of_storeSet (s := s) hset, (storeSet_changed_iff hset).mpr (.inr hne)⟩

/-- Settles O50: each of the four writes is the shared write of a value with the representation `c`. -/
theorem otherWritesAreStoredAndCached : Obligations.OtherWritesAreStoredAndCached := by
  intro s e d i c ws hf _ he hwrite hc hpresent
  obtain ⟨hv, n, hn, rfl, rfl, rfl⟩ | ⟨hv, b, rfl, rfl, rfl⟩ | ⟨hv, u, rfl, rfl, rfl⟩ |
    ⟨hv, hpos, hlen, rfl, rfl⟩ := hwrite
  · exact entityWrite_stores hf he hv (reprOf_int hv hn) hc (by simp [widthOf, hv]) hpresent
  · exact entityWrite_stores hf he hv (reprOf_bool hv b) hc (by simp [widthOf, hv]) hpresent
  · exact entityWrite_stores hf he hv (reprOf_float hv u) hc (by simp [widthOf, hv]) hpresent
  · exact entityWrite_stores hf he hv (reprOf_array hv hlen) hc (by simp [widthOf, hv, hpos]) hpresent

/-! ### Constructed entities (R172, R240) -/

/-- The operation has a next state, and no fault is raised. -/
def NoFault (r : Result) : Prop := ∃ t, r = .next t ∧ t.fault = none

theorem noFault_deliver {u : State} (hu : u.fault = none) (r : LocalResult) : NoFault (deliver r u) :=
  ⟨u.result r, rfl, hu⟩

theorem noFault_deliverFloat {u : State} (hu : u.fault = none) (x : Bits32) (p : Int) :
    NoFault (deliverFloat x p u) := by
  obtain ⟨t, y, hexec, hanswer⟩ := exists_floatAnswer x p u
  refine ⟨t, hexec, ?_⟩
  rw [hanswer.next]
  exact hu

/-- The snapshot holds the cells of a constructed entity, and no key of it is ever lost. -/
theorem Inv.rangePresent {s : State} (h : Inv s) (hf : s.fault = none) {d : EntityDesc} (hd : d ∈ s.cfg.entities) :
    widthOf d ≠ 0 ∧ rangePresent s d.cls d.addr (widthOf d) := by
  obtain ⟨hwidth, hcells⟩ := (storeValidate_iff _ _ _ _ _).mp (h.entities hf d hd)
  exact ⟨hwidth, fun j hj => h.keepsKeys _ _ (hcells j hj)⟩

section
variable {s : State} {v : Variant} {e : Nat} {d : EntityDesc} (hinv : Inv s) (hf : s.fault = none)
  (he : s.cfg.entities[e]? = some d) (hv : d.variant = v)
include hinv hf he hv

theorem noFault_entityFetch {next : EntityDesc → List Word → Result}
    (hnext : ∀ ws : List Word, ws.length = widthOf d → NoFault (next d ws)) : NoFault (entityFetch v e s next) := by
  obtain ⟨hwidth, hpresent⟩ := hinv.rangePresent hf (List.mem_of_getElem? he)
  obtain ⟨ws, hlen, hholds⟩ := exists_rangeHolds hpresent
  have hne : ws ≠ [] := mt List.length_eq_zero_iff.mpr (hlen ▸ hwidth)
  rw [entityFetch_of_rangeHolds he hf hv hlen hne hholds]
  exact hnext ws hlen

theorem noFault_entityCached {next : EntityDesc → Cache → Result}
    (hnext : ∀ c, cacheFits d c = true → NoFault (next d c)) : NoFault (entityCached v e s next) := by
  obtain ⟨hlen, hfits⟩ := hinv.caches hf
  obtain ⟨hindex, -⟩ := List.getElem?_eq_some_iff.mp he
  have hc : s.caches[e]? = some s.caches[e] := List.getElem?_eq_getElem (hlen ▸ hindex)
  rw [entityCached_of_cache he hf hv hc]
  exact hnext _ (hfits e d _ he hc)

theorem noFault_entityWrite {val : Value} (hrepr : reprOf d val ≠ none) : NoFault (entityWrite v e val s) := by
  obtain ⟨c, hc⟩ := Option.ne_none_iff_exists'.mp hrepr
  by_cases hcached : s.caches[e]? = some c
  · exact ⟨_, entityWrite_of_cached he hf hv hc hcached, hf⟩
  · obtain ⟨hwidth, hpresent⟩ := hinv.rangePresent hf (List.mem_of_getElem? he)
    obtain ⟨t, hexec, hnext, -⟩ := entityWrite_stores hf he hv hc hcached hwidth hpresent
    refine ⟨t, hexec, ?_⟩
    rw [hnext]
    exact hf

end

theorem cacheFits_word {d : EntityDesc} {c : Cache} (hv : d.variant = .int ∨ d.variant = .bool)
    (h : cacheFits d c = true) : ∃ w, c = .word w := by
  cases c with
  | word w => exact ⟨w, rfl⟩
  | float u | words ws => obtain hv | hv := hv <;> simp [cacheFits, hv] at h

theorem cacheFits_float {d : EntityDesc} {c : Cache} (hv : d.variant = .float) (h : cacheFits d c = true) :
    ∃ u, c = .float u := by
  cases c with
  | float u => exact ⟨u, rfl⟩
  | word w | words ws => simp [cacheFits, hv] at h

theorem cacheFits_words {d : EntityDesc} {c : Cache} (hv : d.variant = .array) (h : cacheFits d c = true) :
    ∃ ws, c = .words ws := by
  cases c with
  | words ws => exact ⟨ws, rfl⟩
  | word w | float u => simp [cacheFits, hv] at h

/-- Settles O52: the range of a constructed entity is present, so its read finds words and its write is not refused, and
its cache has its variant's form. -/
theorem entityOperationsDoNotFaultOnConstructedEntities :
    Obligations.EntityOperationsDoNotFaultOnConstructedEntities := by
  intro s e d v i hinv hf he hrepr hop
  change NoFault (exec i s)
  simp only [List.mem_cons, List.not_mem_nil, or_false] at hop
  obtain ⟨hv, rfl | rfl | rfl⟩ | ⟨hv, rfl | rfl | rfl⟩ | ⟨hv, rfl | rfl | rfl⟩ | ⟨hv, rfl | rfl | rfl⟩ := hop
  case inl.inr.inr | inr.inl.inr.inr | inr.inr.inl.inr.inr | inr.inr.inr.inr.inr =>
    exact noFault_entityWrite hinv hf he hv hrepr
  case inl.inl | inr.inl.inl =>
    refine noFault_entityFetch hinv hf he hv fun ws hlen => ?_
    obtain ⟨w, rfl⟩ := List.length_eq_one_iff.mp (hlen.trans (by simp [widthOf, hv]))
    exact noFault_deliver (u := s.setCache e _) hf _
  case inl.inr.inl | inr.inl.inr.inl =>
    refine noFault_entityCached hinv hf he hv fun c hfits => ?_
    obtain ⟨w, rfl⟩ := cacheFits_word (by simp [hv]) hfits
    exact noFault_deliver hf _
  case inr.inr.inl.inl =>
    refine noFault_entityFetch hinv hf he hv fun ws hlen => ?_
    obtain ⟨w0, w1, rfl⟩ := List.length_eq_two.mp (hlen.trans (by simp [widthOf, hv]))
    exact noFault_deliverFloat (u := s.setCache e _) hf _ _
  case inr.inr.inl.inr.inl =>
    refine noFault_entityCached hinv hf he hv fun c hfits => ?_
    obtain ⟨u, rfl⟩ := cacheFits_float hv hfits
    exact noFault_deliverFloat hf _ _
  case inr.inr.inr.inl =>
    exact noFault_entityFetch hinv hf he hv fun ws _ => noFault_deliver (u := s.setCache e _) hf _
  case inr.inr.inr.inr.inl =>
    refine noFault_entityCached hinv hf he hv fun c hfits => ?_
    obtain ⟨ws, rfl⟩ := cacheFits_words hv hfits
    exact noFault_deliver hf _

end Sys2Proof.Machine
end

section
/-! PROOFS. Entities (43_entities.md section 3): widening is exact, and decimal rounding is to nearest even. -/

namespace Sys2Proof.Machine

/-! ### The magnitude of a binary64 encoding (R15) -/

/-- The magnitude of the finite binary64 encoding with the 63 low bits `m`, in units of the least subnormal. -/
def magnitude64 (m : Nat) : Nat :=
  (if m / 2 ^ 52 = 0 then m % 2 ^ 52 else m % 2 ^ 52 + 2 ^ 52) * 2 ^ (m / 2 ^ 52 - 1)

/-- A sign bit as a factor. -/
def signFactor (neg : Bool) : ℚ := if neg then -1 else 1

theorem signFactor_mul_self (neg : Bool) : signFactor neg * signFactor neg = 1 := by
  cases neg <;> simp [signFactor]

theorem abs_signFactor_mul (neg : Bool) (x : ℚ) : |signFactor neg * x| = |x| := by
  cases neg <;> simp [signFactor]

theorem value32_eq (u : Bits32) :
    value32 u = signFactor (sign32 u) * (((significand32 u * 2 ^ scale32 u : ℕ) : ℚ) / (2 ^ 149 : ℕ)) := by
  rw [value32, signFactor]
  push_cast
  rfl

theorem value64_withSign64 {m : Nat} (hm : m < 2 ^ 63) (neg : Bool) :
    value64 (withSign64 neg m) = signFactor neg * ((magnitude64 m : ℚ) / (2 ^ 1074 : ℕ)) := by
  rw [value64, sign64_withSign64 hm, exp64_withSign64 hm, frac64_withSign64 hm, magnitude64, signFactor]
  rw [Nat.cast_mul, Nat.cast_pow 2 1074, Nat.cast_pow, Nat.cast_ofNat]

theorem exists_withSign64 (z : Bits64) : ∃ neg, ∃ m < 2 ^ 63, z = withSign64 neg m := by
  have hz := z.isLt
  refine ⟨decide (2 ^ 63 ≤ z.toNat), z.toNat % 2 ^ 63, Nat.mod_lt _ (by decide), BitVec.eq_of_toNat_eq ?_⟩
  rw [withSign64_toNat (Nat.mod_lt _ (by decide))]
  simp only [decide_eq_true_eq]
  split <;> omega

theorem infinity64_lt : infinity64 < 2 ^ 63 := by decide

theorem isFinite64_withSign64 {m : Nat} (hm : m < infinity64) (neg : Bool) :
    isFinite64 (withSign64 neg m) = true := by
  rw [isFinite64, exp64_withSign64 (hm.trans infinity64_lt), bne_iff_ne]
  rw [infinity64] at hm
  omega

/-- A significand `q` at the quantum `2 ^ t`, the carry into the exponent field included. -/
theorem magnitude64_of_significand {t q : Nat} (hq : q ≤ 2 ^ 53) (hnormal : t = 0 ∨ 2 ^ 52 ≤ q) :
    magnitude64 (t * 2 ^ 52 + q) = q * 2 ^ t := by
  rw [magnitude64]
  by_cases hsub : q < 2 ^ 52
  · obtain rfl : t = 0 := by omega
    rw [if_pos (by omega)]
    congr 2 <;> omega
  · obtain rfl | hlt := Nat.eq_or_lt_of_le hq
    · rw [if_neg (by omega), show (t * 2 ^ 52 + 2 ^ 53) / 2 ^ 52 - 1 = t + 1 by omega,
        show (t * 2 ^ 52 + 2 ^ 53) % 2 ^ 52 + 2 ^ 52 = 2 ^ 52 by omega, Nat.pow_succ]
      ring
    · rw [if_neg (by omega)]
      congr 2 <;> omega

theorem magnitude64_mono : Monotone magnitude64 := by
  refine monotone_nat_of_le_succ fun m => ?_
  obtain ⟨t, q, rfl, hq, hnormal⟩ : ∃ t q, m = t * 2 ^ 52 + q ∧ q < 2 ^ 53 ∧ (t = 0 ∨ 2 ^ 52 ≤ q) :=
    ⟨m / 2 ^ 52 - 1, m - (m / 2 ^ 52 - 1) * 2 ^ 52, by omega, by omega, by omega⟩
  rw [Nat.add_assoc, magnitude64_of_significand hq.le hnormal,
    magnitude64_of_significand (Nat.succ_le_of_lt hq) (by omega)]
  exact Nat.mul_le_mul_right _ (Nat.le_succ q)

/-! ### Rounding to an integer (R188) -/

/-- `f` is an integer nearest `y`, the even one of two. -/
structure NearestEven (y : ℚ) (f : Nat) : Prop where
  near : |y - f| ≤ 1 / 2
  even : |y - f| = 1 / 2 → Even f

theorem NearestEven.of_lt {y : ℚ} {f : Nat} (h : |y - f| < 1 / 2) : NearestEven y f :=
  ⟨h.le, fun htie => absurd htie h.ne⟩

/-- The result is one of the two integers about the quotient. -/
theorem roundHalfEven_eq_or (num den : Nat) :
    roundHalfEven num den = num / den ∨ roundHalfEven num den = num / den + 1 := by
  unfold roundHalfEven
  dsimp only
  split
  · exact .inl rfl
  · split <;> omega

theorem div_eq_quotient_add_remainder {den : Nat} (hden : 0 < den) (num : Nat) :
    (num : ℚ) / den = (num / den : ℕ) + ((num % den : ℕ) : ℚ) / den := by
  have hne : (den : ℚ) ≠ 0 := by exact_mod_cast hden.ne'
  have hsplit : (num : ℚ) = den * (num / den : ℕ) + (num % den : ℕ) := by exact_mod_cast (Nat.div_add_mod num den).symm
  rw [div_eq_iff hne, add_mul, div_mul_cancel₀ _ hne, mul_comm, ← hsplit]

theorem roundHalfEven_nearestEven {den : Nat} (hden : 0 < den) (num : Nat) :
    NearestEven ((num : ℚ) / den) (roundHalfEven num den) := by
  have hpos : (0 : ℚ) < den := by exact_mod_cast hden
  rw [div_eq_quotient_add_remainder hden, roundHalfEven]
  generalize num / den = q
  have hnonneg : (0 : ℚ) ≤ ((num % den : ℕ) : ℚ) / den := by positivity
  split
  · rename_i hbelow
    have hhalf : ((num % den : ℕ) : ℚ) / den < 1 / 2 := by
      rw [div_lt_div_iff₀ hpos (by norm_num)]
      exact_mod_cast (by omega : num % den * 2 < 1 * den)
    exact .of_lt (by rwa [add_sub_cancel_left, abs_of_nonneg hnonneg])
  · split
    · rename_i habove
      have hhalf : 1 / 2 < ((num % den : ℕ) : ℚ) / den := by
        rw [div_lt_div_iff₀ (by norm_num) hpos]
        exact_mod_cast (by omega : 1 * den < num % den * 2)
      have hone : ((num % den : ℕ) : ℚ) / den < 1 := by
        rw [div_lt_one hpos]
        exact_mod_cast Nat.mod_lt num hden
      refine .of_lt ?_
      rw [Nat.cast_succ, add_sub_add_left_eq_sub, abs_of_neg (sub_neg.mpr hone)]
      linarith
    · have hhalf : ((num % den : ℕ) : ℚ) / den = 1 / 2 := by
        rw [div_eq_div_iff hpos.ne' (by norm_num)]
        exact_mod_cast (by omega : num % den * 2 = 1 * den)
      rw [hhalf]
      obtain heven | hodd := Nat.mod_two_eq_zero_or_one q
      · rw [heven]
        exact ⟨by norm_num, fun _ => Nat.even_iff.mpr (by omega)⟩
      · rw [hodd]
        exact ⟨by norm_num, fun _ => Nat.even_iff.mpr (by omega)⟩

theorem roundHalfEven_of_mul {den : Nat} (hden : 0 < den) (k : Nat) : roundHalfEven (k * den) den = k := by
  simp [roundHalfEven, hden]

theorem roundHalfEven_zero {den : Nat} (hden : 0 < den) : roundHalfEven 0 den = 0 := by
  simpa using roundHalfEven_of_mul hden 0

/-! ### The quantum of a binary64 result (R188) -/

/-- `2 ^ (t - 1074)` is the quantum of the rational `num / den`: at it the significand has at most 53 bits, and no fewer
unless the result is subnormal. -/
structure IsQuantum (num den t : Nat) : Prop where
  upper : num * 2 ^ 1074 < 2 ^ 53 * (den * 2 ^ t)
  lower : t = 0 ∨ 2 ^ 52 * (den * 2 ^ t) ≤ num * 2 ^ 1074

/-- `log2Ratio` is the floor of the binary logarithm, at every offset `c` of the exponent. -/
theorem log2Ratio_bounds {num den c t : Nat} (hnum : num ≠ 0) (hden : den ≠ 0) (hc : c ≤ 1999)
    (ht : t = log2Ratio num den - (1999 - c)) :
    num * 2 ^ c < den * 2 ^ t ∧ (t = 0 ∨ den * 2 ^ t ≤ num * 2 ^ (c + 1)) := by
  have hnumLow := Nat.log2_self_le hnum
  have hdenLow := Nat.log2_self_le hden
  have hnumHigh := Nat.lt_log2_self (n := num)
  have hdenHigh := Nat.lt_log2_self (n := den)
  unfold log2Ratio at ht
  dsimp only at ht
  generalize num.log2 = a at *
  generalize den.log2 = b at *
  have hb : 0 < 2 ^ b := Nat.two_pow_pos b
  split at ht
  · rename_i hge
    constructor
    · calc num * 2 ^ c < 2 ^ (a + 1) * 2 ^ c := Nat.mul_lt_mul_of_pos_right hnumHigh (Nat.two_pow_pos c)
        _ = 2 ^ (a + 1 + c) := (Nat.pow_add ..).symm
        _ ≤ 2 ^ (b + t) := Nat.pow_le_pow_right (by decide) (by omega)
        _ = 2 ^ b * 2 ^ t := Nat.pow_add ..
        _ ≤ den * 2 ^ t := Nat.mul_le_mul_right _ hdenLow
    · refine (Nat.eq_zero_or_pos t).imp_right fun hpos => Nat.le_of_mul_le_mul_right ?_ hb
      calc den * 2 ^ t * 2 ^ b = den * 2 ^ (t + b) := by rw [Nat.mul_assoc, ← Nat.pow_add]
        _ = den * 2 ^ a * 2 ^ (c + 1) := by rw [Nat.mul_assoc, ← Nat.pow_add]; congr 2; omega
        _ ≤ num * 2 ^ b * 2 ^ (c + 1) := Nat.mul_le_mul_right _ hge
        _ = num * 2 ^ (c + 1) * 2 ^ b := Nat.mul_right_comm ..
  · rename_i hlt
    constructor
    · refine Nat.lt_of_mul_lt_mul_right (a := 2 ^ b) ?_
      calc num * 2 ^ c * 2 ^ b = num * 2 ^ b * 2 ^ c := Nat.mul_right_comm ..
        _ < den * 2 ^ a * 2 ^ c := Nat.mul_lt_mul_of_pos_right (Nat.lt_of_not_le hlt) (Nat.two_pow_pos c)
        _ = den * 2 ^ (a + c) := by rw [Nat.mul_assoc, ← Nat.pow_add]
        _ ≤ den * 2 ^ (t + b) := Nat.mul_le_mul_left _ (Nat.pow_le_pow_right (by decide) (by omega))
        _ = den * 2 ^ t * 2 ^ b := by rw [Nat.mul_assoc, ← Nat.pow_add]
    · refine (Nat.eq_zero_or_pos t).imp_right fun hpos => ?_
      calc den * 2 ^ t ≤ 2 ^ (b + 1) * 2 ^ t := Nat.mul_le_mul_right _ hdenHigh.le
        _ = 2 ^ a * 2 ^ (c + 1) := by rw [← Nat.pow_add, ← Nat.pow_add]; congr 1; omega
        _ ≤ num * 2 ^ (c + 1) := Nat.mul_le_mul_right _ hnumLow

theorem isQuantum_log2Ratio {num den : Nat} (hnum : num ≠ 0) (hden : den ≠ 0) :
    IsQuantum num den (log2Ratio num den - (2000 - 1022)) := by
  -- `k` for 1074, so that no tactic evaluates the power
  have hbounds : ∀ k, 53 ≤ k → k ≤ 2052 → ∀ t, t = log2Ratio num den - (2052 - k) →
      num * 2 ^ k < 2 ^ 53 * (den * 2 ^ t) ∧ (t = 0 ∨ 2 ^ 52 * (den * 2 ^ t) ≤ num * 2 ^ k) := by
    intro k hlow hhigh t ht
    obtain ⟨c, rfl⟩ := Nat.exists_eq_add_of_le' hlow
    obtain ⟨hupper, hlower⟩ := log2Ratio_bounds (c := c) (t := t) hnum hden (by omega) (by omega)
    rw [Nat.pow_succ] at hlower
    rw [Nat.pow_add]
    exact ⟨by linarith, hlower.imp_right fun hle => by linarith⟩
  obtain ⟨hupper, hlower⟩ := hbounds 1074 (by decide) (by decide) _ rfl
  exact ⟨hupper, hlower⟩

theorem mul_two_pow_pos {den : Nat} (hden : den ≠ 0) (t : Nat) : 0 < den * 2 ^ t :=
  Nat.mul_pos (Nat.pos_of_ne_zero hden) (Nat.two_pow_pos t)

theorem IsQuantum.quotient {num den t : Nat} (h : IsQuantum num den t) (hden : den ≠ 0) :
    num * 2 ^ 1074 / (den * 2 ^ t) < 2 ^ 53 ∧ (t = 0 ∨ 2 ^ 52 ≤ num * 2 ^ 1074 / (den * 2 ^ t)) :=
  ⟨(Nat.div_lt_iff_lt_mul (mul_two_pow_pos hden t)).mpr h.upper,
    h.lower.imp_right (Nat.le_div_iff_mul_le (mul_two_pow_pos hden t)).mpr⟩

theorem IsQuantum.significand {num den t : Nat} (h : IsQuantum num den t) (hden : den ≠ 0) :
    roundHalfEven (num * 2 ^ 1074) (den * 2 ^ t) ≤ 2 ^ 53 ∧
      (t = 0 ∨ 2 ^ 52 ≤ roundHalfEven (num * 2 ^ 1074) (den * 2 ^ t)) := by
  obtain ⟨hupper, hlower⟩ := h.quotient hden
  obtain hround | hround := roundHalfEven_eq_or (num * 2 ^ 1074) (den * 2 ^ t) <;> omega

theorem IsQuantum.lt_of_bound {num den t : Nat} (h : IsQuantum num den t) (hbound : num < den * 2 ^ 200) :
    t < 1222 := by
  -- `j` and `k` for the exponents, so that no tactic evaluates the powers
  have hexponents : ∀ j k, num < den * 2 ^ j → 2 ^ 52 * (den * 2 ^ t) ≤ num * 2 ^ k → 52 + t < j + k := by
    intro j k hj hk
    refine (Nat.pow_lt_pow_iff_right (a := 2) (by decide)).mp (Nat.lt_of_mul_lt_mul_left (a := den) ?_)
    calc den * 2 ^ (52 + t) = 2 ^ 52 * (den * 2 ^ t) := by rw [Nat.pow_add, Nat.mul_left_comm]
      _ ≤ num * 2 ^ k := hk
      _ < den * 2 ^ j * 2 ^ k := Nat.mul_lt_mul_of_pos_right hj (Nat.two_pow_pos k)
      _ = den * 2 ^ (j + k) := by rw [Nat.mul_assoc, ← Nat.pow_add]
  obtain hzero | hlower := h.lower
  · omega
  · have hlt := hexponents 200 1074 hbound hlower
    omega

theorem nearest64_zero (den : Nat) : nearest64 0 den = 0 := rfl

/-- What `nearest64` gives for a rational that is not too large: the significand rounded at the quantum, and no
overflow. -/
theorem nearest64_eq {num den : Nat} (hden : den ≠ 0) (hbound : num < den * 2 ^ 200) :
    ∃ t, IsQuantum num den t ∧ nearest64 num den < infinity64 ∧
      nearest64 num den = t * 2 ^ 52 + roundHalfEven (num * 2 ^ 1074) (den * 2 ^ t) := by
  by_cases hnum : num = 0
  · subst hnum
    have hpos := mul_two_pow_pos hden 0
    refine ⟨0, ⟨?_, .inl rfl⟩, by rw [nearest64_zero]; decide, ?_⟩
    · rw [Nat.zero_mul]
      exact Nat.mul_pos (by decide) hpos
    · rw [nearest64_zero, Nat.zero_mul, Nat.zero_mul, roundHalfEven_zero hpos]
  · have hq := isQuantum_log2Ratio hnum hden
    obtain ⟨hle, -⟩ := hq.significand hden
    have ht := hq.lt_of_bound hbound
    have hfinite : ∀ t mant, t < 1222 → mant ≤ 2 ^ 53 → t * 2 ^ 52 + mant < infinity64 := by
      intro t mant ht hmant
      rw [infinity64]
      omega
    have hlt := hfinite _ _ ht hle
    have hmin : nearest64 num den = _ := (if_neg hnum).trans (Nat.min_eq_left hlt.le)
    exact ⟨_, hq, hmin ▸ hlt, hmin⟩

/-- The magnitude of the result, over that of the least subnormal. -/
theorem magnitude64_nearest64 {num den t : Nat} (hden : den ≠ 0) (hq : IsQuantum num den t)
    (h : nearest64 num den = t * 2 ^ 52 + roundHalfEven (num * 2 ^ 1074) (den * 2 ^ t)) :
    magnitude64 (nearest64 num den) = roundHalfEven (num * 2 ^ 1074) (den * 2 ^ t) * 2 ^ t := by
  obtain ⟨hle, hnormal⟩ := hq.significand hden
  rw [h, magnitude64_of_significand hle hnormal]

/-! ### Finite binary32 values -/

theorem isInf32_of_isFinite32 {u : Bits32} (h : isFinite32 u = true) : isInf32 u = false := by
  rw [isFinite32, bne_iff_ne] at h
  simp [isInf32, h]

theorem significand32_lt (u : Bits32) : significand32 u < 2 ^ 24 := by
  have hfrac : frac32 u < 2 ^ 23 := (u.extractLsb' 0 23).isLt
  rw [significand32]
  split <;> omega

theorem scale32_le {u : Bits32} (h : isFinite32 u = true) : scale32 u ≤ 253 := by
  have hexp : exp32 u < 2 ^ 8 := (u.extractLsb' 23 8).isLt
  rw [isFinite32, bne_iff_ne] at h
  rw [scale32]
  omega

/-- The magnitude of a finite binary32 value lies below `2 ^ 128`. -/
theorem finite32_lt {u : Bits32} (h : isFinite32 u = true) (k : Nat) (hk : 128 ≤ k) :
    significand32 u * 2 ^ scale32 u < 2 ^ 149 * 2 ^ k :=
  calc significand32 u * 2 ^ scale32 u < 2 ^ 24 * 2 ^ scale32 u :=
        Nat.mul_lt_mul_of_pos_right (significand32_lt u) (Nat.two_pow_pos _)
    _ = 2 ^ (24 + scale32 u) := (Nat.pow_add ..).symm
    _ ≤ 2 ^ (149 + k) := Nat.pow_le_pow_right (by decide) (by have := scale32_le h; omega)
    _ = 2 ^ 149 * 2 ^ k := Nat.pow_add ..

/-! ### Widening (R188) -/

/-- A rational that is a whole number of its quanta is not rounded. -/
theorem magnitude64_nearest64_exact {num den : Nat} (hden : den ≠ 0) (hbound : num < den * 2 ^ 200)
    (hdvd : ∀ t, IsQuantum num den t → den * 2 ^ t ∣ num * 2 ^ 1074) :
    (magnitude64 (nearest64 num den) : ℚ) / (2 ^ 1074 : ℕ) = num / den := by
  obtain ⟨t, hq, -, hm⟩ := nearest64_eq hden hbound
  obtain ⟨k, hk⟩ := hdvd t hq
  rw [magnitude64_nearest64 hden hq hm, hk, Nat.mul_comm (den * 2 ^ t) k, roundHalfEven_of_mul (mul_two_pow_pos hden t),
    div_eq_div_iff (Nat.cast_ne_zero.mpr (Nat.two_pow_pos _).ne') (Nat.cast_ne_zero.mpr hden), ← Nat.cast_mul,
    ← Nat.cast_mul, hk, Nat.mul_assoc, Nat.mul_comm (2 ^ t), Nat.mul_comm k]

theorem finite32_quanta (u : Bits32) {t : Nat} (hq : IsQuantum (significand32 u * 2 ^ scale32 u) (2 ^ 149) t) :
    2 ^ 149 * 2 ^ t ∣ significand32 u * 2 ^ scale32 u * 2 ^ 1074 := by
  -- `k` for 1074, as above
  have hexponents : ∀ k, 2 ^ 52 * (2 ^ 149 * 2 ^ t) ≤ significand32 u * 2 ^ scale32 u * 2 ^ k →
      52 + (149 + t) < 24 + (scale32 u + k) := by
    intro k hk
    refine (Nat.pow_lt_pow_iff_right (a := 2) (by decide)).mp ?_
    calc 2 ^ (52 + (149 + t)) = 2 ^ 52 * (2 ^ 149 * 2 ^ t) := by rw [Nat.pow_add, Nat.pow_add 2 149]
      _ ≤ significand32 u * (2 ^ scale32 u * 2 ^ k) := by rwa [Nat.mul_assoc (significand32 u)] at hk
      _ < 2 ^ 24 * (2 ^ scale32 u * 2 ^ k) :=
        Nat.mul_lt_mul_of_pos_right (significand32_lt u) (Nat.mul_pos (Nat.two_pow_pos _) (Nat.two_pow_pos _))
      _ = 2 ^ (24 + (scale32 u + k)) := by rw [← Nat.pow_add, ← Nat.pow_add]
  have hle : 149 + t ≤ scale32 u + 1074 := by
    obtain rfl | hlower := hq.lower
    · omega
    · have hlt := hexponents 1074 hlower
      omega
  rw [Nat.mul_assoc, ← Nat.pow_add, ← Nat.pow_add]
  exact Dvd.dvd.mul_left (Nat.pow_dvd_pow 2 hle) _

theorem widen64_of_isFinite32 {u : Bits32} (h : isFinite32 u = true) :
    widen64 u = withSign64 (sign32 u) (nearest64 (significand32 u * 2 ^ scale32 u) (2 ^ 149)) := by
  rw [widen64, isInf32_of_isFinite32 h, if_neg Bool.false_ne_true]

/-- Settles O12: a finite binary32 value is a whole number of the quanta of its binary64 result. -/
theorem wideningIsExact : Obligations.WideningIsExact := by
  intro u
  refine ⟨fun hfin => ?_, fun hinf => ?_⟩
  · have hbound := finite32_lt hfin 200 (by decide)
    obtain ⟨-, -, hlt, -⟩ := nearest64_eq (Nat.two_pow_pos 149).ne' hbound
    have hm := hlt.trans infinity64_lt
    rw [widen64_of_isFinite32 hfin]
    refine ⟨isFinite64_withSign64 hlt _, ?_, sign64_withSign64 hm _⟩
    rw [value64_withSign64 hm, value32_eq,
      magnitude64_nearest64_exact (Nat.two_pow_pos 149).ne' hbound fun _ => finite32_quanta u]
  · rw [widen64, if_pos hinf]
    cases sign32 u <;> decide

/-! ### Decimal rounding (R188, D35) -/

/-- The nearer end of a bracket is at least as near as anything outside the bracket, and a tie is with its other end. -/
theorem nearest_of_bracket {y z : ℚ} {q f : Nat} (hlow : (q : ℚ) ≤ y) (hhigh : y < q + 1) (hf : f = q ∨ f = q + 1)
    (hnear : |y - f| ≤ 1 / 2) (hz : z ≤ q ∨ (q : ℚ) + 1 ≤ z) :
    |f - y| ≤ |z - y| ∧ (|f - y| = |z - y| → z ≠ f → |y - f| = 1 / 2) := by
  obtain rfl | rfl := hf
  · obtain hz | hz := hz
    · rw [abs_of_nonpos (by linarith), abs_of_nonpos (by linarith)]
      exact ⟨by linarith, fun heq hne => absurd (by linarith) hne⟩
    · rw [abs_of_nonneg (by linarith)] at hnear
      rw [abs_of_nonpos (by linarith), abs_of_nonneg (by linarith), abs_of_nonneg (by linarith)]
      exact ⟨by linarith, fun heq _ => by linarith⟩
  · rw [Nat.cast_succ] at *
    obtain hz | hz := hz
    · rw [abs_of_nonpos (by linarith)] at hnear
      rw [abs_of_nonneg (by linarith), abs_of_nonpos (by linarith), abs_of_nonpos (by linarith)]
      exact ⟨by linarith, fun heq _ => by linarith⟩
    · rw [abs_of_nonneg (by linarith), abs_of_nonneg (by linarith)]
      exact ⟨by linarith, fun heq hne => absurd (by linarith) hne⟩

/-- No binary64 magnitude lies strictly between the two multiples of the quantum about the rational. -/
theorem IsQuantum.magnitude64_outside {num den t : Nat} (h : IsQuantum num den t) (hden : den ≠ 0) (m : Nat) :
    magnitude64 m ≤ num * 2 ^ 1074 / (den * 2 ^ t) * 2 ^ t ∨
      (num * 2 ^ 1074 / (den * 2 ^ t) + 1) * 2 ^ t ≤ magnitude64 m := by
  obtain ⟨hupper, hlower⟩ := h.quotient hden
  generalize num * 2 ^ 1074 / (den * 2 ^ t) = q at *
  obtain hle | hlt := Nat.lt_or_ge (t * 2 ^ 52 + q) m
  · right
    rw [← magnitude64_of_significand (Nat.succ_le_of_lt hupper) (by omega)]
    exact magnitude64_mono (by omega)
  · left
    rw [← magnitude64_of_significand hupper.le hlower]
    exact magnitude64_mono hlt

theorem two_pow_cast_pos (k : Nat) : (0 : ℚ) < (2 ^ k : ℕ) := Nat.cast_pos.mpr (Nat.two_pow_pos k)

theorem div_bracket (den num : Nat) :
    ((num / den : ℕ) : ℚ) ≤ num / den ∧ (num : ℚ) / den < (num / den : ℕ) + 1 := by
  rw [← Nat.floor_div_eq_div (K := ℚ) num den]
  exact ⟨Nat.floor_le (by positivity), Nat.lt_floor_add_one _⟩

/-- So none lies strictly between them with either sign; `w` turns a value into a number of quanta. -/
theorem IsQuantum.value_outside {num den t m : Nat} {z w : ℚ} (h : IsQuantum num den t) (hden : den ≠ 0)
    (hw : w = (2 ^ 1074 : ℕ) / (2 ^ t : ℕ)) (hz : |z| = (magnitude64 m : ℚ) / (2 ^ 1074 : ℕ)) :
    z * w ≤ (num * 2 ^ 1074 / (den * 2 ^ t) : ℕ) ∨ ((num * 2 ^ 1074 / (den * 2 ^ t) : ℕ) : ℚ) + 1 ≤ z * w := by
  have hquantum := two_pow_cast_pos t
  have hunit := two_pow_cast_pos 1074
  have hwpos : 0 < w := hw ▸ div_pos hunit hquantum
  have habs : |z| * w = (magnitude64 m : ℚ) / (2 ^ t : ℕ) := by rw [hz, hw, div_mul_div_cancel₀ hunit.ne']
  obtain hle | hge := h.magnitude64_outside hden m
  · left
    refine (mul_le_mul_of_nonneg_right (le_abs_self z) hwpos.le).trans ?_
    rw [habs, div_le_iff₀ hquantum]
    exact_mod_cast hle
  · obtain hnonneg | hneg := le_or_gt 0 z
    · right
      rw [← abs_of_nonneg hnonneg, habs, le_div_iff₀ hquantum]
      exact_mod_cast hge
    · left
      exact (mul_nonpos_of_nonpos_of_nonneg hneg.le hwpos.le).trans (Nat.cast_nonneg _)

/-- `nearest64` gives the binary64 value nearest a rational, ties to even: every other is at least as far, and as far
only from an even one. -/
theorem nearest64_nearest {num den : Nat} (hden : den ≠ 0) (hbound : num < den * 2 ^ 200) {z : ℚ} {m : Nat}
    (hz : |z| = (magnitude64 m : ℚ) / (2 ^ 1074 : ℕ)) :
    |(magnitude64 (nearest64 num den) : ℚ) / (2 ^ 1074 : ℕ) - num / den| ≤ |z - num / den| ∧
      (|(magnitude64 (nearest64 num den) : ℚ) / (2 ^ 1074 : ℕ) - num / den| = |z - num / den| →
        z ≠ (magnitude64 (nearest64 num den) : ℚ) / (2 ^ 1074 : ℕ) → Even (nearest64 num den)) := by
  obtain ⟨t, hq, -, hm⟩ := nearest64_eq hden hbound
  have hunit := two_pow_cast_pos 1074
  have hquantum := two_pow_cast_pos t
  obtain ⟨w, hw⟩ : ∃ w : ℚ, w = (2 ^ 1074 : ℕ) / (2 ^ t : ℕ) := ⟨_, rfl⟩
  have hwpos : 0 < w := hw ▸ div_pos hunit hquantum
  have hquotient : (num : ℚ) / den * w = (num * 2 ^ 1074 : ℕ) / (den * 2 ^ t : ℕ) := by
    rw [hw, div_mul_div_comm, Nat.cast_mul, Nat.cast_mul]
  have hsignificand : (magnitude64 (nearest64 num den) : ℚ) / (2 ^ 1074 : ℕ) * w =
      (roundHalfEven (num * 2 ^ 1074) (den * 2 ^ t) : ℕ) := by
    rw [magnitude64_nearest64 hden hq hm, hw, div_mul_div_cancel₀ hunit.ne', Nat.cast_mul,
      mul_div_cancel_right₀ _ hquantum.ne']
  obtain ⟨hnear, heven⟩ := roundHalfEven_nearestEven (mul_two_pow_pos hden t) (num * 2 ^ 1074)
  obtain ⟨hlow, hhigh⟩ := div_bracket (den * 2 ^ t) (num * 2 ^ 1074)
  obtain ⟨hle, htie⟩ := nearest_of_bracket hlow hhigh (roundHalfEven_eq_or _ _) hnear
    (hq.value_outside hden hw hz)
  have hscale : ∀ a b : ℚ, |a * w - b * w| = |a - b| * w := fun a b => by
    rw [← sub_mul, abs_mul, abs_of_pos hwpos]
  rw [← hquotient, ← hsignificand, hscale, hscale] at hle htie
  refine ⟨le_of_mul_le_mul_right hle hwpos, fun heq hne => ?_⟩
  have hhalf := htie (by rw [heq]) fun hzw => hne (mul_right_cancel₀ hwpos.ne' hzw)
  rw [hsignificand, hquotient] at hhalf
  rw [hm]
  exact (Even.mul_left (by decide) t).add (heven hhalf)

theorem lsb_withSign64 {m : Nat} (hm : m < 2 ^ 63) (heven : Even m) (neg : Bool) :
    (withSign64 neg m).getLsbD 0 = false := by
  have hmod := Nat.even_iff.mp heven
  rw [BitVec.getLsbD, withSign64_toNat hm, Nat.testBit_zero, decide_eq_false_iff_not]
  split <;> omega

theorem exists_abs_value64 (z : Bits64) : ∃ m, |value64 z| = (magnitude64 m : ℚ) / (2 ^ 1074 : ℕ) := by
  obtain ⟨neg, m, hm, rfl⟩ := exists_withSign64 z
  refine ⟨m, ?_⟩
  rw [value64_withSign64 hm, abs_signFactor_mul, abs_of_nonneg (by positivity)]

/-- The signed rounding of the magnitude, as an integer. -/
theorem exists_signed (neg : Bool) (f : Nat) : ∃ n : ℤ, (n : ℚ) = signFactor neg * f ∧ (Even f → Even n) := by
  cases neg with
  | false => exact ⟨f, by simp [signFactor], fun h => by exact_mod_cast h⟩
  | true => exact ⟨-f, by simp [signFactor], fun h => by simpa using h⟩

/-- The distance of two values of one sign is that of their magnitudes. -/
theorem abs_sub_signFactor_mul (neg : Bool) (x y : ℚ) : |x - signFactor neg * y| = |signFactor neg * x - y| := by
  rw [← abs_signFactor_mul neg, mul_sub, ← mul_assoc, signFactor_mul_self, one_mul]

/-- The same of the encodings with a sign: no finite binary64 value lies nearer the signed rational, and one as near
leaves an even encoding. -/
theorem withSign64_nearest64_nearest {num den : Nat} (hden : den ≠ 0) (hbound : num < den * 2 ^ 200) (neg : Bool)
    (z : Bits64) :
    |value64 (withSign64 neg (nearest64 num den)) - signFactor neg * (num / den)| ≤
        |value64 z - signFactor neg * (num / den)| ∧
      (|value64 (withSign64 neg (nearest64 num den)) - signFactor neg * (num / den)| =
          |value64 z - signFactor neg * (num / den)| →
        value64 z ≠ value64 (withSign64 neg (nearest64 num den)) →
          (withSign64 neg (nearest64 num den)).getLsbD 0 = false) := by
  obtain ⟨-, -, hlt, -⟩ := nearest64_eq hden hbound
  have hm := hlt.trans infinity64_lt
  obtain ⟨m, hz⟩ := exists_abs_value64 z
  rw [← abs_signFactor_mul neg] at hz
  obtain ⟨hle, htie⟩ := nearest64_nearest hden hbound hz
  have hvalue : signFactor neg * value64 (withSign64 neg (nearest64 num den)) =
      (magnitude64 (nearest64 num den) : ℚ) / (2 ^ 1074 : ℕ) := by
    rw [value64_withSign64 hm, ← mul_assoc, signFactor_mul_self, one_mul]
  rw [abs_sub_signFactor_mul, abs_sub_signFactor_mul, hvalue]
  refine ⟨hle, fun heq hne => lsb_withSign64 hm (htie heq fun hsame => hne ?_) neg⟩
  exact mul_left_cancel₀ (left_ne_zero_of_mul_eq_one (signFactor_mul_self neg)) (hsame.trans hvalue.symm)

/-- The magnitude that decimal rounding takes to an integer. -/
theorem abs_value32_mul_sub (u : Bits32) (p f : Nat) :
    |value32 u * 10 ^ p - signFactor (sign32 u) * f| =
      |((significand32 u * 2 ^ scale32 u * 10 ^ p : ℕ) : ℚ) / (2 ^ 149 : ℕ) - f| := by
  rw [value32_eq, mul_assoc, ← mul_sub, abs_signFactor_mul, Nat.cast_mul _ (10 ^ p), Nat.cast_pow 10,
    Nat.cast_ofNat, div_mul_eq_mul_div]

theorem roundDec_of_isFinite32 {u : Bits32} (h : isFinite32 u = true) (p : Nat) :
    roundDec u p = withSign64 (sign32 u)
      (nearest64 (roundHalfEven (significand32 u * 2 ^ scale32 u * 10 ^ p) (2 ^ 149)) (10 ^ p)) := by
  rw [roundDec, isInf32_of_isFinite32 h, if_neg Bool.false_ne_true]

theorem roundedInteger_lt {u : Bits32} (h : isFinite32 u = true) (p : Nat) :
    roundHalfEven (significand32 u * 2 ^ scale32 u * 10 ^ p) (2 ^ 149) < 10 ^ p * 2 ^ 200 := by
  have hten : 0 < 10 ^ p := Nat.pos_of_ne_zero (by positivity)
  have hscaled : significand32 u * 2 ^ scale32 u * 10 ^ p < 2 ^ 128 * 10 ^ p * 2 ^ 149 := by
    have hlt := Nat.mul_lt_mul_of_pos_right (finite32_lt h 128 (by decide)) hten
    rwa [Nat.mul_assoc (2 ^ 149), Nat.mul_comm (2 ^ 149)] at hlt
  have hquotient := (Nat.div_lt_iff_lt_mul (Nat.two_pow_pos 149)).mpr hscaled
  obtain hround | hround := roundHalfEven_eq_or (significand32 u * 2 ^ scale32 u * 10 ^ p) (2 ^ 149) <;> omega

/-- Settles O13: both roundings are to nearest even of the magnitude, and the sign is a factor of every distance. -/
theorem decimalRoundingIsNearestEven : Obligations.DecimalRoundingIsNearestEven := by
  intro u p _
  refine ⟨fun hfin => ?_, fun hinf => by rw [roundDec, widen64, if_pos hinf, if_pos hinf]⟩
  have hbound := roundedInteger_lt hfin p
  obtain ⟨hnear, heven⟩ :=
    roundHalfEven_nearestEven (Nat.two_pow_pos 149) (significand32 u * 2 ^ scale32 u * 10 ^ p)
  rw [roundDec_of_isFinite32 hfin]
  generalize roundHalfEven (significand32 u * 2 ^ scale32 u * 10 ^ p) (2 ^ 149) = f at *
  have hten : 10 ^ p ≠ 0 := by positivity
  obtain ⟨-, -, hlt, -⟩ := nearest64_eq hten hbound
  obtain ⟨n, hn, hneven⟩ := exists_signed (sign32 u) f
  rw [← abs_value32_mul_sub, ← hn] at hnear heven
  refine ⟨n, hnear, fun htie => hneven (heven htie), isFinite64_withSign64 hlt _,
    sign64_withSign64 (hlt.trans infinity64_lt) _, fun z _ => ?_⟩
  have hnearest := withSign64_nearest64_nearest hten hbound (sign32 u) z
  rwa [← mul_div_assoc, ← hn, Nat.cast_pow, Nat.cast_ofNat] at hnearest

end Sys2Proof.Machine
end

section
/-! PROOFS. The transport contract (45_framer_contract.md): what the transport keeps, discards and hands over of its
buffer. -/

namespace Sys2Proof.Machine

/-! ### The buffer once a chunk has been appended (R202 to R206) -/

/-- R202 and R203: an empty buffer and one of another device are alike, as neither starts with our address. -/
theorem frameBuffer_of_other_device {cfg : Config} {buf : List Byte} (h : buf[0]? ≠ some cfg.devAddr) :
    frameBuffer cfg buf = (none, []) := by
  cases buf with
  | nil => rfl
  | cons b rest =>
    have hb : b ≠ cfg.devAddr := by simpa using h
    rw [frameBuffer, if_pos hb]

theorem frameBuffer_of_our_device {cfg : Config} {buf : List Byte} (h : buf[0]? = some cfg.devAddr) :
    frameBuffer cfg buf =
      if buf.length < 8 ∨ buf.length < expectedLength buf then (none, buf)
      else if frameCheck (buf.take (expectedLength buf)) then (some (buf.take (expectedLength buf)), [])
      else (none, []) := by
  cases buf with
  | nil => cases h
  | cons b rest =>
    have hb : ¬ b ≠ cfg.devAddr := by simpa using h
    rw [frameBuffer, if_neg hb, ite_or]

section
variable {cfg : Config} {buf : List Byte} (hours : buf[0]? = some cfg.devAddr)
include hours

/-- R204 and R205: an incomplete frame waits for its next bytes. -/
theorem frameBuffer_of_incomplete (h : buf.length < 8 ∨ buf.length < expectedLength buf) :
    frameBuffer cfg buf = (none, buf) := by
  rw [frameBuffer_of_our_device hours, if_pos h]

/-- R206: a complete frame leaves the buffer, whether it passes the frame check or not. -/
theorem frameBuffer_of_complete (h8 : 8 ≤ buf.length) (hlen : expectedLength buf ≤ buf.length) :
    frameBuffer cfg buf =
      (if frameCheck (buf.take (expectedLength buf)) then some (buf.take (expectedLength buf)) else none, []) := by
  rw [frameBuffer_of_our_device hours, if_neg (by omega)]
  split <;> rfl

end

/-! ### The arrival of a chunk (R201) -/

section
variable {s : State} {chunk buf : List Byte} (hf : s.fault = none)
include hf

theorem receiveChunk_of_none (h : frameBuffer s.cfg (s.lineBuf ++ chunk) = (none, buf)) :
    receiveChunk chunk s = .next { s with lineBuf := buf } := by
  rw [receiveChunk, running_of_none hf, h]
  rfl

theorem receiveChunk_of_some {f : List Byte} (h : frameBuffer s.cfg (s.lineBuf ++ chunk) = (some f, buf)) :
    receiveChunk chunk s = .next { s with lineBuf := buf, busIn := s.busIn ++ [f] } := by
  rw [receiveChunk, running_of_none hf, h]
  rfl

end

/-- Settles O58: the rules ask whose buffer it is, whether it is complete, and whether it passes the frame check. -/
theorem transportFollowsItsFramingRules : Obligations.TransportFollowsItsFramingRules := by
  rintro s chunk buf hf rfl
  simp only [← expectedLength_eq]
  refine ⟨fun hnil => ?empty, fun _ hother => ?otherDevice, fun hours hshort => ?short,
    fun hours _ hshort => ?incomplete, fun hours h8 hlen hpass => ?passes, fun hours h8 hlen hfail => ?fails⟩
  case empty => exact receiveChunk_of_none hf (by rw [hnil, frameBuffer])
  case otherDevice => exact receiveChunk_of_none hf (frameBuffer_of_other_device hother)
  case short => exact receiveChunk_of_none hf (frameBuffer_of_incomplete hours (.inl hshort))
  case incomplete => exact receiveChunk_of_none hf (frameBuffer_of_incomplete hours (.inr hshort))
  case passes => exact receiveChunk_of_some hf (by rw [frameBuffer_of_complete hours h8 hlen, if_pos hpass])
  case fails => exact receiveChunk_of_none hf (by rw [frameBuffer_of_complete hours h8 hlen, hfail]; rfl)

/-! ### A frame that arrives in two chunks -/

/-- The length of a frame is known from its first 7 bytes (R64). -/
theorem expectedLength_append {first : List Byte} (h : 7 ≤ first.length) (second : List Byte) :
    expectedLength (first ++ second) = expectedLength first := by
  rw [expectedLength, expectedLength, List.getD_append _ _ _ 1 (by omega), List.getD_append _ _ _ 6 (by omega)]

theorem frameBuffer_of_accepts {cfg : Config} {f : List Byte} (h : accepts cfg f = true) :
    frameBuffer cfg f = (some f, []) := by
  simp only [accepts, Bool.and_eq_true, decide_eq_true_eq, beq_iff_eq, List.head?_eq_getElem?] at h
  obtain ⟨⟨⟨h8, hours⟩, hlen⟩, hcheck⟩ := h
  rw [frameBuffer_of_complete hours h8 hlen.ge, ← hlen, List.take_length, if_pos hcheck]

/-- The part starts with the address of the whole frame, and from 7 bytes on it asks for the length of the whole frame,
which it has not reached. -/
theorem frameBuffer_of_properPart {cfg : Config} {first second : List Byte}
    (h : accepts cfg (first ++ second) = true) (hsecond : second ≠ []) : frameBuffer cfg first = (none, first) := by
  rcases eq_or_ne first [] with rfl | hfirst
  · rfl
  obtain ⟨-, hours, hlen, -⟩ := (accepts_iff cfg (first ++ second)).mp h
  rw [List.getElem?_append_left (List.length_pos_iff.mpr hfirst)] at hours
  rw [← expectedLength_eq, List.length_append] at hlen
  have hpos : 0 < second.length := List.length_pos_iff.mpr hsecond
  refine frameBuffer_of_incomplete hours (or_iff_not_imp_left.mpr fun h8 => ?_)
  rw [expectedLength_append (by omega)] at hlen
  omega

/-- Settles O59: a proper part of an accepted frame is kept, and the second chunk completes it. -/
theorem transportHandsOverASplitFrame : Obligations.TransportHandsOverASplitFrame := by
  rintro s f first second hf hbuf hacc rfl hsecond
  have hkept : frameBuffer s.cfg (s.lineBuf ++ first) = (none, first) := by
    rw [hbuf, List.nil_append, frameBuffer_of_properPart hacc hsecond]
  refine ⟨_, receiveChunk_of_none hf hkept, rfl, ?_⟩
  have hhanded := receiveChunk_of_some (s := { s with lineBuf := first }) hf (frameBuffer_of_accepts hacc)
  rwa [← hbuf] at hhanded

end Sys2Proof.Machine
end

section
/-! PROOFS. Exceptions (60_exceptions.md): the block performs nothing once it has stopped, and the bus agent never stops
it. -/

namespace Sys2Proof.Machine

/-! ### A stopped block (R226) -/

/-- Every meaning first asks whether the block is running. -/
theorem exec_eq_running (i : Instr) (s : State) : ∃ next, exec i s = running s next := by
  cases i <;> exact ⟨_, rfl⟩

/-- Settles O21: the step and every meaning run only while the fault register is NONE. -/
theorem stoppedBlockPerformsNothing : Obligations.StoppedBlockPerformsNothing := by
  intro s why hstopped
  refine ⟨running_of_some hstopped _, fun i => ?_⟩
  obtain ⟨next, hexec⟩ := exec_eq_running i s
  rw [hexec, running_of_some hstopped]

/-! ### The stages of a request raise no fault (R134, R226) -/

section
variable {s : State} (hf : s.fault = none)
include hf

theorem noFault_respond (f : List Byte) : NoFault (respond f s) := ⟨s.emit f, rfl, hf⟩

theorem noFault_enterStage (i : Instr) (stage : Stage) : NoFault (enterStage i stage s) :=
  ⟨s.withBus (.busy i stage), rfl, hf⟩

theorem noFault_guardStage (i : Instr) (k : Nat) (dev fc : Byte) (ok : Bool) :
    NoFault (guardStage i k dev fc ok s) := by
  unfold guardStage
  split
  · exact noFault_respond hf _
  · split
    · exact noFault_enterStage hf i _
    · exact noFault_respond hf _

theorem noFault_validateStage (i : Instr) (k : Nat) (dev fc : Byte) (addr : Word) (n : Nat) (following : Stage) :
    NoFault (validateStage i k dev fc addr n following s) := by
  unfold validateStage
  split
  · exact noFault_enterStage hf i _
  · exact noFault_respond hf _

/-- An invalid range is answered and not raised (R134). -/
theorem noFault_getStage (k : Nat) (dev fc : Byte) (addr : Word) (n : Nat) (answer : List Word → List Byte) :
    NoFault (getStage k dev fc addr n s answer) := by
  unfold getStage
  split <;> exact noFault_respond hf _

theorem noFault_setStage {k : Nat} {addr : Word} {vals : List Word}
    (hset : storeSet s.cfg s.store k addr.toNat vals ≠ none) {next : State → Result}
    (hnext : ∀ u : State, u.fault = none → NoFault (next u)) : NoFault (setStage k addr vals s next) := by
  obtain ⟨st, hst⟩ := Option.ne_none_iff_exists'.mp hset
  rw [setStage_of_storeSet hst]
  exact hnext (s.withStore st) hf

theorem noFault_onBus_inFlight {i : Instr} {stage : Stage} {perform : Stage → Result} (hb : s.bus = .busy i stage)
    (h : NoFault (perform stage)) : NoFault (onBus i s perform) := by
  rwa [onBus_inFlight hf hb]

end

/-! ### The set of a consistent request is not refused (R45, R248) -/

/-- The quantity check makes a write's words as many as the cells it validated (D7). -/
theorem writes_length_of_quantityOk {i : Instr} {r : RequestShape} (hr : requestShape i = some r)
    (hset : .set ∈ r.stages) (hq : r.quantityOk = true) : r.writes.length = r.count := by
  cases i <;> cases hr
  case readCoils | readDiscreteInputs | readHoldingRegisters | readInputRegisters => simp at hset
  case writeSingleCoil | writeSingleRegister => rfl
  case writeMultipleCoils => exact coilWords_length _ _
  case writeMultipleRegisters => exact unpackWords_length (of_decide_eq_true hq)

/-- Past its validation a request has all its cells, or its class may grow. -/
theorem StageOk.storeSet_ne_none {s : State} {i : Instr} {r : RequestShape} (h : StageOk s i r .set)
    (hr : requestShape i = some r) : storeSet s.cfg s.store r.cls r.addr.toNat r.writes ≠ none := by
  rw [Ne, storeSet_eq_none_iff, writes_length_of_quantityOk hr h.ofRequest (h.quantity (by decide))]
  rintro ⟨hgrow, habsent⟩
  exact habsent ((storeValidate_iff_rangePresent _ _ _ _).mp (h.present (.inl rfl) hgrow)).2

theorem noFault_exec_set {i : Instr} {r : RequestShape} {s : State} (hr : requestShape i = some r)
    (hf : s.fault = none) (hb : s.bus = .busy i .set) (hok : StageOk s i r .set) : NoFault (exec i s) := by
  have hstored := hok.storeSet_ne_none hr
  have hset := hok.ofRequest
  cases i <;> cases hr
  case readCoils | readDiscreteInputs | readHoldingRegisters | readInputRegisters => simp at hset
  case writeSingleCoil =>
    rw [← fromBool_truth] at hstored
    exact noFault_onBus_inFlight hf hb (noFault_setStage hf hstored fun _ hu => noFault_enterStage hu _ _)
  case writeSingleRegister =>
    exact noFault_onBus_inFlight hf hb (noFault_setStage hf hstored fun _ hu => noFault_enterStage hu _ _)
  case writeMultipleCoils | writeMultipleRegisters =>
    exact noFault_onBus_inFlight hf hb (noFault_setStage hf hstored fun _ hu => noFault_respond hu _)

/-! ### The turn raises no fault -/

section
variable {s : State} (hf : s.fault = none)
include hf

theorem noFault_exec_inFlight {i : Instr} {stage : Stage} (hcon : busConsistent s) (hb : s.bus = .busy i stage) :
    NoFault (exec i s) := by
  obtain ⟨r, hr, -⟩ := hcon i stage hb
  have hok : StageOk s i r stage := (busConsistent_iff_stageOk hr hb).mp hcon
  cases stage with
  | guard =>
    rw [exec_guard hr hf hb]
    exact noFault_guardStage hf _ _ _ _ _
  | validate =>
    rw [exec_validate hr hf hb]
    exact noFault_validateStage hf _ _ _ _ _ _ _
  | set => exact noFault_exec_set hr hf hb hok
  | get =>
    obtain ⟨answer, hexec⟩ := exec_get hr hf hb hok.ofRequest
    rw [hexec]
    exact noFault_getStage hf _ _ _ _ _ _

theorem noFault_takeFrame (hb : s.bus = .idle) (f : List Byte) : NoFault (takeFrame f s) := by
  cases hacc : accepts s.cfg f with
  | false => exact ⟨s, takeFrame_of_not_accepts hf hb hacc, hf⟩
  | true =>
    cases hdec : decodeFrame f with
    | ok i =>
      rw [takeFrame_of_decode hdec, exec_request_of_idle (decodeFrame_request hdec) hf hb,
        frameBytes_of_decodeFrame hdec, if_pos hacc]
      exact noFault_enterStage hf i .guard
    | error why => exact ⟨_, takeFrame_of_unsupported hf hb hdec hacc, hf⟩

theorem noFault_receiveChunk (chunk : List Byte) : NoFault (receiveChunk chunk s) := by
  rcases hbuf : frameBuffer s.cfg (s.lineBuf ++ chunk) with ⟨handed, buf⟩
  cases handed with
  | none => exact ⟨_, receiveChunk_of_none hf hbuf, hf⟩
  | some f => exact ⟨_, receiveChunk_of_some hf hbuf, hf⟩

end

/-- Settles O26: the turn performs a stage of a consistent request, whose set is not refused, or takes what waits for
it. -/
theorem busTurnsNeverFault : Obligations.BusTurnsNeverFault := by
  intro s hinv hf ha
  cases hb : s.bus with
  | busy i stage =>
    rw [step_inFlight hf ha hb]
    exact noFault_exec_inFlight (s := { s with sched := s.sched.tail }) hf hinv.bus hb
  | idle =>
    cases hin : s.busIn with
    | cons f rest =>
      rw [step_takeFrame hf ha hb hin]
      exact noFault_takeFrame (s := { s with sched := s.sched.tail, busIn := rest }) hf hb f
    | nil =>
      cases hline : s.lineIn with
      | cons chunk rest =>
        rw [step_receiveChunk hf ha hb hin hline]
        exact noFault_receiveChunk (s := { s with sched := s.sched.tail, lineIn := rest }) hf chunk
      | nil => exact ⟨_, step_busAgent_pause hf ha hb hin hline, hf⟩

end Sys2Proof.Machine
end

section
/-! PROOFS. Power-on (70_reset_and_hazards.md section 1, 43_entities.md section 1): what constructing an entity does, what
power-on leaves, and that it meets the invariant. -/

namespace Sys2Proof.Machine

/-! ### What constructing one entity does (R172 to R174) -/

/-- The entity passes the checks of its construction, and its initial value has the representation `c`. -/
structure PassesChecks (cfg : Config) (b : Boot) (d : EntityDesc) (c : Cache) : Prop where
  range : storeValidate cfg b.store d.cls d.addr (widthOf d) = true
  repr : reprOf d d.initial = some c

/-- Everything the construction of one entity can do. -/
inductive Constructed (cfg : Config) (b : Boot) (d : EntityDesc) : Boot → Prop
  | stopped : b.fault ≠ none → Constructed cfg b d b
  | failed (why : FaultReason) : b.fault = none → Constructed cfg b d { b with fault := some why }
  | cached (c : Cache) : b.fault = none → PassesChecks cfg b d c → cfg.entityInit = .cacheOnly →
      Constructed cfg b d { b with caches := b.caches ++ [c] }
  | written (c : Cache) (st : Store) : b.fault = none → PassesChecks cfg b d c → cfg.entityInit = .writeThrough →
      storeSet cfg b.store d.cls d.addr (cacheWords c) = some st →
      Constructed cfg b d { b with store := st, caches := b.caches ++ [c] }

theorem constructEntity_constructed (cfg : Config) (b : Boot) (d : EntityDesc) :
    Constructed cfg b d (constructEntity cfg b d) := by
  unfold constructEntity
  split
  · rename_i why hf
    exact .stopped (by simp [hf])
  · rename_i hf
    split
    · exact .failed _ hf
    · rename_i hvalid
      simp only [Bool.not_eq_true', Bool.not_eq_false] at hvalid
      split
      · exact .failed _ hf
      · rename_i c hrepr
        split
        · exact .cached c hf ⟨hvalid, hrepr⟩ ‹_›
        · split
          · exact .failed _ hf
          · exact .written c _ hf ⟨hvalid, hrepr⟩ ‹_› ‹_›

/-- What holds before the first entity and is kept by the construction of each holds once power-on has ended. -/
theorem boot_induction {cfg : Config} {P : List EntityDesc → Boot → Prop} (start : P [] (bootStart cfg))
    (construct : ∀ ds d b b', P ds b → Constructed cfg b d b' → P (ds ++ [d]) b') : P cfg.entities (boot cfg) := by
  have hall : ∀ ds : List EntityDesc, P ds (ds.foldl (constructEntity cfg) (bootStart cfg)) := fun ds => by
    induction ds using List.reverseRecOn with
    | nil => exact start
    | append_singleton ds d ih =>
      rw [List.foldl_concat]
      exact construct ds d _ _ ih (constructEntity_constructed cfg _ d)
  exact hall cfg.entities

/-! ### The initial write of an entity (R174) -/

section
variable {cfg : Config} {b : Boot} {d : EntityDesc} {c : Cache} {st : Store} (hchecks : PassesChecks cfg b d c)
  (hset : storeSet cfg b.store d.cls d.addr (cacheWords c) = some st)
include hchecks

theorem PassesChecks.length : (cacheWords c).length = widthOf d := cacheWords_length (reprOf_fits hchecks.repr)

theorem PassesChecks.rangePresent : widthOf d ≠ 0 ∧
    Machine.rangePresent ((State.powerOn cfg).withStore b.store) d.cls d.addr (widthOf d) :=
  (storeValidate_iff_rangePresent ((State.powerOn cfg).withStore b.store) _ _ _).mp hchecks.range

include hset

theorem PassesChecks.changed : st.changed = true := by
  have hne : cacheWords c ≠ [] := mt List.length_eq_zero_iff.mpr (hchecks.length ▸ hchecks.rangePresent.1)
  exact (storeSet_changed_iff hset).mpr (.inr hne)

theorem PassesChecks.cells : ∀ j < widthOf d,
    ClassMap.find (st.map d.cls) (d.addr + cfg.addrOffset + j) = (cacheWords c)[j]? := by
  obtain ⟨hwidth, hpresent⟩ := hchecks.rangePresent
  have hclass : d.cls < b.store.mem.length := class_lt_of_readCell (hpresent 0 (Nat.pos_of_ne_zero hwidth))
  rw [← hchecks.length]
  exact rangeHolds_of_storeSet (s := (State.powerOn cfg).withStore b.store) (t := (State.powerOn cfg).withStore st)
    hclass rfl hset

/-- The cells an entity's initial write stores are present already, so that even a class that can grow does not. -/
theorem PassesChecks.isSome_find (k key : Nat) :
    (ClassMap.find (st.map k) key).isSome = (ClassMap.find (b.store.map k) key).isSome := by
  rw [storeSet_find _ _ _ _ _ _ hset]
  split
  · rename_i hin
    obtain ⟨rfl, -, hlow, hhigh⟩ := hin
    have hcell := hchecks.rangePresent.2 (key - keyOf cfg d.addr) (by rw [← hchecks.length]; omega)
    have hkey : d.addr + cfg.addrOffset + (key - keyOf cfg d.addr) = key := Nat.add_sub_cancel' hlow
    rw [List.getElem?_eq_getElem (by omega), Option.isSome_some]
    exact (hkey ▸ hcell : (ClassMap.find (b.store.map d.cls) key).isSome = true).symm
  · rfl

end

/-! ### What construction keeps -/

/-- After the construction of `ds` without a failing check: their caches, their ranges, the flag, and with CACHE_ONLY the
store. -/
structure EntitiesBuilt (cfg : Config) (ds : List EntityDesc) (b : Boot) : Prop where
  caches : b.caches.map some = ds.map (fun d => reprOf d d.initial)
  ranges : ∀ d ∈ ds, storeValidate cfg (snapshotStore cfg) d.cls d.addr (widthOf d) = true
  changed : b.store.changed = true ↔ cfg.entityInit = .writeThrough ∧ ds ≠ []
  cacheOnly : cfg.entityInit = .cacheOnly → b.store = snapshotStore cfg

/-- After the construction of `ds`, failed or not: the store is canonical and holds the snapshot's keys and no others. -/
structure BootInv (cfg : Config) (ds : List EntityDesc) (b : Boot) : Prop where
  store : StoreInv cfg b.store
  keys : ∀ k key, (ClassMap.find (b.store.map k) key).isSome = (ClassMap.find ((snapshotStore cfg).map k) key).isSome
  built : b.fault = none → EntitiesBuilt cfg ds b

theorem BootInv.ranges_concat {cfg : Config} {ds : List EntityDesc} {b : Boot} {d : EntityDesc} {c : Cache}
    (h : BootInv cfg ds b) (hf : b.fault = none) (hchecks : PassesChecks cfg b d c) :
    ∀ d' ∈ ds ++ [d], storeValidate cfg (snapshotStore cfg) d'.cls d'.addr (widthOf d') = true := by
  refine List.forall_mem_append.mpr ⟨(h.built hf).ranges, List.forall_mem_singleton.mpr ?_⟩
  obtain ⟨hwidth, hpresent⟩ := (storeValidate_iff _ _ _ _ _).mp hchecks.range
  exact (storeValidate_iff _ _ _ _ _).mpr ⟨hwidth, fun j hj => h.keys _ _ ▸ hpresent j hj⟩

theorem BootInv.caches_concat {cfg : Config} {ds : List EntityDesc} {b : Boot} {d : EntityDesc} {c : Cache}
    (h : BootInv cfg ds b) (hf : b.fault = none) (hchecks : PassesChecks cfg b d c) :
    (b.caches ++ [c]).map some = (ds ++ [d]).map (fun d => reprOf d d.initial) := by
  rw [List.map_append, List.map_append, (h.built hf).caches, List.map_singleton, List.map_singleton, hchecks.repr]

theorem Constructed.bootInv {cfg : Config} {ds : List EntityDesc} {b b' : Boot} {d : EntityDesc}
    (hc : Constructed cfg b d b') (h : BootInv cfg ds b) : BootInv cfg (ds ++ [d]) b' := by
  cases hc with
  | stopped hfault => exact ⟨h.store, h.keys, fun hf => absurd hf hfault⟩
  | failed => exact ⟨h.store, h.keys, nofun⟩
  | cached c hf hchecks hinit =>
    have hstore : b.store = snapshotStore cfg := (h.built hf).cacheOnly hinit
    exact ⟨h.store, h.keys, fun _ => ⟨h.caches_concat hf hchecks, h.ranges_concat hf hchecks,
      by simp [hstore, snapshotStore, hinit], fun _ => hstore⟩⟩
  | written c st hf hchecks hinit hset =>
    exact ⟨h.store.storeSet hset, fun k key => (hchecks.isSome_find hset k key).trans (h.keys k key),
      fun _ => ⟨h.caches_concat hf hchecks, h.ranges_concat hf hchecks,
        by simp [hchecks.changed hset, hinit], by simp [hinit]⟩⟩

theorem bootInv (cfg : Config) : BootInv cfg cfg.entities (boot cfg) := by
  refine boot_induction ⟨?_, fun _ _ => rfl, fun _ => ⟨rfl, by simp, by simp [bootStart], fun _ => rfl⟩⟩
    fun ds d b b' h hc => hc.bootInv h
  exact storeInv_storeReset cfg (bootStart cfg).store

/-! ### Power-on meets the invariant -/

theorem EntitiesBuilt.cacheFits {cfg : Config} {ds : List EntityDesc} {b : Boot} (h : EntitiesBuilt cfg ds b) {e : Nat}
    {d : EntityDesc} {c : Cache} (hd : ds[e]? = some d) (hc : b.caches[e]? = some c) : cacheFits d c = true := by
  have hrepr := congrArg (fun l => l[e]?) h.caches
  simp only [List.getElem?_map, hd, hc, Option.map_some, Option.some.injEq] at hrepr
  exact reprOf_fits hrepr.symm

/-- Settles O18: construction keeps the store canonical on the snapshot's keys, and gives each entity its cache. -/
theorem powerOnMeetsTheInvariant : Obligations.PowerOnMeetsTheInvariant := by
  intro cfg
  obtain ⟨hstore, -, hbuilt⟩ := bootInv cfg
  refine ⟨hstore.canonical, hstore.shaped, hstore.keepsKeys, hstore.immutableKeys, fun hf => ⟨?_, fun e d c hd hc =>
    (hbuilt hf).cacheFits hd hc⟩, fun hf => (hbuilt hf).ranges, busConsistent_of_idle rfl⟩
  have hlen := congrArg List.length (hbuilt hf).caches
  rwa [List.length_map, List.length_map] at hlen

/-- Settles O17: the reset state is power-on of EX-B (log 2). -/
theorem resetMeetsTheInvariant : Obligations.ResetMeetsTheInvariant := powerOnMeetsTheInvariant Config.exB

/-! ### The cells power-on leaves -/

/-- The cell is one of the entity's own (R171). -/
def Covers (cfg : Config) (d : EntityDesc) (k key : Nat) : Prop :=
  d.cls = k ∧ d.addr + cfg.addrOffset ≤ key ∧ key < d.addr + cfg.addrOffset + widthOf d

theorem Constructed.find_of_not_covers {cfg : Config} {b b' : Boot} {d : EntityDesc} (h : Constructed cfg b d b')
    {k key : Nat} (hfree : ¬ Covers cfg d k key) :
    ClassMap.find (b'.store.map k) key = ClassMap.find (b.store.map k) key := by
  cases h with
  | stopped | failed | cached => rfl
  | written c st hf hchecks hinit hset =>
    rw [storeSet_find _ _ _ _ _ _ hset, if_neg]
    rintro ⟨rfl, -, hlow, hhigh⟩
    exact hfree ⟨rfl, hlow, hchecks.length ▸ hhigh⟩

theorem find_foldl_constructEntity_of_not_covers {cfg : Config} {ds : List EntityDesc} {k key : Nat}
    (hfree : ∀ d ∈ ds, ¬ Covers cfg d k key) (b : Boot) :
    ClassMap.find ((ds.foldl (constructEntity cfg) b).store.map k) key = ClassMap.find (b.store.map k) key := by
  induction ds generalizing b with
  | nil => rfl
  | cons d ds ih =>
    obtain ⟨hd, hds⟩ := List.forall_mem_cons.mp hfree
    exact (ih hds _).trans ((constructEntity_constructed cfg b d).find_of_not_covers hd)

/-- With WRITE_THROUGH an entity constructed without a failing check leaves its initial words at its cells. -/
theorem Constructed.find_of_writeThrough {cfg : Config} {b b' : Boot} {d : EntityDesc} {c : Cache}
    (h : Constructed cfg b d b') (hf : b'.fault = none) (hinit : cfg.entityInit = .writeThrough)
    (hrepr : reprOf d d.initial = some c) : (cacheWords c).length = widthOf d ∧
    ∀ j < widthOf d, ClassMap.find (b'.store.map d.cls) (d.addr + cfg.addrOffset + j) = (cacheWords c)[j]? := by
  cases h with
  | stopped hfault => exact absurd hf hfault
  | failed => cases hf
  | cached _ _ _ hcacheOnly => cases hinit.symm.trans hcacheOnly
  | written c' st _ hchecks _ hset =>
    obtain rfl := Option.some.inj (hrepr.symm.trans hchecks.repr)
    exact ⟨hchecks.length, hchecks.cells hset⟩

/-- No check failed along the way, so each entity left its words, and only a later entity's write can have replaced one. -/
theorem find_boot_of_writeThrough {cfg : Config} {before after : List EntityDesc} {d : EntityDesc} {c : Cache}
    (hf : (boot cfg).fault = none) (hinit : cfg.entityInit = .writeThrough) (hsplit : cfg.entities = before ++ d :: after)
    (hrepr : reprOf d d.initial = some c) : (cacheWords c).length = widthOf d ∧
    ∀ j < widthOf d, (∀ d' ∈ after, ¬ Covers cfg d' d.cls (d.addr + cfg.addrOffset + j)) →
      ClassMap.find ((boot cfg).store.map d.cls) (d.addr + cfg.addrOffset + j) = (cacheWords c)[j]? := by
  have hboot : boot cfg = after.foldl (constructEntity cfg)
      (constructEntity cfg (before.foldl (constructEntity cfg) (bootStart cfg)) d) := by
    rw [boot, hsplit, List.foldl_append, List.foldl_cons]
  have hconstructed := constructEntity_constructed cfg (before.foldl (constructEntity cfg) (bootStart cfg)) d
  rw [hboot] at hf ⊢
  generalize constructEntity cfg (before.foldl (constructEntity cfg) (bootStart cfg)) d = b' at hconstructed hf ⊢
  have hclear : b'.fault = none := by
    by_contra hfault
    obtain ⟨why, hwhy⟩ := Option.ne_none_iff_exists'.mp hfault
    rw [foldl_constructEntity_of_fault cfg hwhy after, hwhy] at hf
    cases hf
  obtain ⟨hlen, hcells⟩ := hconstructed.find_of_writeThrough hclear hinit hrepr
  exact ⟨hlen, fun j hj hfree => (find_foldl_constructEntity_of_not_covers hfree b').trans (hcells j hj)⟩

/-- Settles O14: what construction keeps gives the flag, the caches and CACHE_ONLY; the cells are those each entity's write
left, and elsewhere the snapshot's. -/
theorem powerOnLeavesWhatTheConfigurationSays : Obligations.PowerOnLeavesWhatTheConfigurationSays := by
  intro cfg hf
  obtain ⟨hcaches, -, hchanged, hcacheOnly⟩ := (bootInv cfg).built hf
  refine ⟨hchanged, rfl, hcaches, hcacheOnly, fun hinit before after d c hsplit hrepr => ?_, fun k key hfree =>
    find_foldl_constructEntity_of_not_covers hfree (bootStart cfg)⟩
  have hcells := find_boot_of_writeThrough hf hinit hsplit hrepr
  cases c <;> exact hcells

end Sys2Proof.Machine
end

section
/-! PROOFS. Hazards (70_reset_and_hazards.md section 2): what one agent's operation between two of the other's makes of the
second. -/

namespace Sys2Proof.Machine

/-! ### A local write before the echo (R246) -/

theorem echo5_eq (form : CoilEcho) (w q : Word) :
    echo5 form w q = match form with
      | .std => if w = 0#16 then 0x0000#16 else 0xFF00#16
      | .raw => q
      | .word => w := by
  cases form with
  | std => by_cases hw : w = 0#16 <;> simp [echo5, truth, hw]
  | raw | word => rfl

/-- What the set of a single write leaves for its read-back, the next operation of the request: the word stored, and all
else the request works with. -/
structure ReadBackNext (i : Instr) (k : Nat) (addr stored : Word) (s t : State) : Prop where
  cfg : t.cfg = s.cfg
  fault : t.fault = none
  bus : t.bus = .busy i .get
  busOut : t.busOut = s.busOut
  stored : storeSet s.cfg s.store k addr.toNat [stored] = some t.store

section
variable {i : Instr} {k : Nat} {dev fc : Byte} {addr stored w : Word} {echo : Word → Word} {s s1 s2 : State}
  (hexec : ∀ u : State, u.cfg = s.cfg → exec i u = singleWriteRequest i k dev fc addr stored echo u)
  (hf : s.fault = none) (hb : s.bus = .busy i .set) (hp : rangePresent s k addr.toNat 1) (h1 : exec i s = .next s1)
include hexec hf hb hp h1

theorem singleWrite_readBackNext : ReadBackNext i k addr stored s s1 := by
  obtain ⟨st, hset⟩ := exists_storeSet (vals := [stored]) hp
  have hnext : exec i s = .next ((s.withStore st).withBus (.busy i .get)) := by
    rw [hexec s rfl, singleWriteRequest, onBus_inFlight hf hb]
    exact setStage_of_storeSet hset _
  obtain rfl := Host.Outcome.next.inj (hnext.symm.trans h1)
  exact ⟨rfl, hf, rfl, rfl, hset⟩

/-- A single write between its set and its read-back echoes what a local set stores at its cell meanwhile. -/
theorem singleWrite_echoes_local_set (hk : k < 4) (hshape : storeShaped s)
    (h2 : exec (.lSet k addr.toNat [w]) s1 = .next s2) :
    exec i s2 = .next (s2.emit (writeResponse dev fc addr (echo w))) ∧ s2.busOut = s.busOut := by
  obtain ⟨hcfg, hfault, hbus, hout, hset⟩ := singleWrite_readBackNext hexec hf hb hp h1
  have hclass : k < (classesOf s.cfg).length := lt_classesOf_length s.cfg hk
  have hshape1 : storeShaped s1 := by
    rw [storeShaped, hcfg, storeSet_length _ _ _ _ _ _ hset, hshape]
  have hstored : rangeHolds s1 k addr.toNat [stored] := rangeHolds_of_storeSet (hshape.symm ▸ hclass) hcfg hset
  obtain ⟨t, hexec2, ht, hlocal, -⟩ := (setStoresItsWordsOrFaults s1 k addr.toNat [w] hfault hshape1 (hcfg ▸ hclass)).1
    (.inl (rangePresent_of_rangeHolds hstored :))
  obtain rfl := Host.Outcome.next.inj (hexec2.symm.trans h2)
  refine ⟨?_, (congrArg State.busOut ht).trans hout⟩
  rw [hexec t ((congrArg State.cfg ht).trans hcfg), singleWriteRequest,
    onBus_inFlight ((congrArg State.fault ht).trans hfault) ((congrArg State.bus ht).trans hbus)]
  exact getStage_of_rangeHolds dev fc _ (List.cons_ne_nil w []) hlocal

end

/-- Settles O54: the read-back finds the word of the local set, and the echo is made of it as the code asks. -/
theorem echoShowsALocalWriteInBetween : Obligations.EchoShowsALocalWriteInBetween := by
  rintro s s1 s2 i dev fc k addr q crc w echo (⟨rfl, rfl, rfl, rfl⟩ | ⟨rfl, rfl, rfl, hform⟩) hf hshape hb hp h1 h2
  · obtain ⟨hecho, hout⟩ :=
      singleWrite_echoes_local_set (echo := fun w => w) (fun _ _ => rfl) hf hb hp h1 (by decide) hshape h2
    rw [hecho, ← hout]
    rfl
  · obtain rfl : echo = echo5 s.cfg.coilEcho w q := hform.trans (echo5_eq _ w q).symm
    obtain ⟨hecho, hout⟩ := singleWrite_echoes_local_set (echo := fun w => echo5 s.cfg.coilEcho w q)
      (fun u hu => by rw [exec, execWriteSingleCoil, hu]) hf hb hp h1 (by decide) hshape h2
    rw [hecho, ← hout]
    rfl

/-! ### A bus write before the flag is cleared (R247) -/

/-- Settles O55: the bus write latches the flag, and both operations clear it, but only L_TAKE_CHANGED tells. -/
theorem readThenClearLosesABusWrite : Obligations.ReadThenClearLosesABusWrite := by
  intro s s1 s2 i r hf hflag hr hwrites hb hset hp h1 h2
  obtain ⟨hread, -, -⟩ := changedIsReadClearedAndTaken s hf
  rw [hflag] at hread
  obtain rfl := Host.Outcome.next.inj (hread.symm.trans h1)
  obtain ⟨hnone, -⟩ | ⟨hstored, hport⟩ := exec_set_next (s := s.result (.bool false)) hr hset hb h2
  · exact absurd hp ((storeSet_eq_none_iff s _ _ _).mp hnone).2
  have hchanged : s2.store.changed = true := (storeSet_changed_iff hstored).mpr (.inr hwrites)
  have hout : s2.localOut = s.localOut ++ [.bool false] := (congrArg State.localOut hport :)
  obtain ⟨-, hclear, htake⟩ := changedIsReadClearedAndTaken s2 (hport.fault_eq.trans hf)
  refine ⟨rfl, hchanged, ⟨_, hclear, rfl, ?_⟩, ⟨_, htake, rfl, ?_⟩⟩
  · rw [hout]
  · rw [hout, hchanged]

/-! ### A local write of the stale cached value (R245) -/

/-- Settles O57: no bus turn reaches a cache, so the written value is still the cached one. -/
theorem staleCacheKeepsTheBusWord : Obligations.StaleCacheKeepsTheBusWord := by
  intro s s1 e d n _ hcon he hv hn hcache ha hstep hf1
  have hframe : BusFrame s s1 := (step_next hstep).2.busFrame hcon ha
  have he1 : s1.cfg.entities[e]? = some d := noStepChangesTheConfiguration s s1 hstep ▸ he
  exact entityWrite_of_cached he1 hf1 hv (reprOf_int hv hn) (hframe.caches ▸ hcache)

end Sys2Proof.Machine
end
